-- ==== Sys2Proof/Word.lean ====
section
/-! DEFINITION. The widths the spec names: a byte, a micro-operation word or field register, and the 6-bit operand
fields of a micro-operation (`spec/00_scope.md` R5, R6; `spec/30_encoding.md` R60). -/

namespace Sys2Proof

/-- A byte is 8 bits (R6). -/
abbrev Byte := BitVec 8

/-- A micro-operation word (`W_UOP`, R5) and the value of a field register (`W_F`, R5) are 32 bits. -/
abbrev Word := BitVec 32

/-- A register operand: a 6-bit field whose legal values are 0 to 34 (R11, R62). -/
abbrev RegNum := BitVec 6

/-- An offset into the acknowledgement buffer: a 6-bit field whose legal values are 0 to 27 (R62). -/
abbrev AbOff := BitVec 6

/-- An index into the micro-ROM (`W_UPC`, R5): every 6-bit value is legal (R62). -/
abbrev RomIndex := BitVec 6

end Sys2Proof
end

