-- ==== Sys2Proof/Syntax.lean ====
section
/-! DEFINITION. The 22 micro-operations, one constructor per row of `spec/opcode_table.json`, in the table's order, with
the operands in the order of the assembler syntax (`spec/30_encoding.md` R68). An operand is the content of its field
(R62): ranges are checked by `Instr.wf`, so that an out-of-range operand can be written down and shown to be illegal. -/

namespace Sys2Proof

/-- One micro-operation with its operands (R63, R68). -/
inductive Instr where
  /-- `SKIP n` (R81). -/
  | skip (n : Byte)
  /-- `RDU8 fd` (R82). -/
  | rdu8 (fd : RegNum)
  /-- `RDI8 fd` (R83). -/
  | rdi8 (fd : RegNum)
  /-- `RDU16 fd` (R84). -/
  | rdu16 (fd : RegNum)
  /-- `RDU24 fd` (R85). -/
  | rdu24 (fd : RegNum)
  /-- `RDU32 fd` (R86). -/
  | rdu32 (fd : RegNum)
  /-- `RDI32 fd` (R87). -/
  | rdi32 (fd : RegNum)
  /-- `PKU8 fd` (R88). -/
  | pku8 (fd : RegNum)
  /-- `EXT fd, fs, lsb, w` (R90). -/
  | ext (fd fs : RegNum) (lsb : BitVec 6) (w : Byte)
  /-- `CAT fd, fs, n` (R91). -/
  | cat (fd fs : RegNum) (n : Byte)
  /-- `BATSEL fs` (R92). -/
  | batsel (fs : RegNum)
  /-- `ABCLR` (R101). -/
  | abclr
  /-- `ABI off, byte` (R102). -/
  | abi (off : AbOff) (byte : Byte)
  /-- `ABB off, fs` (R103). -/
  | abb (off : AbOff) (fs : RegNum)
  /-- `ABW32 off, fs` (R106). -/
  | abw32 (off : AbOff) (fs : RegNum)
  /-- `ABCNT off` (R104). -/
  | abcnt (off : AbOff)
  /-- `CKSUM dst, lo, hi` (R105). -/
  | cksum (dst lo hi : AbOff)
  /-- `EMIT` (R107). -/
  | emit
  /-- `BEQI fs, value, target` (R110). -/
  | beqi (fs : RegNum) (value : Byte) (target : RomIndex)
  /-- `BNCHAN target` (R111). -/
  | bnchan (target : RomIndex)
  /-- `BNSESS fs, target` (R112). -/
  | bnsess (fs : RegNum) (target : RomIndex)
  /-- `HALT code` (R113). -/
  | halt (code : Byte)
  deriving DecidableEq, Repr

end Sys2Proof
end

