-- ==== Sys2Proof/WellFormed.lean ====
section
/-! DEFINITION. The operand constraints of `spec/30_encoding.md` R66: which operand values make a micro-operation legal.
Must-be-zero fields are no part of `Instr`; the decoder checks them (R64 step 2). -/

namespace Sys2Proof

/-- A register number is 0 to 34 (R11, R66). -/
def regOk (r : RegNum) : Bool := decide (r.toNat ≤ 34)

/-- An AB offset of a one-byte access is 0 to 27 (R66). -/
def abOffOk (off : AbOff) : Bool := decide (off.toNat ≤ 27)

/-- An AB offset of a four-byte store is 0 to 24 (R66). -/
def abOff32Ok (off : AbOff) : Bool := decide (off.toNat ≤ 24)

/-- The range of `CKSUM` is non-empty and inside AB (R66). -/
def abRangeOk (lo hi : AbOff) : Bool := decide (lo.toNat ≤ hi.toNat) && decide (hi.toNat ≤ 27)

/-- The bit field of `EXT` has 1 to 32 bits and lies inside the register (R66). -/
def bitFieldOk (lsb : BitVec 6) (w : Byte) : Bool :=
  decide (1 ≤ w.toNat) && decide (w.toNat ≤ 32) && decide (lsb.toNat ≤ 31) && decide (lsb.toNat + w.toNat ≤ 32)

/-- The shift count of `CAT` is 1 to 31 (R66). -/
def shiftOk (n : Byte) : Bool := decide (1 ≤ n.toNat) && decide (n.toNat ≤ 31)

/-- The code of `HALT` is 1, 2 or 3 (R66). -/
def haltCodeOk (code : Byte) : Bool := decide (1 ≤ code.toNat) && decide (code.toNat ≤ 3)

/-- The operands of a micro-operation are in their ranges (R66). Every value is legal for `SKIP`, for the byte of
`ABI`, for the value of `BEQI` and for a branch target. -/
def Instr.wf : Instr → Bool
  | .skip _ => true
  | .rdu8 fd => regOk fd
  | .rdi8 fd => regOk fd
  | .rdu16 fd => regOk fd
  | .rdu24 fd => regOk fd
  | .rdu32 fd => regOk fd
  | .rdi32 fd => regOk fd
  | .pku8 fd => regOk fd
  | .ext fd fs lsb w => regOk fd && regOk fs && bitFieldOk lsb w
  | .cat fd fs n => regOk fd && regOk fs && shiftOk n
  | .batsel fs => regOk fs
  | .abclr => true
  | .abi off _ => abOffOk off
  | .abb off fs => abOffOk off && regOk fs
  | .abw32 off fs => abOff32Ok off && regOk fs
  | .abcnt off => abOffOk off
  | .cksum dst lo hi => abOffOk dst && abRangeOk lo hi
  | .emit => true
  | .beqi fs _ _ => regOk fs
  | .bnchan _ => true
  | .bnsess fs _ => regOk fs
  | .halt code => haltCodeOk code

end Sys2Proof
end

