-- ==== Sys2Proof/Decode.lean ====
section
/-! DEFINITION. The decoder of `spec/30_encoding.md` R60 to R66, total over all 2^32 words, and the encoder of the same
tables. -/

namespace Sys2Proof

/-- The five fields of a micro-operation word (R60). -/
structure Fields where
  /-- bits 31:26, the operation code -/
  op : BitVec 6
  /-- bits 25:20, first operand -/
  ra : BitVec 6
  /-- bits 19:14, second operand -/
  rb : BitVec 6
  /-- bits 13:8, third operand -/
  rc : BitVec 6
  /-- bits 7:0, immediate -/
  imm : BitVec 8
  deriving DecidableEq, Repr

/-- The fields of a word (R60). -/
def fieldsOf (w : Word) : Fields :=
  { op := w.extractLsb' 26 6, ra := w.extractLsb' 20 6, rb := w.extractLsb' 14 6, rc := w.extractLsb' 8 6,
    imm := w.extractLsb' 0 8 }

/-- `op || ra || rb || rc || imm` (R60). -/
def wordOf (f : Fields) : Word := f.op ++ f.ra ++ f.rb ++ f.rc ++ f.imm

/-- Why a word is illegal (R64). -/
inductive IllegalWord where
  /-- `op` is none of the 22 assigned values (R64 step 1, R65). -/
  | unassignedOp
  /-- A field that the format does not use is not zero (R64 step 2, R66). -/
  | reservedField
  /-- An operand is outside its range (R64 step 3, R66). -/
  | operandRange
  deriving DecidableEq, Repr

/-- What the decoder answers: one legal micro-operation with its operands, or that the word is illegal (R64). -/
inductive Decoded where
  | legal (i : Instr)
  | illegal (why : IllegalWord)
  deriving DecidableEq, Repr

/-- A row of the opcode map of R63: the mask and match of the row, and the operation whose operands are taken from the
fields its format uses (R61, R62). -/
structure OpRow where
  mask : Word
  value : Word
  instr : Instr
  deriving DecidableEq, Repr

/-- The row of the opcode map (R63) that the `op` field selects, read with the operand fields of the same word; none
for the 42 unassigned values of `op` (R65). -/
def opRow (f : Fields) : Option OpRow :=
  match f.op.toNat with
  | 0x01 => some ⟨0xFFFFFF00, 0x04000000, .skip f.imm⟩
  | 0x02 => some ⟨0xFC0FFFFF, 0x08000000, .rdu8 f.ra⟩
  | 0x03 => some ⟨0xFC0FFFFF, 0x0C000000, .rdi8 f.ra⟩
  | 0x04 => some ⟨0xFC0FFFFF, 0x10000000, .rdu16 f.ra⟩
  | 0x05 => some ⟨0xFC0FFFFF, 0x14000000, .rdu24 f.ra⟩
  | 0x06 => some ⟨0xFC0FFFFF, 0x18000000, .rdu32 f.ra⟩
  | 0x07 => some ⟨0xFC0FFFFF, 0x1C000000, .rdi32 f.ra⟩
  | 0x08 => some ⟨0xFC0FFFFF, 0x20000000, .pku8 f.ra⟩
  | 0x10 => some ⟨0xFC000000, 0x40000000, .ext f.ra f.rb f.rc f.imm⟩
  | 0x11 => some ⟨0xFC003F00, 0x44000000, .cat f.ra f.rb f.imm⟩
  | 0x12 => some ⟨0xFFF03FFF, 0x48000000, .batsel f.rb⟩
  | 0x20 => some ⟨0xFFFFFFFF, 0x80000000, .abclr⟩
  | 0x21 => some ⟨0xFC0FFF00, 0x84000000, .abi f.ra f.imm⟩
  | 0x22 => some ⟨0xFC003FFF, 0x88000000, .abb f.ra f.rb⟩
  | 0x23 => some ⟨0xFC003FFF, 0x8C000000, .abw32 f.ra f.rb⟩
  | 0x24 => some ⟨0xFC0FFFFF, 0x90000000, .abcnt f.ra⟩
  | 0x25 => some ⟨0xFC0000FF, 0x94000000, .cksum f.ra f.rb f.rc⟩
  | 0x26 => some ⟨0xFFFFFFFF, 0x98000000, .emit⟩
  | 0x30 => some ⟨0xFC003F00, 0xC0000000, .beqi f.ra f.imm f.rb⟩
  | 0x31 => some ⟨0xFFF03FFF, 0xC4000000, .bnchan f.rb⟩
  | 0x32 => some ⟨0xFC003FFF, 0xC8000000, .bnsess f.ra f.rb⟩
  | 0x33 => some ⟨0xFFFFFF00, 0xCC000000, .halt f.imm⟩
  | _ => none

/-- The decoding procedure of R64, in its order: the `op` value, the must-be-zero fields, the operand ranges. -/
def decode (w : Word) : Decoded :=
  match opRow (fieldsOf w) with
  | none => .illegal .unassignedOp
  | some row =>
    if w &&& row.mask = row.value then
      if row.instr.wf then .legal row.instr else .illegal .operandRange
    else .illegal .reservedField

/-- The fields of a micro-operation's word; a field that its format does not use is 0 (R61, R63). -/
def encodeFields : Instr → Fields
  | .skip n => ⟨0x01, 0, 0, 0, n⟩
  | .rdu8 fd => ⟨0x02, fd, 0, 0, 0⟩
  | .rdi8 fd => ⟨0x03, fd, 0, 0, 0⟩
  | .rdu16 fd => ⟨0x04, fd, 0, 0, 0⟩
  | .rdu24 fd => ⟨0x05, fd, 0, 0, 0⟩
  | .rdu32 fd => ⟨0x06, fd, 0, 0, 0⟩
  | .rdi32 fd => ⟨0x07, fd, 0, 0, 0⟩
  | .pku8 fd => ⟨0x08, fd, 0, 0, 0⟩
  | .ext fd fs lsb w => ⟨0x10, fd, fs, lsb, w⟩
  | .cat fd fs n => ⟨0x11, fd, fs, 0, n⟩
  | .batsel fs => ⟨0x12, 0, fs, 0, 0⟩
  | .abclr => ⟨0x20, 0, 0, 0, 0⟩
  | .abi off byte => ⟨0x21, off, 0, 0, byte⟩
  | .abb off fs => ⟨0x22, off, fs, 0, 0⟩
  | .abw32 off fs => ⟨0x23, off, fs, 0, 0⟩
  | .abcnt off => ⟨0x24, off, 0, 0, 0⟩
  | .cksum dst lo hi => ⟨0x25, dst, lo, hi, 0⟩
  | .emit => ⟨0x26, 0, 0, 0, 0⟩
  | .beqi fs value target => ⟨0x30, fs, target, 0, value⟩
  | .bnchan target => ⟨0x31, 0, target, 0, 0⟩
  | .bnsess fs target => ⟨0x32, fs, target, 0, 0⟩
  | .halt code => ⟨0x33, 0, 0, 0, code⟩

/-- The word of a micro-operation (R60). -/
def encode (i : Instr) : Word := wordOf (encodeFields i)

/-- The instruction the decoder reads from the bits `w` of a table row of `nbits` bits: a micro-operation is one whole
32-bit word, bit 0 its least significant bit (R43, R60), so there is no byte order to lay out. -/
def decodeTableWord (nbits w : Nat) : Option Instr :=
  match decode (BitVec.ofNat 32 (w % 2 ^ nbits)) with
  | .legal i => some i
  | .illegal _ => none

end Sys2Proof
end

