-- ==== Sys2Proof/Machine/Memory.lean ====
section
/-! DEFINITION. A byte memory as a list of (address, byte) pairs in one canonical form, and the accesses the spec
defines over it (`spec/00_scope.md` R7, `spec/20_memory.md` R40 to R46). FB and AB are two memories of this form. -/

namespace Sys2Proof.Machine

/-- A byte memory: addresses strictly rising, no entry equal to what an unlisted address reads as. -/
abbrev Memory := List Host.Cell

/-- What an unlisted address reads as. For AB this is the reset value of R27; for FB the spec gives no content at reset
and no rule reads a byte that LOAD has not written (DESIGN CHOICE, log 3). -/
def Memory.unlisted : Byte := 0x00

/-- The byte at an address. -/
def Memory.read : Memory → Nat → Byte
  | [], _ => Memory.unlisted
  | (b, x) :: rest, a => if a = b then x else Memory.read rest a

/-- One cell, listed only when it differs from what an unlisted address reads as. -/
def Memory.cell (a : Nat) (v : Byte) : Memory := if v = Memory.unlisted then [] else [(a, v)]

/-- Write one byte, keeping the canonical form. -/
def Memory.write : Memory → Nat → Byte → Memory
  | [], a, v => Memory.cell a v
  | (b, x) :: rest, a, v =>
    if a < b then Memory.cell a v ++ (b, x) :: rest
    else if a = b then Memory.cell a v ++ rest
    else (b, x) :: Memory.write rest a v

/-- The canonical form from an address on: rising addresses at `lo` or above, no unlisted value. -/
def Memory.wfFrom : Nat → Memory → Bool
  | _, [] => true
  | lo, (a, v) :: rest => decide (lo ≤ a) && decide (v ≠ Memory.unlisted) && Memory.wfFrom (a + 1) rest

/-- The canonical form. -/
def Memory.wf (m : Memory) : Bool := Memory.wfFrom 0 m

/-- Every listed address is below a bound. -/
def Memory.below (m : Memory) (bound : Nat) : Bool := m.all fun c => decide (c.1 < bound)

/-- `MemRead(addr, n)`: the unsigned little-endian integer made of `n` bytes (R7, R41). -/
def Memory.readLE (m : Memory) (addr : Nat) : Nat → Nat
  | 0 => 0
  | n + 1 => (Memory.read m addr).toNat + 256 * Memory.readLE m (addr + 1) n

/-- `MemWrite(off, n, v)`: the low `8n` bits of `v`, little-endian (R7, R41). -/
def Memory.writeLE (m : Memory) (off : Nat) : Nat → Word → Memory
  | 0, _ => m
  | n + 1, v => Memory.writeLE (Memory.write m off (v.extractLsb' 0 8)) (off + 1) n (v >>> 8)

/-- Bytes written in order from an address on, as LOAD does (R183). -/
def Memory.writeBytes (m : Memory) (addr : Nat) : List Byte → Memory
  | [] => m
  | v :: rest => Memory.writeBytes (Memory.write m addr v) (addr + 1) rest

/-- `n` bytes set to 0x00 from an address on, as `ABCLR` does (R101). -/
def Memory.clear (m : Memory) (addr : Nat) : Nat → Memory
  | 0 => m
  | n + 1 => Memory.clear (Memory.write m addr 0x00) (addr + 1) n

/-- The sum modulo 256 of `n` bytes from an address on (R105). -/
def Memory.sum (m : Memory) (addr : Nat) : Nat → Byte
  | 0 => 0
  | n + 1 => Memory.read m addr + Memory.sum m (addr + 1) n

end Sys2Proof.Machine
end

