-- ==== Sys2Proof/Machine/MicroRom.lean ====
section
/-! DEFINITION. The content of the micro-ROM, word by word from `spec/45_frame_program.md` R120. -/

namespace Sys2Proof.Machine

/-- Addresses 0 to 6: the common header (R121) and the channel test (R125). -/
def romHeader : List Word :=
  [ 0x04000004  -- 0: SKIP 4
  , 0x08100000  -- 1: RDU8 TYPE
  , 0x18200000  -- 2: RDU32 UNITID
  , 0xC0114008  -- 3: BEQI TYPE, 8, 5
  , 0x10000000  -- 4: RDU16 NULL
  , 0x0C300000  -- 5: RDI8 PKTNUM
  , 0xC4048000  -- 6: BNCHAN 18
  ]

/-- Addresses 7 to 17: the acknowledgement routine (R108, R124). -/
def romAck : List Word :=
  [ 0x80000000  -- 7: ABCLR
  , 0x8400004D  -- 8: ABI 0, 'M'
  , 0x84100043  -- 9: ABI 1, 'C'
  , 0x84200047  -- 10: ABI 2, 'G'
  , 0x84300050  -- 11: ABI 3, 'P'
  , 0x84400004  -- 12: ABI 4, 0x04
  , 0x8C508000  -- 13: ABW32 5, UNITID
  , 0x90900000  -- 14: ABCNT 9
  , 0x88F0C000  -- 15: ABB 15, PKTNUM
  , 0x95B11A00  -- 16: CKSUM 27, 4, 26
  , 0x98000000  -- 17: EMIT
  ]

/-- Addresses 18 to 20: routing by type (R122) and the session query. -/
def romRoute : List Word :=
  [ 0xC0150000  -- 18: BEQI TYPE, 0, 20
  , 0xCC000002  -- 19: HALT 2
  , 0xC82EC000  -- 20: BNSESS UNITID, 59
  ]

/-- Addresses 21 to 38: the status payload (R123), first part. -/
def romPayload1 : List Word :=
  [ 0x08400000  -- 21: RDU8 HWTYPE
  , 0x48010000  -- 22: BATSEL HWTYPE
  , 0x08500000  -- 23: RDU8 HWVER
  , 0x08600000  -- 24: RDU8 FWVER
  , 0x08700000  -- 25: RDU8 PROTOVER
  , 0x20800000  -- 26: PKU8 PEEK
  , 0x40920004  -- 27: EXT STATUS, PEEK, 0, 4
  , 0x08A00000  -- 28: RDU8 OPHI
  , 0x08B00000  -- 29: RDU8 OPMID
  , 0x08000000  -- 30: RDU8 NULL
  , 0x08C00000  -- 31: RDU8 REASON
  , 0x08D00000  -- 32: RDU8 MODE
  , 0x18E00000  -- 33: RDU32 IO1
  , 0x08F00000  -- 34: RDU8 OPLO
  , 0x09000000  -- 35: RDU8 BATTERY
  , 0x04000003  -- 36: SKIP 3
  , 0x15100000  -- 37: RDU24 ODOMETER
  , 0x04000006  -- 38: SKIP 6
  ]

/-- Addresses 39 to 54: the status payload (R123), second part. -/
def romPayload2 : List Word :=
  [ 0x11200000  -- 39: RDU16 GPS
  , 0x09300000  -- 40: RDU8 LOCSTATUS
  , 0x09400000  -- 41: RDU8 MODE1
  , 0x09500000  -- 42: RDU8 MODE2
  , 0x09600000  -- 43: RDU8 SATS
  , 0x1D700000  -- 44: RDI32 LON
  , 0x1D800000  -- 45: RDI32 LAT
  , 0x1D900000  -- 46: RDI32 ALT
  , 0x1DA00000  -- 47: RDI32 SPEED
  , 0x11B00000  -- 48: RDU16 COURSE
  , 0x09C00000  -- 49: RDU8 SEC
  , 0x09D00000  -- 50: RDU8 MIN
  , 0x09E00000  -- 51: RDU8 HOUR
  , 0x09F00000  -- 52: RDU8 DAY
  , 0x0A000000  -- 53: RDU8 MONTH
  , 0x12100000  -- 54: RDU16 YEAR
  ]

/-- Addresses 55 to 59: operator assembly (R93) and the ends of a run (R23). -/
def romTail : List Word :=
  [ 0x42228404  -- 55: EXT OPER, OPHI, 4, 4
  , 0x4622C008  -- 56: CAT OPER, OPMID, 8
  , 0x4623C008  -- 57: CAT OPER, OPLO, 8
  , 0xCC000001  -- 58: HALT 1
  , 0xCC000003  -- 59: HALT 3
  ]

/-- The 64 words of R120; addresses 60 to 63 hold the illegal word (R65). -/
def romWords : List Word :=
  romHeader ++ romAck ++ romRoute ++ romPayload1 ++ romPayload2 ++ romTail ++ List.replicate 4 0x00000000

/-- UROM: 64 words addressed by UPC (R24, R120). -/
def microRom : Vector Word 64 := Vector.ofFn fun k => romWords.getD k.val 0x00000000

end Sys2Proof.Machine
end

