-- ==== Sys2Proof/Machine/State.lean ====
section
/-! DEFINITION. The state of one BFPU (`spec/10_state.md` R10 to R28) as plain data, with the host's side of the
interface that the spec makes arguments of the step relation, and the state after reset (R27). -/

namespace Sys2Proof.Machine

/-- The three faults of the unit (`spec/60_exceptions.md` R160 to R162, R169). They are TAKEN (R163): the step answers a
next state, the stopped unit. -/
inductive Trap where
  /-- a cursor micro-operation would read past FLEN (R160) -/
  | shortFrame
  /-- the word at UPC is not a legal micro-operation (R161) -/
  | illegalOp
  /-- a field register is read whose valid bit is 0 (R162) -/
  | unwrittenField
  deriving DecidableEq, Repr

/-- What a host READ names (R185). -/
inductive ReadItem where
  /-- a field register with its valid bit -/
  | field (r : RegNum)
  | pos
  | upc
  | flen
  /-- a byte of FB below FLEN -/
  | fb (off : Nat)
  /-- a byte of AB -/
  | ab (off : Nat)
  | cmdcnt
  | batsel
  | ackv
  | chan
  | result
  | run
  | done
  deriving DecidableEq, Repr

/-- The four host actions, the unit's whole interface (`spec/70_reset_and_hazards.md` R182 to R185). -/
inductive HostAction where
  /-- RESET (R182) -/
  | reset
  /-- LOAD(bytes, chan) (R183) -/
  | load (bytes : List Byte) (chan : Bool)
  /-- START (R184) -/
  | start
  /-- READ(item) (R185) -/
  | read (item : ReadItem)
  deriving DecidableEq, Repr

/-- One turn of the host (log 7): what the outside does next, and when. -/
inductive HostTurn where
  /-- the host performs an action now, whatever RUN is -/
  | act (a : HostAction)
  /-- the host waits until RUN = 0 (R186 step 4); while RUN = 1 the sequencer steps -/
  | awaitDone
  /-- the host lets one step pass: the sequencer steps once if RUN = 1 -/
  | letStep
  /-- the session registry changes its answers (R151); refused while RUN = 1 -/
  | registry (known : List Word)
  deriving DecidableEq, Repr

/-- The state. The fields from `urom` on are the model's own, as their docstrings say (`INVENTORY.md`, State). -/
structure State where
  /-- F1 .. F34 with FVALID[1 .. 34] (R11 to R13): register i is at index i - 1 and `none` is FVALID[i] = 0, a register
  that holds no value (R13, R162, U1; log 2). F0 has no storage. -/
  f : Vector (Option Word) 34
  /-- POS, the cursor position (R14) -/
  pos : BitVec 16
  /-- UPC, the micro-program counter (R15) -/
  upc : RomIndex
  /-- FLEN, the number of valid bytes in FB (R16) -/
  flen : BitVec 16
  /-- FB, the frame buffer (R17) -/
  fb : Memory
  /-- AB, the acknowledgement buffer (R18) -/
  ab : Memory
  /-- CMDCNT, the acknowledgement counter of the connection (R19) -/
  cmdcnt : BitVec 8
  /-- BATSEL, the battery table selector of the connection (R20) -/
  batsel : Bool
  /-- ACKV, an acknowledgement was built and handed over in this frame run (R21) -/
  ackv : Bool
  /-- RUN, the sequencer is executing (R21) -/
  run : Bool
  /-- CHAN, the transport provided a channel (R22) -/
  chan : Bool
  /-- RESULT, how the last frame run ended (R23) -/
  result : BitVec 3
  /-- MODEL: the content of UROM (R24), an argument of the spec's step relation; no step writes it (log 5) -/
  urom : Vector Word 64
  /-- MODEL: the unit ids for which the oracle `SessionKnown` answers true (R25; log 6) -/
  knownDevices : List Word
  /-- MODEL: the host's pending turns (log 7) -/
  script : List HostTurn
  /-- MODEL: what the last READ returned; `none` is no value (R185; log 8) -/
  hostData : Option Word
  /-- MODEL: how many reads without a defined value there were (U4; log 8) -/
  freeCount : Nat
  deriving DecidableEq, Repr

/-- Why a step could stop with a fault. It has no constructor: the three faults the spec gives the unit are taken as
R163 describes, in a next state, and R169 says there are no others (log 10). No one raises it; safe. -/
inductive Fault where
  deriving DecidableEq, Repr

/-- Why an instruction could be refused. -/
inductive Refusal where
  /-- Raised by an arm of `exec` whose instruction has no meaning yet, and by nothing else; no arm of this model is one.
  Safe: the run stops. -/
  | notModelled (mnemonic : String)
  deriving DecidableEq, Repr

/-- What a step or a meaning answers. -/
abbrev StepResult := Host.Outcome State Fault Refusal

/-- The state after the host action RESET (R27, R181). The model's own fields: the ROM of R120, a registry that knows no
device, no pending host turn, nothing read (log 5 to log 8). -/
def State.reset : State where
  f := Vector.replicate 34 none
  pos := 0
  upc := 0
  flen := 0
  fb := []
  ab := []
  cmdcnt := 0
  batsel := false
  ackv := false
  run := false
  chan := false
  result := 0
  urom := microRom
  knownDevices := []
  script := []
  hostData := none
  freeCount := 0

end Sys2Proof.Machine
end

