-- ==== Sys2Proof/Machine/Operands.lean ====
section
/-! DEFINITION. The operand forms: reading and writing a field register (`spec/00_scope.md` R7, `spec/10_state.md` R11,
R13) and the values the micro-operations compute from operands (R62, R82 to R92). -/

namespace Sys2Proof.Machine

/-- The value register `r` holds; `none` when its valid bit is 0. F0 reads 0 and is always valid (R11). Numbers 35 to 63
name no register. -/
def readField (r : RegNum) (s : State) : Option Word :=
  if r = 0#6 then some 0 else (s.f[r.toNat - 1]?).join

/-- The register file after `F[r] <- v`: the register holds `v` and is valid; a write to F0 is discarded (R7, R11). -/
def fieldsAfter (r : RegNum) (v : Word) (f : Vector (Option Word) 34) : Vector (Option Word) 34 :=
  if r = 0#6 then f else f.setIfInBounds (r.toNat - 1) (some v)

/-- `F[r] <- v` (R7). -/
def writeField (r : RegNum) (v : Word) (s : State) : State :=
  { s with f := fieldsAfter r v s.f }

/-- The register file after START: only F0 is valid, F1 to F34 hold no value (R184). -/
def fieldsCleared : Vector (Option Word) 34 := Vector.replicate 34 none

/-- A little-endian integer of at most 32 bits, zero-extended into a register (R82, R84 to R88). -/
def zextValue (n : Nat) : Word := BitVec.ofNat 32 n

/-- A byte sign-extended into a register: its bit 7 is copied into bits 31:8 (R83). -/
def sextByte (n : Nat) : Word := (BitVec.ofNat 8 n).signExtend 32

/-- `zext_32(v[lsb + w - 1 : lsb])` (R90). -/
def bitField (v : Word) (lsb w : Nat) : Word := (v.extractLsb' lsb w).setWidth 32

/-- `((d << n) mod 2^32) | zext_32(v[n-1:0])` (R91). -/
def catField (d v : Word) (n : Nat) : Word := (d <<< n) ||| bitField v 0 n

end Sys2Proof.Machine
end

