-- ==== Sys2Proof/Machine/Flags.lean ====
section
/-! DEFINITION. The flag-like state (`spec/10_state.md` R29): FVALID, DONE, the battery selector's value, the branch
conditions, and the RESULT codes (R23). The unit has no arithmetic condition codes. -/

namespace Sys2Proof.Machine

/-- FVALID[r]: the register has been written in this frame run (R13). -/
def fieldValid (r : RegNum) (s : State) : Bool := (readField r s).isSome

/-- The 35 bits of FVALID as a number built from bit `n - 1` down (R13). -/
def fvalidBits (s : State) : Nat → Nat
  | 0 => 0
  | n + 1 => fvalidBits s n + (if fieldValid (BitVec.ofNat 6 n) s then 2 ^ n else 0)

/-- FVALID as its 35-bit word (R13): bit i is the valid bit of F[i], bit 0 is 1. -/
def State.fvalid (s : State) : BitVec 35 := BitVec.ofNat 35 (fvalidBits s 35)

/-- The output `DONE = (RUN = 0 and RESULT != 0)` (R21, R166). -/
def State.done (s : State) : Bool := !s.run && s.result != 0

/-- The oracle `SessionKnown(u)` (R25, R112). -/
def State.sessionKnown (s : State) (u : Word) : Bool := s.knownDevices.contains u

/-- What `BATSEL` writes: 1 when the low five bits are 12, else 0 (R92). -/
def batteryTable (v : Word) : Bool := decide (v.extractLsb' 0 5 = 12#5)

/-- The condition of `BEQI`: all 32 bits against the zero-extended immediate (R110). -/
def equalsImmediate (v : Word) (value : Byte) : Bool := decide (v = value.setWidth 32)

/-- The RESULT code of a fault (R23, R160 to R162). -/
def trapCode : Trap → BitVec 3
  | .shortFrame => 4
  | .illegalOp => 5
  | .unwrittenField => 6

/-- The RESULT code that `HALT` writes (R113). -/
def haltResult (code : Byte) : BitVec 3 := code.setWidth 3

end Sys2Proof.Machine
end

