-- ==== Sys2Proof/Machine/Ops.lean ====
section
/-! DEFINITION. The operations the micro-operations share: the end of a frame run and TAKING A FAULT
(`spec/60_exceptions.md` R163, R164), the micro-program counter (R15), the cursor (R80), operand reads that can fault
(R162), stores to AB, and the fetch (R188). -/

namespace Sys2Proof.Machine

/-- The end of a frame run with a RESULT code: RESULT is written and RUN cleared, everything else keeps its value (R163,
R164). There is no return from it (R171): the way forward is a host action. -/
def endRun (code : BitVec 3) (s : State) : State :=
  { s with result := code, run := false }

/-- Taking a fault: exactly `RESULT <- c; RUN <- 0`; UPC names the faulting micro-operation and POS the offset (R163). -/
def takeTrap (x : Trap) (s : State) : State := endRun (trapCode x) s

/-- `upc <- t` (R7). -/
def setUpc (t : RomIndex) (s : State) : State := { s with upc := t }

/-- `upc <- (upc + 1) mod 64`, where a rule does not write `upc` (R7, R15). -/
def nextUpc (s : State) : State := setUpc (s.upc + 1) s

/-- A conditional branch: the target when the condition holds, else the next word (R110 to R112). -/
def branchIf (c : Bool) (target : RomIndex) (s : State) : State :=
  if c then setUpc target s else nextUpc s

/-- The whole answer of a micro-operation: `IllegalOp` is tested before anything else (R64, R66, R170); a legal one does
what its rule says. -/
def ifLegal (i : Instr) (s : State) (effect : State) : StepResult :=
  .next (if i.wf then effect else takeTrap .illegalOp s)

/-- Read a source register and go on with its value; an invalid register raises `UnwrittenField` and nothing else
happens (R7, R13, R162). -/
def withField (r : RegNum) (s : State) (k : Word → State) : State :=
  match readField r s with
  | some v => k v
  | none => takeTrap .unwrittenField s

/-- The bounds check of a cursor micro-operation of byte count `k`: `POS + k <= FLEN`, without wrap-around (R80). -/
def inFrame (k : Nat) (s : State) : Bool := decide (s.pos.toNat + k ≤ s.flen.toNat)

/-- `MemRead(POS, k)` (R7, R80). -/
def frameRead (k : Nat) (s : State) : Nat := s.fb.readLE s.pos.toNat k

/-- `POS <- POS + k` (R80). -/
def advancePos (k : Nat) (s : State) : State := { s with pos := s.pos + BitVec.ofNat 16 k }

/-- A cursor micro-operation of byte count `k`: `ShortFrame` when the frame is too short, with no other effect; else what
it does with the frame, and the next word (R80). -/
def cursorOp (k : Nat) (s : State) (effect : State → State) : State :=
  if inFrame k s then nextUpc (effect s) else takeTrap .shortFrame s

/-- An advancing read of `k` bytes into a register (R80, R82 to R87). -/
def cursorRead (k : Nat) (value : Nat → Word) (fd : RegNum) (s : State) : State :=
  cursorOp k s fun s => advancePos k (writeField fd (value (frameRead k s)) s)

/-- `MemWrite(off, n, v)` into AB (R7). -/
def storeAck (off : AbOff) (n : Nat) (v : Word) (s : State) : State :=
  { s with ab := s.ab.writeLE off.toNat n v }

/-- All 28 bytes of AB set to 0x00 (R101). -/
def clearAck (s : State) : State := { s with ab := s.ab.clear 0 28 }

/-- The sum modulo 256 of AB[lo] to AB[hi] (R105). -/
def ackSum (lo hi : AbOff) (s : State) : Byte := s.ab.sum lo.toNat (hi.toNat + 1 - lo.toNat)

/-- `CMDCNT <- (CMDCNT + 1) mod 256` (R104). -/
def bumpCounter (s : State) : State := { s with cmdcnt := s.cmdcnt + 1 }

/-- `BATSEL <- b` (R92). -/
def setBatsel (b : Bool) (s : State) : State := { s with batsel := b }

/-- `ACKV <- 1` (R107). -/
def setAckv (s : State) : State := { s with ackv := true }

/-- `w = UROM[UPC]` (R188 step 1). -/
def fetch (s : State) : Word := s.urom.get s.upc.toFin

/-- The word placed where the next step fetches it: RUN = 1, as START leaves it, no host turn before the sequencer's,
and the word at UROM[UPC] (log 5). -/
def placeWord (w : Word) (s : State) : State :=
  { s with run := true, script := [], urom := s.urom.set s.upc.toNat w s.upc.isLt }

end Sys2Proof.Machine
end

