-- ==== Sys2Proof/Machine/Ack.lean ====
section
/-! DEFINITION. The acknowledgement and checksum micro-operations (`spec/42_ack_checksum_ops.md` R101 to R107). -/

namespace Sys2Proof.Machine

/-- `ABCLR` (R101): all 28 bytes of AB become 0x00. -/
def execAbclr (s : State) : StepResult :=
  ifLegal .abclr s (nextUpc (clearAck s))

/-- `ABI off, byte` (R102). -/
def execAbi (off : AbOff) (byte : Byte) (s : State) : StepResult :=
  ifLegal (.abi off byte) s (nextUpc (storeAck off 1 (byte.setWidth 32) s))

/-- `ABB off, fs` (R103): the low byte of a register. -/
def execAbb (off : AbOff) (fs : RegNum) (s : State) : StepResult :=
  ifLegal (.abb off fs) s (withField fs s fun v => nextUpc (storeAck off 1 v s))

/-- `ABW32 off, fs` (R106): a register as four bytes, little-endian. -/
def execAbw32 (off : AbOff) (fs : RegNum) (s : State) : StepResult :=
  ifLegal (.abw32 off fs) s (withField fs s fun v => nextUpc (storeAck off 4 v s))

/-- `ABCNT off` (R104): the counter before the increment is stored, then it is incremented modulo 256. -/
def execAbcnt (off : AbOff) (s : State) : StepResult :=
  ifLegal (.abcnt off) s (nextUpc (bumpCounter (storeAck off 1 (s.cmdcnt.setWidth 32) s)))

/-- `CKSUM dst, lo, hi` (R105): the bytes are summed as they stand before the result is written. -/
def execCksum (dst lo hi : AbOff) (s : State) : StepResult :=
  ifLegal (.cksum dst lo hi) s (nextUpc (storeAck dst 1 ((ackSum lo hi s).setWidth 32) s))

/-- `EMIT` (R107): the acknowledgement is handed over. -/
def execEmit (s : State) : StepResult :=
  ifLegal .emit s (nextUpc (setAckv s))

end Sys2Proof.Machine
end

