-- ==== Sys2Proof/Machine/Bitfield.lean ====
section
/-! DEFINITION. The bitfield micro-operations (`spec/41_bitfield_ops.md` R90 to R92). -/

namespace Sys2Proof.Machine

/-- `EXT fd, fs, lsb, w` (R90): the source is read before the destination is written. -/
def execExt (fd fs : RegNum) (lsb : BitVec 6) (w : Byte) (s : State) : StepResult :=
  ifLegal (.ext fd fs lsb w) s
    (withField fs s fun v => nextUpc (writeField fd (bitField v lsb.toNat w.toNat) s))

/-- `CAT fd, fs, n` (R91): fd is read first, then fs, then fd is written. -/
def execCat (fd fs : RegNum) (n : Byte) (s : State) : StepResult :=
  ifLegal (.cat fd fs n) s
    (withField fd s fun d => withField fs s fun v => nextUpc (writeField fd (catField d v n.toNat) s))

/-- `BATSEL fs` (R92): the selector becomes 1 when the low five bits are 12, else 0. -/
def execBatsel (fs : RegNum) (s : State) : StepResult :=
  ifLegal (.batsel fs) s (withField fs s fun v => nextUpc (setBatsel (batteryTable v) s))

end Sys2Proof.Machine
end

