-- ==== Sys2Proof/Machine/Control.lean ====
section
/-! DEFINITION. The control micro-operations (`spec/43_control_ops.md` R110 to R113). -/

namespace Sys2Proof.Machine

/-- `BEQI fs, value, target` (R110). -/
def execBeqi (fs : RegNum) (value : Byte) (target : RomIndex) (s : State) : StepResult :=
  ifLegal (.beqi fs value target) s
    (withField fs s fun v => branchIf (equalsImmediate v value) target s)

/-- `BNCHAN target` (R111): branch when CHAN = 0. -/
def execBnchan (target : RomIndex) (s : State) : StepResult :=
  ifLegal (.bnchan target) s (branchIf (!s.chan) target s)

/-- `BNSESS fs, target` (R112): ask the session oracle, branch when the device is unknown. -/
def execBnsess (fs : RegNum) (target : RomIndex) (s : State) : StepResult :=
  ifLegal (.bnsess fs target) s (withField fs s fun u => branchIf (!s.sessionKnown u) target s)

/-- `HALT code` (R113): the normal end of a frame run; UPC keeps the address of this HALT. -/
def execHalt (code : Byte) (s : State) : StepResult :=
  ifLegal (.halt code) s (endRun (haltResult code) s)

end Sys2Proof.Machine
end

