-- ==== Sys2Proof/Machine/Cursor.lean ====
section
/-! DEFINITION. The cursor micro-operations (`spec/40_cursor_ops.md` R80 to R88). -/

namespace Sys2Proof.Machine

/-- `SKIP n` (R81): pass over n bytes. -/
def execSkip (n : Byte) (s : State) : StepResult :=
  ifLegal (.skip n) s (cursorOp n.toNat s (advancePos n.toNat))

/-- `RDU8 fd` (R82): one byte, zero-extended. -/
def execRdu8 (fd : RegNum) (s : State) : StepResult :=
  ifLegal (.rdu8 fd) s (cursorRead 1 zextValue fd s)

/-- `RDI8 fd` (R83): one byte, sign-extended to 32 bits. -/
def execRdi8 (fd : RegNum) (s : State) : StepResult :=
  ifLegal (.rdi8 fd) s (cursorRead 1 sextByte fd s)

/-- `RDU16 fd` (R84): two bytes, little-endian. -/
def execRdu16 (fd : RegNum) (s : State) : StepResult :=
  ifLegal (.rdu16 fd) s (cursorRead 2 zextValue fd s)

/-- `RDU24 fd` (R85): three bytes, little-endian. -/
def execRdu24 (fd : RegNum) (s : State) : StepResult :=
  ifLegal (.rdu24 fd) s (cursorRead 3 zextValue fd s)

/-- `RDU32 fd` (R86): four bytes, little-endian. -/
def execRdu32 (fd : RegNum) (s : State) : StepResult :=
  ifLegal (.rdu32 fd) s (cursorRead 4 zextValue fd s)

/-- `RDI32 fd` (R87): the same 32 bits as `RDU32`; the signed reading is the host's. -/
def execRdi32 (fd : RegNum) (s : State) : StepResult :=
  ifLegal (.rdi32 fd) s (cursorRead 4 zextValue fd s)

/-- `PKU8 fd` (R88): one byte, zero-extended, POS not changed. -/
def execPku8 (fd : RegNum) (s : State) : StepResult :=
  ifLegal (.pku8 fd) s (cursorOp 1 s fun s => writeField fd (zextValue (frameRead 1 s)) s)

end Sys2Proof.Machine
end

