-- ==== Sys2Proof/Machine/Dispatch.lean ====
section
/-! DEFINITION. The meaning of every micro-operation, one arm per constructor. -/

namespace Sys2Proof.Machine

/-- What a micro-operation does (R188 step 3). -/
def exec (i : Instr) (s : State) : Host.Outcome State Fault Refusal :=
  match i with
  | .skip n => Sys2Proof.Machine.execSkip n s
  | .rdu8 fd => Sys2Proof.Machine.execRdu8 fd s
  | .rdi8 fd => Sys2Proof.Machine.execRdi8 fd s
  | .rdu16 fd => Sys2Proof.Machine.execRdu16 fd s
  | .rdu24 fd => Sys2Proof.Machine.execRdu24 fd s
  | .rdu32 fd => Sys2Proof.Machine.execRdu32 fd s
  | .rdi32 fd => Sys2Proof.Machine.execRdi32 fd s
  | .pku8 fd => Sys2Proof.Machine.execPku8 fd s
  | .ext fd fs lsb w => Sys2Proof.Machine.execExt fd fs lsb w s
  | .cat fd fs n => Sys2Proof.Machine.execCat fd fs n s
  | .batsel fs => Sys2Proof.Machine.execBatsel fs s
  | .abclr => Sys2Proof.Machine.execAbclr s
  | .abi off byte => Sys2Proof.Machine.execAbi off byte s
  | .abb off fs => Sys2Proof.Machine.execAbb off fs s
  | .abw32 off fs => Sys2Proof.Machine.execAbw32 off fs s
  | .abcnt off => Sys2Proof.Machine.execAbcnt off s
  | .cksum dst lo hi => Sys2Proof.Machine.execCksum dst lo hi s
  | .emit => Sys2Proof.Machine.execEmit s
  | .beqi fs value target => Sys2Proof.Machine.execBeqi fs value target s
  | .bnchan target => Sys2Proof.Machine.execBnchan target s
  | .bnsess fs target => Sys2Proof.Machine.execBnsess fs target s
  | .halt code => Sys2Proof.Machine.execHalt code s

end Sys2Proof.Machine
end

