-- ==== Sys2Proof/Config.lean ====
section
/-! DEFINITION. What the spec leaves to an implementation, and the free values: opaque constants, so that nothing proved
of the model rests on a particular choice (log 1, log 8, log 16, log 17). -/

namespace Sys2Proof

/-- How far the frame buffer's capacity is above its least value 70; any value from 0 to 65465. -/
opaque Config.frameMaxAbove : Fin 65466

/-- `FRAME_MAX`, the capacity of FB in bytes: OPEN, with 70 ≤ FRAME_MAX ≤ 65535 (R5, D3). -/
def Config.frameMax : Nat := 70 + Config.frameMaxAbove.val

/-- What a host READ returns that the spec gives no defined value (U4): a free value for each such read, numbered by
`State.freeCount`. -/
opaque Config.undefinedRead : Nat → Option Word

/-- First character of the string of a listed reason code other than 33 (R148, U9): the host's parameter `ReasonString`
answers non-empty strings, so it is a first character and a rest. -/
opaque Config.reasonHead : Byte → Char

/-- The rest of the string of a listed reason code other than 33 (R148, U9). -/
opaque Config.reasonTail : Byte → String

/-- The deviceId of the session that the host's registry returned for a unit id (R140, R151). DESIGN CHOICE (log 17): the
spec gives deviceId no type and lets the registry's answer for a unit id differ from frame to frame, and the registry is
asked with the frame's channel and remote address too; here it is one natural number per unit id, the same in every
frame and for every channel and remote address. Unsafe for a claim that two Positions of one unit id have the same
deviceId. -/
opaque Config.deviceId : Word → Nat

end Sys2Proof
end

