-- ==== Sys2Proof/Machine/HostActions.lean ====
section
/-! DEFINITION. The four host actions (`spec/70_reset_and_hazards.md` R182 to R185) and the registry's change of answers
(R151). -/

namespace Sys2Proof.Machine

/-- RESET (R182): every piece of the unit's state takes its reset value, at any time. The ROM, the registry, the host's
own turns and what it has read are not the unit's state and stay (log 13). -/
def hostReset (s : State) : State :=
  { State.reset with
    urom := s.urom, knownDevices := s.knownDevices, script := s.script, hostData := s.hostData,
    freeCount := s.freeCount }

/-- A frame of `n` bytes is no longer than FRAME_MAX (R183). The capacity is at least 70 (R5), which the first test says
so that it can be evaluated. -/
def fitsFrame (n : Nat) : Bool := if n ≤ 70 then true else decide (n ≤ Config.frameMax)

/-- LOAD(bytes, chan) (R183): refused, with no state change, while RUN = 1 or when the frame is longer than FRAME_MAX. -/
def hostLoad (bytes : List Byte) (chan : Bool) (s : State) : State :=
  if s.run then s
  else if fitsFrame bytes.length then
    { s with fb := s.fb.writeBytes 0 bytes, flen := BitVec.ofNat 16 bytes.length, chan := chan }
  else s

/-- START (R184): refused, with no state change, while RUN = 1. It is also the only way forward from a fault besides
RESET: the frame runs again from address 0 (R171). -/
def hostStart (s : State) : State :=
  if s.run then s
  else { s with f := fieldsCleared, pos := 0, upc := 0, ackv := false, result := 0, run := true }

/-- One bit as the number the host reads. -/
def bitValue (b : Bool) : Word := if b then 1 else 0

/-- The current value of an item (R185), zero-extended; `none` where it has no value: an invalid field register (U1), a
number that names no register, a byte of FB at FLEN or above or of AB above 27 (log 9). -/
def itemValue (item : ReadItem) (s : State) : Option Word :=
  match item with
  | .field r => readField r s
  | .pos => some (s.pos.setWidth 32)
  | .upc => some (s.upc.setWidth 32)
  | .flen => some (s.flen.setWidth 32)
  | .fb off => if off < s.flen.toNat then some ((s.fb.read off).setWidth 32) else none
  | .ab off => if off < 28 then some ((s.ab.read off).setWidth 32) else none
  | .cmdcnt => some (s.cmdcnt.setWidth 32)
  | .batsel => some (bitValue s.batsel)
  | .ackv => some (bitValue s.ackv)
  | .chan => some (bitValue s.chan)
  | .result => some (s.result.setWidth 32)
  | .run => some (bitValue s.run)
  | .done => some (bitValue s.done)

/-- RUN and DONE may be read at any time (R26, R185). -/
def readableWhileRunning : ReadItem → Bool
  | .run => true
  | .done => true
  | .field _ | .pos | .upc | .flen | .fb _ | .ab _ | .cmdcnt | .batsel | .ackv | .chan | .result => false

/-- READ(item) (R185): the current value, no state of the unit changes. While RUN = 1 anything but RUN and DONE returns no
defined value (R26, U4): a free value, one for each such read (log 8). -/
def hostRead (item : ReadItem) (s : State) : State :=
  if s.run && !readableWhileRunning item then
    { s with hostData := Config.undefinedRead s.freeCount, freeCount := s.freeCount + 1 }
  else { s with hostData := itemValue item s }

/-- A host action (R182 to R185). -/
def applyHost (a : HostAction) (s : State) : State :=
  match a with
  | .reset => hostReset s
  | .load bytes chan => hostLoad bytes chan s
  | .start => hostStart s
  | .read item => hostRead item s

/-- The host's turns after the first one is taken. -/
def setScript (rest : List HostTurn) (s : State) : State := { s with script := rest }

/-- The registry changes its answers between frame runs: the oracle is fixed for the duration of one frame (R5, R151), so a
change while RUN = 1 is refused (log 6). -/
def setRegistry (known : List Word) (s : State) : State :=
  if s.run then s else { s with knownDevices := known }

end Sys2Proof.Machine
end

