-- ==== Sys2Proof/Machine/Sequencer.lean ====
section
/-! DEFINITION. One step of the unit (`spec/70_reset_and_hazards.md` R188), and whose turn it is (log 7). -/

namespace Sys2Proof.Machine

/-- One step of the sequencer, when RUN = 1: fetch, decode, `IllegalOp` for an illegal word, else the micro-operation
(R188). -/
def sequencerStep (s : State) : StepResult :=
  match decode (fetch s) with
  | .legal i => exec i s
  | .illegal _ => .next (takeTrap .illegalOp s)

/-- The unit's own step: the sequencer's while RUN = 1. When RUN = 0 the unit has no step and its state stays (R188, R191;
log 11). -/
def unitStep (s : State) : StepResult :=
  if s.run then sequencerStep s else .next s

/-- One step of the unit with its host: the host's next turn, or the unit's own step (log 7). -/
def turnStep (s : State) : StepResult :=
  match s.script with
  | [] => unitStep s
  | .letStep :: rest => unitStep (setScript rest s)
  | .awaitDone :: rest => if s.run then sequencerStep s else .next (setScript rest s)
  | .act a :: rest => .next (applyHost a (setScript rest s))
  | .registry known :: rest => .next (setRegistry known (setScript rest s))

end Sys2Proof.Machine
end

