-- ==== Sys2Proof/Machine/Step.lean ====
section
/-! DEFINITION. The step function, and where the next step fetches its word. -/

namespace Sys2Proof.Machine

/-- One step (R188). -/
def step : State → Host.Outcome State Fault Refusal := turnStep

/-- The state in which the very next step fetches and runs the word `w`: the unit is running and UROM[UPC] holds it
(log 5). -/
def State.withFetchWord (s : State) (nbits w : Nat) : State :=
  placeWord (BitVec.ofNat 32 (w % 2 ^ nbits)) s

end Sys2Proof.Machine
end

