-- ==== Sys2Proof/Machine/HostSide.lean ====
section
/-! DEFINITION. The host's side of the contract (`spec/46_host_contract.md` R140 to R149), in exact numbers: what the host
makes of the field registers and of AB after a frame run. It is outside the unit (R4), no step uses it, and the
rounding of double precision is left out (U7; log 16). -/

namespace Sys2Proof.Machine

/-- The 127 listed reason codes (R148). -/
def listedReasons : List Nat :=
  [4, 5, 6, 7, 8, 11, 12, 13, 14, 19, 21, 22, 23, 25, 27, 31, 32, 33, 34, 35, 36, 37, 38, 40, 41, 42, 43, 44,
   45, 46, 47, 48] ++
  [49, 50, 51, 52, 53, 54, 55, 56, 57, 58, 59, 60, 61, 62, 63, 64, 65, 66, 67, 68, 69, 70, 71, 72, 73, 74, 75,
   76, 77, 78, 79, 80] ++
  [81, 82, 83, 84, 85, 87, 88, 89, 90, 91, 99, 100, 101, 104, 105, 106, 107, 108, 109, 110, 111, 112, 144,
   145, 150, 151, 152, 153, 154, 158, 159, 161] ++
  [162, 163, 190, 191, 192, 194, 199, 200, 201, 202, 203, 204, 205, 206, 207, 208, 209, 210, 211, 212, 213,
   232, 239, 245, 246, 247, 248, 252, 253, 254, 255]

/-- The reason-to-alarm mapper, total on a byte (R147, R148): an unlisted code has the one string, code 33 the one the
spec gives, and another listed code the host's parameter, a non-empty string. -/
def reasonString (code : Byte) : String :=
  if listedReasons.contains code.toNat then
    if code = 33#8 then "GPS Navigation Start"
    else String.singleton (Config.reasonHead code) ++ Config.reasonTail code
  else "Unrecognised cause"

/-- An angle in degrees as an exact rational multiple of 1/π: degrees = `timesPi` / π (R141 to R143). -/
structure Angle where
  timesPi : Rat
  deriving DecidableEq, Repr

/-- `signed(raw) * 180 / (π * 10^8)` degrees: longitude and latitude (R141, R142). -/
def angle8 (raw : Word) : Angle := ⟨(raw.toInt : Rat) * 180 / 10 ^ 8⟩

/-- `raw * 180 / (π * 10^3)` degrees: the course, unsigned (R143). -/
def angle3 (raw : Word) : Angle := ⟨(raw.toNat : Rat) * 180 / 10 ^ 3⟩

/-- `signed(ALT) * 0.01` metres (R144). -/
def altitudeMetres (raw : Word) : Rat := (raw.toInt : Rat) / 100

/-- `BATTERY * batteryConst`, the constant selected by BATSEL (R145). -/
def batteryValue (raw : Word) (batsel : Bool) : Rat :=
  (raw.toNat : Rat) * (if batsel then 5 / 256 else 121732 / 1000000)

/-- `signed(SPEED) * 0.01 * 1.9438444924406046` knots (R146). -/
def speedKnots (raw : Word) : Rat := (raw.toInt : Rat) / 100 * (19438444924406046 / 10 ^ 16)

/-- The six parts of the UTC instant, as read (R149): what the host does with invalid parts is open (U8). -/
structure Timestamp where
  year : Nat
  month : Nat
  day : Nat
  hour : Nat
  minute : Nat
  second : Nat
  deriving DecidableEq, Repr

/-- The Position record (R140). That deviceId is a natural number is the model's choice (log 17). -/
structure Position where
  deviceId : Nat
  valid : Bool
  latitude : Angle
  longitude : Angle
  altitude : Rat
  speed : Rat
  course : Angle
  timestamp : Timestamp
  hwVersion : Nat
  fwVersion : Nat
  protocolVersion : Nat
  status : Nat
  alarm : String
  mode : Nat
  io : Nat
  operator : Nat
  battery : Rat
  odometer : Nat
  gps : Nat
  locationStatus : Nat
  mode1 : Nat
  mode2 : Nat
  satellites : Nat
  deriving DecidableEq, Repr

/-- A field register as an unsigned number (R12). -/
def fieldNat (r : RegNum) (s : State) : Option Nat := (readField r s).map BitVec.toNat

/-- The timestamp's parts from F28 to F33 (R149). -/
def hostTimestamp (s : State) : Option Timestamp := do
  let second ← fieldNat 28 s
  let minute ← fieldNat 29 s
  let hour ← fieldNat 30 s
  let day ← fieldNat 31 s
  let month ← fieldNat 32 s
  let year ← fieldNat 33 s
  return { year, month, day, hour, minute, second }

/-- The Position the host builds from a stopped unit: only when RESULT = 1 (R140, R186 step 6). Its deviceId is a function
of UNITID alone, which is the model's choice (log 17). -/
def hostPosition (s : State) : Option Position :=
  if !s.run && decide (s.result = 1) then do
    let unitId ← readField 2 s
    let latitude ← readField 24 s
    let longitude ← readField 23 s
    let altitude ← readField 25 s
    let speed ← readField 26 s
    let course ← readField 27 s
    let timestamp ← hostTimestamp s
    let reason ← readField 12 s
    let battery ← readField 16 s
    return {
      deviceId := Config.deviceId unitId
      valid := true
      latitude := angle8 latitude
      longitude := angle8 longitude
      altitude := altitudeMetres altitude
      speed := speedKnots speed
      course := angle3 course
      timestamp := timestamp
      hwVersion := ← fieldNat 5 s
      fwVersion := ← fieldNat 6 s
      protocolVersion := ← fieldNat 7 s
      status := ← fieldNat 9 s
      alarm := reasonString (reason.setWidth 8)
      mode := ← fieldNat 13 s
      io := ← fieldNat 14 s
      operator := ← fieldNat 34 s
      battery := batteryValue battery s.batsel
      odometer := ← fieldNat 17 s
      gps := ← fieldNat 18 s
      locationStatus := ← fieldNat 19 s
      mode1 := ← fieldNat 20 s
      mode2 := ← fieldNat 21 s
      satellites := ← fieldNat 22 s }
  else none

/-- The 28 bytes the transport sends after a frame run, when ACKV = 1 (R150, R186 step 5); nothing is sent otherwise. -/
def hostAck (s : State) : Option (List Byte) :=
  if !s.run && s.ackv then some ((List.range 28).map fun a => s.ab.read a) else none

end Sys2Proof.Machine
end

