-- ==== Sys2Proof/Safety.lean ====
section
/-! DEFINITION. What claims say of a state and of two states: the invariant, and the parts of the state an action keeps. -/

namespace Sys2Proof.Machine

/-- What holds of the unit in every state the host and the sequencer can bring it to: FB and AB are canonical and inside
their sizes (R17, R18), FLEN is at most FRAME_MAX (R16), RESULT is not the reserved value 7 (R23), and while the sequencer
runs the cursor is inside the frame (R14; log 12) and no frame run has ended yet (R23). -/
structure State.Inv (s : State) : Prop where
  fbWf : s.fb.wf = true
  fbBelow : s.fb.below Config.frameMax = true
  abWf : s.ab.wf = true
  abBelow : s.ab.below 28 = true
  flenFits : s.flen.toNat ≤ Config.frameMax
  resultUsed : s.result ≠ 7
  posInFrame : s.run = true → s.pos.toNat ≤ s.flen.toNat
  resultClear : s.run = true → s.result = 0

/-- Every field register outside `written` reads as before, its valid bit included. -/
def FieldsKept (written : RegNum → Prop) (s t : State) : Prop :=
  ∀ r : RegNum, r.toNat ≤ 34 → ¬ written r → readField r t = readField r s

/-- Every byte of AB outside `stored` reads as before. -/
def AckKept (stored : Nat → Prop) (s t : State) : Prop :=
  ∀ a : Nat, ¬ stored a → t.ab.read a = s.ab.read a

/-- The inbound frame as the host loaded it: every byte of FB, FLEN and CHAN. -/
def FrameKept (s t : State) : Prop :=
  (∀ a : Nat, t.fb.read a = s.fb.read a) ∧ t.flen = s.flen ∧ t.chan = s.chan

/-- The registers that live as long as the connection: CMDCNT and BATSEL (R28). -/
def SessionKept (s t : State) : Prop := t.cmdcnt = s.cmdcnt ∧ t.batsel = s.batsel

/-- The status of the frame run: RUN, RESULT and ACKV. -/
def StatusKept (s t : State) : Prop := t.run = s.run ∧ t.result = s.result ∧ t.ackv = s.ackv

/-- What is no state of the unit: the ROM, the registry, the host's turns, what the host has read. -/
def OutsideKept (s t : State) : Prop :=
  t.urom = s.urom ∧ t.knownDevices = s.knownDevices ∧ t.script = s.script ∧ t.hostData = s.hostData ∧
    t.freeCount = s.freeCount

/-- No register is written. -/
def noField : RegNum → Prop := fun _ => False

/-- No byte is stored. -/
def noByte : Nat → Prop := fun _ => False

/-- The bytes `off` to `off + n - 1`. -/
def bytesAt (off n : Nat) : Nat → Prop := fun a => off ≤ a ∧ a < off + n

/-- The effect of taking a fault, as R163 lists it: RESULT and RUN are written, everything else keeps its value. -/
def FaultTaken (code : BitVec 3) (s t : State) : Prop :=
  t.result = code ∧ t.run = false ∧ t.upc = s.upc ∧ t.pos = s.pos ∧ FieldsKept noField s t ∧ AckKept noByte s t ∧
    FrameKept s t ∧ SessionKept s t ∧ t.ackv = s.ackv ∧ OutsideKept s t

/-- It is the sequencer's turn: RUN = 1, and the host has no turn pending, or waits for the end of the run, or lets one step
pass (R188; log 7). -/
def SequencerTurn (s : State) : Prop :=
  s.run = true ∧ (s.script = [] ∨ (∃ rest, s.script = .awaitDone :: rest) ∨ ∃ rest, s.script = .letStep :: rest)

/-- It is the host's turn, and this is its action (log 7). -/
def HostTurnIs (a : HostAction) (s : State) : Prop := ∃ rest, s.script = .act a :: rest

/-- A step takes a fault in each of the three kinds of the sequencer's turn; a turn in which the host lets one step pass is
over after it (log 7). -/
def StepTakesFault (code : BitVec 3) (s : State) : Prop :=
  (s.script = [] → ∃ t, step s = .next t ∧ FaultTaken code s t) ∧
    (∀ rest, s.script = .awaitDone :: rest → ∃ t, step s = .next t ∧ FaultTaken code s t) ∧
    (∀ rest, s.script = .letStep :: rest → ∃ t, step s = .next t ∧ FaultTaken code { s with script := rest } t)

/-- Everything but POS and UPC is kept, outside the registers `written` and the bytes `stored`. -/
def RestKept (written : RegNum → Prop) (stored : Nat → Prop) (s t : State) : Prop :=
  FieldsKept written s t ∧ AckKept stored s t ∧ FrameKept s t ∧ SessionKept s t ∧ StatusKept s t ∧ OutsideKept s t

/-- The one register a destination operand names; a write to F0 is discarded (R11). -/
def onlyField (fd : RegNum) : RegNum → Prop := fun r => r = fd ∧ r ≠ 0#6

/-- The byte count of a cursor micro-operation (R80). -/
def cursorBytes : Instr → Option Nat
  | .skip n => some n.toNat
  | .rdu8 _ | .rdi8 _ | .pku8 _ => some 1
  | .rdu16 _ => some 2
  | .rdu24 _ => some 3
  | .rdu32 _ | .rdi32 _ => some 4
  | .ext .. | .cat .. | .batsel .. | .abclr | .abi .. | .abb .. | .abw32 .. | .abcnt .. | .cksum .. | .emit | .beqi ..
  | .bnchan .. | .bnsess .. | .halt .. => none

/-- The field registers a micro-operation reads (R162). -/
def sourceFields : Instr → List RegNum
  | .ext _ fs _ _ => [fs]
  | .cat fd fs _ => [fd, fs]
  | .batsel fs => [fs]
  | .abb _ fs => [fs]
  | .abw32 _ fs => [fs]
  | .beqi fs _ _ => [fs]
  | .bnsess fs _ => [fs]
  | .skip .. | .rdu8 .. | .rdi8 .. | .rdu16 .. | .rdu24 .. | .rdu32 .. | .rdi32 .. | .pku8 .. | .abclr | .abi ..
  | .abcnt .. | .cksum .. | .emit | .bnchan .. | .halt .. => []

/-- The target of a branch (R110 to R112). -/
def branchTarget : Instr → Option RomIndex
  | .beqi _ _ target => some target
  | .bnchan target => some target
  | .bnsess _ target => some target
  | .skip .. | .rdu8 .. | .rdi8 .. | .rdu16 .. | .rdu24 .. | .rdu32 .. | .rdi32 .. | .pku8 .. | .ext .. | .cat ..
  | .batsel .. | .abclr | .abi .. | .abb .. | .abw32 .. | .abcnt .. | .cksum .. | .emit | .halt .. => none

/-- The unit at rest before a frame run over the ROM of R120: stopped, and no host turn pending. -/
def ReadyForFrame (s : State) : Prop :=
  s.run = false ∧ s.script = [] ∧ s.urom = microRom ∧ s.ab.wf = true

/-- Byte `a` of the acknowledgement for a unit id, counter, and packet number (R100, R108). -/
def ackByte (u : Word) (count packet : Byte) (a : Nat) : Byte :=
  match a with
  | 0 => 0x4D
  | 1 => 0x43
  | 2 => 0x47
  | 3 => 0x50
  | 4 => 0x04
  | 5 => BitVec.ofNat 8 u.toNat
  | 6 => BitVec.ofNat 8 (u.toNat / 256)
  | 7 => BitVec.ofNat 8 (u.toNat / 65536)
  | 8 => BitVec.ofNat 8 (u.toNat / 16777216)
  | 9 => count
  | 15 => packet
  | 27 => BitVec.ofNat 8 (4 + u.toNat + u.toNat / 256 + u.toNat / 65536 + u.toNat / 16777216 + count.toNat + packet.toNat)
  | _ => 0x00

/-- What a frame run does about the acknowledgement once the header is parsed (R129 case 3): built and counted when a
channel is present, nothing at all when it is absent (R125). -/
def AckOutcome (u : Word) (packet : Byte) (s t : State) : Prop :=
  if s.chan then
    (∀ a, a < 28 → t.ab.read a = ackByte u s.cmdcnt packet a) ∧ t.ackv = true ∧ t.cmdcnt = s.cmdcnt + 1
  else t.ab = s.ab ∧ t.ackv = false ∧ t.cmdcnt = s.cmdcnt

/-- The zero-extended byte at an offset of the loaded frame. -/
def frameU8 (s : State) (a : Nat) : Word := (s.fb.read a).setWidth 32

/-- The zero-extended little-endian 16-bit integer at an offset of the loaded frame. -/
def frameU16 (s : State) (a : Nat) : Word := (s.fb.read (a + 1) ++ s.fb.read a).setWidth 32

/-- The zero-extended little-endian 24-bit integer at an offset of the loaded frame. -/
def frameU24 (s : State) (a : Nat) : Word := (s.fb.read (a + 2) ++ s.fb.read (a + 1) ++ s.fb.read a).setWidth 32

/-- The little-endian 32-bit integer at an offset of the loaded frame. -/
def frameU32 (s : State) (a : Nat) : Word := s.fb.read (a + 3) ++ s.fb.read (a + 2) ++ s.fb.read (a + 1) ++ s.fb.read a

/-- The header registers after the header is parsed: TYPE, UNITID and PKTNUM (R121, R129 case 3). -/
def HeaderFields (packetAt : Nat) (s t : State) : Prop :=
  readField 1 t = some (frameU8 s 4) ∧ readField 2 t = some (frameU32 s 5) ∧
    readField 3 t = some ((s.fb.read packetAt).signExtend 32)

/-- The words that decode to `i` are the one word of R60's formula, and only when the operands are in their ranges. -/
def EncodedAs (i : Instr) (op ra rb rc imm : Nat) : Prop :=
  ∀ w : Word, decode w = .legal i ↔
    i.wf = true ∧ w.toNat = op * 2 ^ 26 + ra * 2 ^ 20 + rb * 2 ^ 14 + rc * 2 ^ 8 + imm

end Sys2Proof.Machine
end

