-- ==== Sys2Proof/Certificates/Slice0/Obligations.lean ====
section
/-! DEFINITION. The statements for the provers. What a statement says of a next state is read through `readField`, the
byte reads of FB and AB and the state's fields; `RestKept` and `FaultTaken` are the frames of `Sys2Proof/Safety.lean`. -/

open Sys2Proof Sys2Proof.Machine

/-- Decode and encode agree, for all 22 micro-operations and every operand the encoding admits (R60, R63 to R66). -/
def Obligations.EncodeThenDecodeGivesInstrBack : Prop :=
  ∀ i : Instr, i.wf = true → decode (encode i) = .legal i

/-- No bit of a legal word is ignored and no two legal words mean the same (R64, R66). -/
def Obligations.DecodedWordIsItsEncoding : Prop :=
  ∀ (w : Word) (i : Instr), decode w = .legal i → i.wf = true ∧ encode i = w

/-- Exactly the 42 unassigned op values make a word illegal for its op. (R65) -/
def Obligations.UnassignedOpsAreIllegal : Prop :=
  (∀ w : Word, decode w = .illegal .unassignedOp ↔
    (let op := w.toNat / 2 ^ 26
     op = 0x00 ∨ (0x09 ≤ op ∧ op ≤ 0x0F) ∨ (0x13 ≤ op ∧ op ≤ 0x1F) ∨ (0x27 ≤ op ∧ op ≤ 0x2F) ∨
       (0x34 ≤ op ∧ op ≤ 0x3F))) ∧
  (((List.range 64).filter fun op : Nat =>
    decide (op = 0x00 ∨ (0x09 ≤ op ∧ op ≤ 0x0F) ∨ (0x13 ≤ op ∧ op ≤ 0x1F) ∨ (0x27 ≤ op ∧ op ≤ 0x2F) ∨
       (0x34 ≤ op ∧ op ≤ 0x3F))).length = 42) ∧
  decode 0x00000000 = .illegal .unassignedOp ∧ decode 0xFFFFFFFF = .illegal .unassignedOp ∧
  ∀ k : Fin 64, 60 ≤ k.val → microRom.get k = 0x00000000

/-- The three encodings R69 works out bit by bit decode to their micro-operations and stand in the micro-ROM. -/
def Obligations.WorkedEncodingsDecode : Prop :=
  decode 0x18200000 = .legal (.rdu32 2) ∧ decode 0x95B11A00 = .legal (.cksum 27 4 26) ∧
  decode 0xC0114008 = .legal (.beqi 1 8 5) ∧ encode (.rdu32 2) = 0x18200000 ∧
  encode (.cksum 27 4 26) = 0x95B11A00 ∧ encode (.beqi 1 8 5) = 0xC0114008 ∧
  microRom.get 2 = 0x18200000 ∧ microRom.get 16 = 0x95B11A00 ∧ microRom.get 3 = 0xC0114008

/-- Every micro-ROM word below 60 is legal and every branch in it goes forward. (R114, R120, R128 (a) and (c)) -/
def Obligations.MicroRomWordsLegalAndBranchesForward : Prop :=
  ∀ k : Fin 64, k.val < 60 →
    ∃ i, decode (microRom.get k) = .legal i ∧ i.wf = true ∧
      ∀ target, branchTarget i = some target → k.val < target.toNat ∧ target.toNat < 60

/-- SKIP n advances POS by n, or for n from 1 takes ShortFrame (R81). SKIP 0 with POS above FLEN is log 12 and is not
spoken of. -/
def Obligations.SkipAdvancesCursor : Prop :=
  ∀ (n : Byte) (s : State),
    EncodedAs (.skip n) 0x01 0 0 0 n.toNat ∧
    (1 ≤ n.toNat → s.flen.toNat < s.pos.toNat + n.toNat → ∃ t, exec (.skip n) s = .next t ∧ FaultTaken 4 s t) ∧
    (s.pos.toNat + n.toNat ≤ s.flen.toNat →
      ∃ t, exec (.skip n) s = .next t ∧ t.pos.toNat = s.pos.toNat + n.toNat ∧ t.upc = s.upc + 1 ∧
        RestKept noField noByte s t)

/-- RDU8 reads 1 byte at the cursor into its register, or takes ShortFrame or IllegalOp. (R82) -/
def Obligations.Rdu8ReadsByte : Prop :=
  ∀ (fd : RegNum) (s : State),
    EncodedAs (.rdu8 fd) 0x02 fd.toNat 0 0 0 ∧
    (34 < fd.toNat → ∃ t, exec (.rdu8 fd) s = .next t ∧ FaultTaken 5 s t) ∧
    (fd.toNat ≤ 34 → s.flen.toNat < s.pos.toNat + 1 →
      ∃ t, exec (.rdu8 fd) s = .next t ∧ FaultTaken 4 s t) ∧
    (fd.toNat ≤ 34 → s.pos.toNat + 1 ≤ s.flen.toNat →
      ∃ t, exec (.rdu8 fd) s = .next t ∧
        (fd ≠ 0#6 → readField fd t = some (frameU8 s s.pos.toNat)) ∧ t.pos.toNat = s.pos.toNat + 1 ∧ t.upc = s.upc + 1 ∧
        RestKept (onlyField fd) noByte s t)

/-- RDI8 reads 1 byte at the cursor into its register, or takes ShortFrame or IllegalOp. (R83) -/
def Obligations.Rdi8SignExtendsByte : Prop :=
  ∀ (fd : RegNum) (s : State),
    EncodedAs (.rdi8 fd) 0x03 fd.toNat 0 0 0 ∧
    (34 < fd.toNat → ∃ t, exec (.rdi8 fd) s = .next t ∧ FaultTaken 5 s t) ∧
    (fd.toNat ≤ 34 → s.flen.toNat < s.pos.toNat + 1 →
      ∃ t, exec (.rdi8 fd) s = .next t ∧ FaultTaken 4 s t) ∧
    (fd.toNat ≤ 34 → s.pos.toNat + 1 ≤ s.flen.toNat →
      ∃ t, exec (.rdi8 fd) s = .next t ∧
        (fd ≠ 0#6 → readField fd t = some ((s.fb.read s.pos.toNat).signExtend 32)) ∧ t.pos.toNat = s.pos.toNat + 1 ∧ t.upc = s.upc + 1 ∧
        RestKept (onlyField fd) noByte s t)

/-- RDU16 reads 2 bytes at the cursor into its register, or takes ShortFrame or IllegalOp. (R84) -/
def Obligations.Rdu16ReadsLittleEndian : Prop :=
  ∀ (fd : RegNum) (s : State),
    EncodedAs (.rdu16 fd) 0x04 fd.toNat 0 0 0 ∧
    (34 < fd.toNat → ∃ t, exec (.rdu16 fd) s = .next t ∧ FaultTaken 5 s t) ∧
    (fd.toNat ≤ 34 → s.flen.toNat < s.pos.toNat + 2 →
      ∃ t, exec (.rdu16 fd) s = .next t ∧ FaultTaken 4 s t) ∧
    (fd.toNat ≤ 34 → s.pos.toNat + 2 ≤ s.flen.toNat →
      ∃ t, exec (.rdu16 fd) s = .next t ∧
        (fd ≠ 0#6 → readField fd t = some (frameU16 s s.pos.toNat)) ∧ t.pos.toNat = s.pos.toNat + 2 ∧ t.upc = s.upc + 1 ∧
        RestKept (onlyField fd) noByte s t)

/-- RDU24 reads 3 bytes at the cursor into its register, or takes ShortFrame or IllegalOp. (R85) -/
def Obligations.Rdu24ReadsLittleEndian : Prop :=
  ∀ (fd : RegNum) (s : State),
    EncodedAs (.rdu24 fd) 0x05 fd.toNat 0 0 0 ∧
    (34 < fd.toNat → ∃ t, exec (.rdu24 fd) s = .next t ∧ FaultTaken 5 s t) ∧
    (fd.toNat ≤ 34 → s.flen.toNat < s.pos.toNat + 3 →
      ∃ t, exec (.rdu24 fd) s = .next t ∧ FaultTaken 4 s t) ∧
    (fd.toNat ≤ 34 → s.pos.toNat + 3 ≤ s.flen.toNat →
      ∃ t, exec (.rdu24 fd) s = .next t ∧
        (fd ≠ 0#6 → readField fd t = some (frameU24 s s.pos.toNat)) ∧ t.pos.toNat = s.pos.toNat + 3 ∧ t.upc = s.upc + 1 ∧
        RestKept (onlyField fd) noByte s t)

/-- RDU32 reads 4 bytes at the cursor into its register, or takes ShortFrame or IllegalOp. (R86) -/
def Obligations.Rdu32ReadsLittleEndian : Prop :=
  ∀ (fd : RegNum) (s : State),
    EncodedAs (.rdu32 fd) 0x06 fd.toNat 0 0 0 ∧
    (34 < fd.toNat → ∃ t, exec (.rdu32 fd) s = .next t ∧ FaultTaken 5 s t) ∧
    (fd.toNat ≤ 34 → s.flen.toNat < s.pos.toNat + 4 →
      ∃ t, exec (.rdu32 fd) s = .next t ∧ FaultTaken 4 s t) ∧
    (fd.toNat ≤ 34 → s.pos.toNat + 4 ≤ s.flen.toNat →
      ∃ t, exec (.rdu32 fd) s = .next t ∧
        (fd ≠ 0#6 → readField fd t = some (frameU32 s s.pos.toNat)) ∧ t.pos.toNat = s.pos.toNat + 4 ∧ t.upc = s.upc + 1 ∧
        RestKept (onlyField fd) noByte s t)

/-- RDI32 reads 4 bytes at the cursor into its register, or takes ShortFrame or IllegalOp. (R87) -/
def Obligations.Rdi32ReadsSameBitsAsRdu32 : Prop :=
  ∀ (fd : RegNum) (s : State),
    EncodedAs (.rdi32 fd) 0x07 fd.toNat 0 0 0 ∧
    (34 < fd.toNat → ∃ t, exec (.rdi32 fd) s = .next t ∧ FaultTaken 5 s t) ∧
    (fd.toNat ≤ 34 → s.flen.toNat < s.pos.toNat + 4 →
      ∃ t, exec (.rdi32 fd) s = .next t ∧ FaultTaken 4 s t) ∧
    (fd.toNat ≤ 34 → s.pos.toNat + 4 ≤ s.flen.toNat →
      ∃ t, exec (.rdi32 fd) s = .next t ∧
        (fd ≠ 0#6 → readField fd t = some (frameU32 s s.pos.toNat)) ∧ t.pos.toNat = s.pos.toNat + 4 ∧ t.upc = s.upc + 1 ∧
        RestKept (onlyField fd) noByte s t)

/-- PKU8 reads 1 byte at the cursor into its register, or takes ShortFrame or IllegalOp. (R88) -/
def Obligations.Pku8PeeksWithoutAdvancing : Prop :=
  ∀ (fd : RegNum) (s : State),
    EncodedAs (.pku8 fd) 0x08 fd.toNat 0 0 0 ∧
    (34 < fd.toNat → ∃ t, exec (.pku8 fd) s = .next t ∧ FaultTaken 5 s t) ∧
    (fd.toNat ≤ 34 → s.flen.toNat < s.pos.toNat + 1 →
      ∃ t, exec (.pku8 fd) s = .next t ∧ FaultTaken 4 s t) ∧
    (fd.toNat ≤ 34 → s.pos.toNat + 1 ≤ s.flen.toNat →
      ∃ t, exec (.pku8 fd) s = .next t ∧
        (fd ≠ 0#6 → readField fd t = some (frameU8 s s.pos.toNat)) ∧ t.pos = s.pos ∧ t.upc = s.upc + 1 ∧
        RestKept (onlyField fd) noByte s t)

/-- EXT puts the zero-extended field lsb+w-1:lsb of its source into its destination, or takes its fault. (R90) -/
def Obligations.ExtExtractsBitField : Prop :=
  ∀ (fd fs : RegNum) (lsb : BitVec 6) (w : Byte) (s : State),
    EncodedAs (.ext fd fs lsb w) 0x10 fd.toNat fs.toNat lsb.toNat w.toNat ∧
    (34 < fd.toNat ∨ 34 < fs.toNat ∨ w.toNat = 0 ∨ 32 < w.toNat ∨ 31 < lsb.toNat ∨ 32 < lsb.toNat + w.toNat →
      ∃ t, exec (.ext fd fs lsb w) s = .next t ∧ FaultTaken 5 s t) ∧
    (fd.toNat ≤ 34 → fs.toNat ≤ 34 → 1 ≤ w.toNat → lsb.toNat ≤ 31 → lsb.toNat + w.toNat ≤ 32 →
      readField fs s = none → ∃ t, exec (.ext fd fs lsb w) s = .next t ∧ FaultTaken 6 s t) ∧
    (fd.toNat ≤ 34 → fs.toNat ≤ 34 → 1 ≤ w.toNat → lsb.toNat ≤ 31 → lsb.toNat + w.toNat ≤ 32 →
      ∀ v, readField fs s = some v →
        ∃ t, exec (.ext fd fs lsb w) s = .next t ∧
          (fd ≠ 0#6 → readField fd t = some (BitVec.ofNat 32 (v.toNat / 2 ^ lsb.toNat % 2 ^ w.toNat))) ∧
          t.pos = s.pos ∧ t.upc = s.upc + 1 ∧ RestKept (onlyField fd) noByte s t)

/-- CAT shifts its destination left by n and appends the low n bits of its source, or takes its fault. (R91) -/
def Obligations.CatShiftsAndAppends : Prop :=
  ∀ (fd fs : RegNum) (n : Byte) (s : State),
    EncodedAs (.cat fd fs n) 0x11 fd.toNat fs.toNat 0 n.toNat ∧
    (34 < fd.toNat ∨ 34 < fs.toNat ∨ n.toNat = 0 ∨ 31 < n.toNat →
      ∃ t, exec (.cat fd fs n) s = .next t ∧ FaultTaken 5 s t) ∧
    (fd.toNat ≤ 34 → fs.toNat ≤ 34 → 1 ≤ n.toNat → n.toNat ≤ 31 → readField fd s = none ∨ readField fs s = none →
      ∃ t, exec (.cat fd fs n) s = .next t ∧ FaultTaken 6 s t) ∧
    (fd.toNat ≤ 34 → fs.toNat ≤ 34 → 1 ≤ n.toNat → n.toNat ≤ 31 →
      ∀ d v, readField fd s = some d → readField fs s = some v →
        ∃ t, exec (.cat fd fs n) s = .next t ∧
          (fd ≠ 0#6 → readField fd t =
            some (BitVec.ofNat 32 (d.toNat * 2 ^ n.toNat % 2 ^ 32 + v.toNat % 2 ^ n.toNat))) ∧
          t.pos = s.pos ∧ t.upc = s.upc + 1 ∧ RestKept (onlyField fd) noByte s t)

/-- BATSEL writes 1 exactly when the low five bits of its source are 12, or takes its fault. (R92) -/
def Obligations.BatselSelectsTable : Prop :=
  ∀ (fs : RegNum) (s : State),
    EncodedAs (.batsel fs) 0x12 0 fs.toNat 0 0 ∧
    (34 < fs.toNat → ∃ t, exec (.batsel fs) s = .next t ∧ FaultTaken 5 s t) ∧
    (fs.toNat ≤ 34 → readField fs s = none → ∃ t, exec (.batsel fs) s = .next t ∧ FaultTaken 6 s t) ∧
    (fs.toNat ≤ 34 → ∀ v, readField fs s = some v →
      ∃ t, exec (.batsel fs) s = .next t ∧ (t.batsel = true ↔ v.toNat % 32 = 12) ∧ t.pos = s.pos ∧
        t.upc = s.upc + 1 ∧ t.cmdcnt = s.cmdcnt ∧ FieldsKept noField s t ∧ AckKept noByte s t ∧ FrameKept s t ∧
        StatusKept s t ∧ OutsideKept s t)

/-- ABCLR sets all 28 bytes of AB to 0x00 and changes nothing else but UPC. (R101) -/
def Obligations.AbclrClearsAckBuffer : Prop :=
  EncodedAs .abclr 0x20 0 0 0 0 ∧
  ∀ s : State, s.ab.wf = true →
    ∃ t, exec .abclr s = .next t ∧ (∀ a, a < 28 → t.ab.read a = 0x00) ∧ t.pos = s.pos ∧ t.upc = s.upc + 1 ∧
      RestKept noField (bytesAt 0 28) s t

/-- ABI stores its immediate byte at AB[off], or takes IllegalOp. (R102) -/
def Obligations.AbiStoresImmediate : Prop :=
  ∀ (off : AbOff) (byte : Byte) (s : State),
    EncodedAs (.abi off byte) 0x21 off.toNat 0 0 byte.toNat ∧
    (27 < off.toNat → ∃ t, exec (.abi off byte) s = .next t ∧ FaultTaken 5 s t) ∧
    (off.toNat ≤ 27 → s.ab.wf = true →
      ∃ t, exec (.abi off byte) s = .next t ∧ t.ab.read off.toNat = byte ∧ t.pos = s.pos ∧ t.upc = s.upc + 1 ∧
        RestKept noField (bytesAt off.toNat 1) s t)

/-- ABB stores the low byte of a register at AB[off], or takes its fault. (R103) -/
def Obligations.AbbStoresLowByte : Prop :=
  ∀ (off : AbOff) (fs : RegNum) (s : State),
    EncodedAs (.abb off fs) 0x22 off.toNat fs.toNat 0 0 ∧
    (27 < off.toNat ∨ 34 < fs.toNat → ∃ t, exec (.abb off fs) s = .next t ∧ FaultTaken 5 s t) ∧
    (off.toNat ≤ 27 → fs.toNat ≤ 34 → readField fs s = none →
      ∃ t, exec (.abb off fs) s = .next t ∧ FaultTaken 6 s t) ∧
    (off.toNat ≤ 27 → fs.toNat ≤ 34 → s.ab.wf = true → ∀ v, readField fs s = some v →
      ∃ t, exec (.abb off fs) s = .next t ∧ (t.ab.read off.toNat).toNat = v.toNat % 256 ∧ t.pos = s.pos ∧
        t.upc = s.upc + 1 ∧ RestKept noField (bytesAt off.toNat 1) s t)

/-- ABW32 stores a register at AB[off..off+3] little-endian, or takes its fault. (R106) -/
def Obligations.Abw32StoresLittleEndian : Prop :=
  ∀ (off : AbOff) (fs : RegNum) (s : State),
    EncodedAs (.abw32 off fs) 0x23 off.toNat fs.toNat 0 0 ∧
    (24 < off.toNat ∨ 34 < fs.toNat → ∃ t, exec (.abw32 off fs) s = .next t ∧ FaultTaken 5 s t) ∧
    (off.toNat ≤ 24 → fs.toNat ≤ 34 → readField fs s = none →
      ∃ t, exec (.abw32 off fs) s = .next t ∧ FaultTaken 6 s t) ∧
    (off.toNat ≤ 24 → fs.toNat ≤ 34 → s.ab.wf = true → ∀ v, readField fs s = some v →
      ∃ t, exec (.abw32 off fs) s = .next t ∧
        (∀ k, k < 4 → (t.ab.read (off.toNat + k)).toNat = v.toNat / 256 ^ k % 256) ∧ t.pos = s.pos ∧
        t.upc = s.upc + 1 ∧ RestKept noField (bytesAt off.toNat 4) s t)

/-- ABCNT stores the counter before the increment at AB[off] and increments it modulo 256, or takes IllegalOp. (R104) -/
def Obligations.AbcntStoresThenIncrements : Prop :=
  (∀ (off : AbOff) (s : State),
    EncodedAs (.abcnt off) 0x24 off.toNat 0 0 0 ∧
    (27 < off.toNat → ∃ t, exec (.abcnt off) s = .next t ∧ FaultTaken 5 s t) ∧
    (off.toNat ≤ 27 → s.ab.wf = true →
      ∃ t, exec (.abcnt off) s = .next t ∧ t.ab.read off.toNat = s.cmdcnt ∧
        t.cmdcnt.toNat = (s.cmdcnt.toNat + 1) % 256 ∧ t.batsel = s.batsel ∧ t.pos = s.pos ∧ t.upc = s.upc + 1 ∧
        FieldsKept noField s t ∧ AckKept (bytesAt off.toNat 1) s t ∧ FrameKept s t ∧ StatusKept s t ∧
        OutsideKept s t)) ∧
  ∀ (i : Instr) (s t : State) (c : BitVec 8), (∀ off, i ≠ .abcnt off) → exec i s = .next t →
    t.cmdcnt = s.cmdcnt ∧ exec i { s with cmdcnt := c } = .next { t with cmdcnt := c }

/-- CKSUM stores the sum modulo 256 of AB[lo] to AB[hi] as they stand before, or takes IllegalOp. (R105) -/
def Obligations.CksumStoresModularSum : Prop :=
  ∀ (dst lo hi : AbOff) (s : State),
    EncodedAs (.cksum dst lo hi) 0x25 dst.toNat lo.toNat hi.toNat 0 ∧
    (27 < dst.toNat ∨ 27 < hi.toNat ∨ hi.toNat < lo.toNat →
      ∃ t, exec (.cksum dst lo hi) s = .next t ∧ FaultTaken 5 s t) ∧
    (dst.toNat ≤ 27 → hi.toNat ≤ 27 → lo.toNat ≤ hi.toNat → s.ab.wf = true →
      ∃ t, exec (.cksum dst lo hi) s = .next t ∧
        (t.ab.read dst.toNat).toNat = (∑ i ∈ Finset.Icc lo.toNat hi.toNat, (s.ab.read i).toNat) % 256 ∧
        t.pos = s.pos ∧ t.upc = s.upc + 1 ∧ RestKept noField (bytesAt dst.toNat 1) s t)

/-- EMIT sets ACKV and changes nothing else but UPC. (R107) -/
def Obligations.EmitSetsAckv : Prop :=
  EncodedAs .emit 0x26 0 0 0 0 ∧
  ∀ s : State, ∃ t, exec .emit s = .next t ∧ t.ackv = true ∧ t.run = s.run ∧ t.result = s.result ∧ t.pos = s.pos ∧
    t.upc = s.upc + 1 ∧ FieldsKept noField s t ∧ AckKept noByte s t ∧ FrameKept s t ∧ SessionKept s t ∧
    OutsideKept s t

/-- BEQI branches exactly when all 32 bits equal the zero-extended immediate, or takes its fault. (R110) -/
def Obligations.BeqiComparesAllBits : Prop :=
  ∀ (fs : RegNum) (value : Byte) (target : RomIndex) (s : State),
    EncodedAs (.beqi fs value target) 0x30 fs.toNat target.toNat 0 value.toNat ∧
    (34 < fs.toNat → ∃ t, exec (.beqi fs value target) s = .next t ∧ FaultTaken 5 s t) ∧
    (fs.toNat ≤ 34 → readField fs s = none → ∃ t, exec (.beqi fs value target) s = .next t ∧ FaultTaken 6 s t) ∧
    (fs.toNat ≤ 34 → ∀ v, readField fs s = some v →
      ∃ t, exec (.beqi fs value target) s = .next t ∧
        t.upc = (if v.toNat = value.toNat then target else s.upc + 1) ∧ t.pos = s.pos ∧
        RestKept noField noByte s t)

/-- BNCHAN branches exactly when CHAN is 0. (R111) -/
def Obligations.BnchanBranchesWithoutChannel : Prop :=
  ∀ (target : RomIndex) (s : State),
    EncodedAs (.bnchan target) 0x31 0 target.toNat 0 0 ∧
    ∃ t, exec (.bnchan target) s = .next t ∧ t.upc = (if s.chan = false then target else s.upc + 1) ∧
      t.pos = s.pos ∧ RestKept noField noByte s t

/-- BNSESS branches exactly when the session oracle does not know the unit id, or takes its fault. (R112) -/
def Obligations.BnsessAsksOracle : Prop :=
  ∀ (fs : RegNum) (target : RomIndex) (s : State),
    EncodedAs (.bnsess fs target) 0x32 fs.toNat target.toNat 0 0 ∧
    (34 < fs.toNat → ∃ t, exec (.bnsess fs target) s = .next t ∧ FaultTaken 5 s t) ∧
    (fs.toNat ≤ 34 → readField fs s = none → ∃ t, exec (.bnsess fs target) s = .next t ∧ FaultTaken 6 s t) ∧
    (fs.toNat ≤ 34 → ∀ u, readField fs s = some u →
      ∃ t, exec (.bnsess fs target) s = .next t ∧
        (u ∈ s.knownDevices → t.upc = s.upc + 1) ∧ (u ∉ s.knownDevices → t.upc = target) ∧ t.pos = s.pos ∧
        RestKept noField noByte s t)

/-- HALT writes its code into RESULT and clears RUN, UPC kept, or takes IllegalOp (R113). That a step of the stopped
unit answers the same state is the model's choice (log 11). -/
def Obligations.HaltEndsRun : Prop :=
  ∀ (code : Byte) (s : State),
    EncodedAs (.halt code) 0x33 0 0 0 code.toNat ∧
    (code.toNat = 0 ∨ 3 < code.toNat → ∃ t, exec (.halt code) s = .next t ∧ FaultTaken 5 s t) ∧
    (1 ≤ code.toNat → code.toNat ≤ 3 →
      ∃ t, exec (.halt code) s = .next t ∧ t.result.toNat = code.toNat ∧ t.run = false ∧ t.done = true ∧
        t.upc = s.upc ∧ t.pos = s.pos ∧ t.ackv = s.ackv ∧ FieldsKept noField s t ∧ AckKept noByte s t ∧
        FrameKept s t ∧ SessionKept s t ∧ OutsideKept s t ∧ (s.script = [] → step t = .next t))

/-- A legal cursor micro-operation of byte count 1 or more that would pass FLEN takes ShortFrame, and no other micro-
operation does (R160). SKIP 0 needs 0 bytes: with POS at most FLEN (log 12) it does not fault. -/
def Obligations.CursorPastEndTakesShortFrame : Prop :=
  (∀ (i : Instr) (k : Nat) (s : State), i.wf = true → cursorBytes i = some k → 1 ≤ k →
    s.flen.toNat < s.pos.toNat + k →
    ∃ t, exec i s = .next t ∧ FaultTaken 4 s t) ∧
  (∀ s : State, s.pos.toNat ≤ s.flen.toNat → ∃ t, exec (.skip 0) s = .next t ∧ t.run = s.run ∧ t.result = s.result) ∧
  (∀ (i : Instr) (s t : State), cursorBytes i = none → exec i s = .next t → t.result = 4 → s.result = 4)

/-- A legal micro-operation with an invalid source register takes UnwrittenField, and F0 is never invalid. (R162) -/
def Obligations.UnwrittenSourceTakesUnwrittenField : Prop :=
  (∀ (i : Instr) (r : RegNum) (s : State), i.wf = true → r ∈ sourceFields i → readField r s = none →
    ∃ t, exec i s = .next t ∧ FaultTaken 6 s t) ∧
  (∀ s : State, readField 0#6 s = some 0) ∧
  (∀ (i : Instr) (s t : State), sourceFields i = [] → exec i s = .next t → t.result = 6 → s.result = 6)

/-- A micro-operation with an operand out of range takes IllegalOp before any other fault (R66, R161, R170): the step at
its word does, and so does exec of the term, which the decoder never gives (log 14). -/
def Obligations.IllegalOperandTakesIllegalOpFirst : Prop :=
  ∀ (i : Instr) (s : State), i.wf = false →
    (∃ t, exec i s = .next t ∧ FaultTaken 5 s t) ∧ decode (encode i) = .illegal .operandRange ∧
    (s.run = true → s.urom.get s.upc.toFin = encode i → StepTakesFault 5 s)

/-- When the word at UPC is illegal the step takes IllegalOp and changes nothing else. (R161) -/
def Obligations.IllegalWordTakesIllegalOp : Prop :=
  ∀ s : State, s.run = true → (∀ i, decode (s.urom.get s.upc.toFin) ≠ .legal i) → StepTakesFault 5 s

/-- A step of a running unit executes the micro-operation that the word at UPC decodes to. (R188, R48) -/
def Obligations.StepRunsTheDecodedInstr : Prop :=
  ∀ (s : State) (i : Instr), s.run = true → decode (s.urom.get s.upc.toFin) = .legal i →
    (s.script = [] → step s = exec i s) ∧
    (∀ rest, s.script = .awaitDone :: rest → step s = exec i s) ∧
    (∀ rest, s.script = .letStep :: rest → step s = exec i { s with script := rest })

/-- R188: when RUN = 0 the unit has no step. That the model's total step function answers the same state is its choice
(log 11). -/
def Obligations.StoppedUnitKeepsItsState : Prop :=
  ∀ s : State, s.run = false → s.script = [] → step s = .next s

/-- Every step from every state answers a next state, whatever the ROM holds (R161, R169, R188). For RUN = 0 that is the
model's choice (log 11), and that nothing faults or is refused is its reading (log 10). -/
def Obligations.EveryStepAnswersNext : Prop :=
  ∀ s : State, ∃ t, step s = .next t

/-- The invariant of R14 (while RUN = 1; log 12), R16, R17, R18, R21 and R23 is kept by every step, the host's turns
included. -/
def Obligations.StepKeepsInv : Prop :=
  ∀ s t : State, s.Inv → step s = .next t → t.Inv

/-- The state after reset has the invariant. (R27, R181) -/
def Obligations.ResetHasInv : Prop :=
  State.reset.Inv

/-- No step writes the micro-ROM, and after reset it is the listing of R120. -/
def Obligations.UromIsNeverWritten : Prop :=
  (∀ s t : State, step s = .next t → t.urom = s.urom) ∧ State.reset.urom = microRom

/-- No micro-operation writes FB, FLEN, CHAN, the registry or the host's turns. (R26, R167) -/
def Obligations.SequencerCannotWriteInputs : Prop :=
  ∀ (i : Instr) (s t : State), exec i s = .next t → t.fb = s.fb ∧ t.flen = s.flen ∧ t.chan = s.chan ∧ OutsideKept s t

/-- No micro-operation moves the cursor back or past the end of the frame, and only a cursor micro-operation moves it.
(R14, R89 (a), (b), (c)) -/
def Obligations.CursorMovesForwardInsideFrame : Prop :=
  ∀ (i : Instr) (s t : State), s.pos.toNat ≤ s.flen.toNat → exec i s = .next t →
    s.pos.toNat ≤ t.pos.toNat ∧ t.pos.toNat ≤ t.flen.toNat ∧
    (cursorBytes i = none → t.pos = s.pos) ∧
    (∀ k, cursorBytes i = some k → t.pos = s.pos ∨ t.pos.toNat = s.pos.toNat + k)

/-- What a cursor read writes depends only on the bytes it reads. (R89 (d), R44) -/
def Obligations.ReadDependsOnlyOnItsBytes : Prop :=
  ∀ (i : Instr) (fd : RegNum) (k : Nat) (s s' : State),
    i ∈ [Instr.rdu8 fd, .rdi8 fd, .rdu16 fd, .rdu24 fd, .rdu32 fd, .rdi32 fd, .pku8 fd] →
    cursorBytes i = some k → fd.toNat ≤ 34 → fd ≠ 0#6 → s'.pos = s.pos →
    s.pos.toNat + k ≤ s.flen.toNat → s'.pos.toNat + k ≤ s'.flen.toNat →
    (∀ j, j < k → s'.fb.read (s.pos.toNat + j) = s.fb.read (s.pos.toNat + j)) →
    ∃ t t' v, exec i s = .next t ∧ exec i s' = .next t' ∧ readField fd t = some v ∧ readField fd t' = some v

/-- Per step, CMDCNT changes only by ABCNT or RESET, BATSEL only by BATSEL or RESET, ACKV only by EMIT, START or RESET.
(R19, R20, R21, R28) -/
def Obligations.ConnectionStateWriters : Prop :=
  (∀ s t : State, step s = .next t →
    (t.cmdcnt ≠ s.cmdcnt → HostTurnIs .reset s ∨
      (SequencerTurn s ∧ ∃ off, decode (s.urom.get s.upc.toFin) = .legal (.abcnt off))) ∧
    (t.batsel ≠ s.batsel → HostTurnIs .reset s ∨
      (SequencerTurn s ∧ ∃ fs, decode (s.urom.get s.upc.toFin) = .legal (.batsel fs))) ∧
    (t.ackv ≠ s.ackv → HostTurnIs .reset s ∨ HostTurnIs .start s ∨
      (SequencerTurn s ∧ decode (s.urom.get s.upc.toFin) = .legal .emit))) ∧
  (∀ (i : Instr) (s t : State), exec i s = .next t →
    (t.cmdcnt ≠ s.cmdcnt → ∃ off, i = .abcnt off) ∧ (t.batsel ≠ s.batsel → ∃ fs, i = .batsel fs) ∧
    (t.ackv ≠ s.ackv → i = .emit)) ∧
  (∀ (a : HostAction) (s : State), a ≠ .reset →
    SessionKept s (applyHost a s) ∧ (a ≠ .start → (applyHost a s).ackv = s.ackv)) ∧
  (∀ (known : List Word) (s : State), SessionKept s (setRegistry known s) ∧ (setRegistry known s).ackv = s.ackv)

/-- A micro-operation that ends a run is HALT or takes a fault, with a RESULT from 1 to 6. (R163, R164, R21) -/
def Obligations.RunEndsWithOneOfSixCodes : Prop :=
  ∀ (i : Instr) (s t : State), s.run = true → exec i s = .next t → t.run = false →
    t.upc = s.upc ∧ t.pos = s.pos ∧
    ((∃ code : Byte, i = .halt code ∧ 1 ≤ code.toNat ∧ code.toNat ≤ 3 ∧ t.result.toNat = code.toNat) ∨
      t.result = 4 ∨ t.result = 5 ∨ t.result = 6)

/-- After a micro-operation UPC is the branch target, or unchanged with the run ended, or one more modulo 64. (R15) -/
def Obligations.UpcAdvancesByOneOrBranches : Prop :=
  ∀ (i : Instr) (s t : State), exec i s = .next t →
    (t.run = false ∧ t.upc = s.upc) ∨
    (t.run = s.run ∧ t.result = s.result ∧
      (t.upc.toNat = (s.upc.toNat + 1) % 64 ∨ branchTarget i = some t.upc))

/-- No micro-operation, LOAD or READ clears a valid bit. (R13) -/
def Obligations.ValidBitsAreOnlySet : Prop :=
  (∀ (i : Instr) (r : RegNum) (s t : State), exec i s = .next t → fieldValid r s = true → fieldValid r t = true) ∧
  (∀ (a : HostAction) (r : RegNum) (s : State), a ≠ .reset → a ≠ .start → fieldValid r s = true →
    fieldValid r (applyHost a s) = true)

/-- RESET, at any time, gives every piece of state its reset value. (R182) -/
def Obligations.HostResetGivesResetValues : Prop :=
  (∀ (s : State) (rest : List HostTurn), s.script = .act .reset :: rest →
    ∃ t, step s = .next t ∧ t.cmdcnt = 0 ∧ t.batsel = false ∧ t.run = false ∧ t.ackv = false ∧ t.result = 0 ∧
      t.pos = 0 ∧ t.upc = 0 ∧ t.flen = 0 ∧ t.chan = false ∧ t.fvalid = 0x000000001#35 ∧
      (∀ r : RegNum, r ≠ 0#6 → readField r t = none) ∧ (∀ a, t.ab.read a = 0x00) ∧ t.done = false ∧
      (∀ a, itemValue (.fb a) t = none) ∧ t.urom = s.urom) ∧
  (State.reset.cmdcnt = 0 ∧ State.reset.batsel = false ∧ State.reset.run = false ∧ State.reset.ackv = false ∧
    State.reset.result = 0 ∧ State.reset.pos = 0 ∧ State.reset.upc = 0 ∧ State.reset.flen = 0 ∧
    State.reset.chan = false ∧ State.reset.fvalid = 0x000000001#35 ∧
    (∀ r : RegNum, r ≠ 0#6 → readField r State.reset = none) ∧ (∀ a, State.reset.ab.read a = 0x00) ∧
    State.reset.done = false ∧ ∀ a, itemValue (.fb a) State.reset = none)

/-- LOAD writes the frame, FLEN and CHAN while RUN = 0, and is refused while RUN = 1 or above FRAME_MAX. (R183) -/
def Obligations.HostLoadWritesFrame : Prop :=
  ∀ (s : State) (bytes : List Byte) (chan : Bool) (rest : List HostTurn),
    s.script = .act (.load bytes chan) :: rest →
    (s.run = false → bytes.length ≤ Config.frameMax → s.fb.wf = true →
      ∃ t, step s = .next t ∧ (∀ (k : Nat) (hk : k < bytes.length), t.fb.read k = bytes[k]) ∧
        (∀ a, bytes.length ≤ a → t.fb.read a = s.fb.read a) ∧ t.flen.toNat = bytes.length ∧ t.chan = chan ∧
        t.pos = s.pos ∧ t.upc = s.upc ∧ FieldsKept noField s t ∧ AckKept noByte s t ∧ SessionKept s t ∧
        StatusKept s t ∧ OutsideKept { s with script := rest } t) ∧
    (s.run = true ∨ Config.frameMax < bytes.length → step s = .next { s with script := rest })

/-- START invalidates F1 to F34, zeroes POS, UPC, ACKV and RESULT and sets RUN, and is refused while RUN = 1. (R184) -/
def Obligations.HostStartBeginsRun : Prop :=
  ∀ (s : State) (rest : List HostTurn), s.script = .act .start :: rest →
    (s.run = false →
      ∃ t, step s = .next t ∧ t.fvalid = 0x000000001#35 ∧ (∀ r : RegNum, r ≠ 0#6 → readField r t = none) ∧
        t.pos = 0 ∧ t.upc = 0 ∧ t.ackv = false ∧ t.result = 0 ∧ t.run = true ∧ t.done = false ∧
        AckKept noByte s t ∧ FrameKept s t ∧ SessionKept s t ∧ OutsideKept { s with script := rest } t) ∧
    (s.run = true → step s = .next { s with script := rest })

/-- READ returns the current value and changes no state of the unit. (R185) -/
def Obligations.HostReadReturnsAndChangesNothing : Prop :=
  ∀ (s : State) (item : ReadItem) (rest : List HostTurn), s.script = .act (.read item) :: rest →
    ∃ t, step s = .next t ∧
      { t with hostData := s.hostData, freeCount := s.freeCount } = { s with script := rest } ∧
      (item = .run → t.hostData = some (if s.run then 1 else 0)) ∧
      (item = .done → t.hostData = some (if s.run = false ∧ s.result ≠ 0 then 1 else 0)) ∧
      (s.run = false →
        (∀ r, item = .field r → t.hostData = readField r s) ∧
        (item = .pos → t.hostData = some (BitVec.ofNat 32 s.pos.toNat)) ∧
        (item = .upc → t.hostData = some (BitVec.ofNat 32 s.upc.toNat)) ∧
        (item = .flen → t.hostData = some (BitVec.ofNat 32 s.flen.toNat)) ∧
        (∀ a, item = .fb a → a < s.flen.toNat → t.hostData = some (BitVec.ofNat 32 (s.fb.read a).toNat)) ∧
        (∀ a, item = .ab a → a < 28 → t.hostData = some (BitVec.ofNat 32 (s.ab.read a).toNat)) ∧
        (item = .cmdcnt → t.hostData = some (BitVec.ofNat 32 s.cmdcnt.toNat)) ∧
        (item = .batsel → t.hostData = some (if s.batsel then 1 else 0)) ∧
        (item = .ackv → t.hostData = some (if s.ackv then 1 else 0)) ∧
        (item = .chan → t.hostData = some (if s.chan then 1 else 0)) ∧
        (item = .result → t.hostData = some (BitVec.ofNat 32 s.result.toNat)))

/-- EXT OPER, OPHI, 4, 4 then CAT OPER, OPMID, 8 then CAT OPER, OPLO, 8 gives the document's operator. (R93) -/
def Obligations.OperatorIsComposedOfThreeBytes : Prop :=
  ∀ (s : State) (hi mid lo : Word), hi.toNat < 256 → mid.toNat < 256 → lo.toNat < 256 →
    readField 10 s = some hi → readField 11 s = some mid → readField 15 s = some lo →
    ∃ t1 t2 t3 v, exec (.ext 34 10 4 4) s = .next t1 ∧ exec (.cat 34 11 8) t1 = .next t2 ∧
      exec (.cat 34 15 8) t2 = .next t3 ∧ readField 34 t3 = some v ∧
      v = ((((hi &&& 0xF0) <<< 4) ||| mid) <<< 8 ||| lo) ∧
      v.toNat = hi.toNat / 16 * 65536 + mid.toNat * 256 + lo.toNat ∧ v.toNat < 2 ^ 20

/-- PKU8 PEEK, EXT STATUS, PEEK, 0, 4, RDU8 OPHI at one position split one byte into status nibble and operator byte.
(R94) -/
def Obligations.StatusNibbleIsPeekedByte : Prop :=
  ∀ s : State, s.pos.toNat + 1 ≤ s.flen.toNat →
    ∃ t1 t2 t3, exec (.pku8 8) s = .next t1 ∧ exec (.ext 9 8 0 4) t1 = .next t2 ∧ exec (.rdu8 10) t2 = .next t3 ∧
      readField 9 t3 = some (BitVec.ofNat 32 ((s.fb.read s.pos.toNat).toNat % 16)) ∧
      readField 10 t3 = some (frameU8 s s.pos.toNat) ∧ t3.pos.toNat = s.pos.toNat + 1

/-- R108 and R124: the acknowledgement routine of the micro-ROM, a constant of the hardware (R120). -/
def Obligations.AckRoutineBuildsAcknowledgement : Prop :=
  ∀ (s : State) (u p : Word), s.run = true → s.script = [] → s.urom = microRom → s.ab.wf = true → s.upc = 7 →
    readField 2 s = some u → readField 3 s = some p →
    ∃ t, Host.Core.run Sys2Proof.core 11 s = .next t ∧ t.upc = 18 ∧ t.run = true ∧ t.result = s.result ∧
      (∀ a, a < 28 → t.ab.read a = ackByte u s.cmdcnt (p.setWidth 8) a) ∧ t.cmdcnt = s.cmdcnt + 1 ∧ t.ackv = true ∧
      t.pos = s.pos ∧ t.batsel = s.batsel ∧ FieldsKept noField s t ∧ FrameKept s t

/-- R127, R128: the fixed micro-program, a constant of the hardware (R120), always ends, and never by IllegalOp or
UnwrittenField. The steps left over after the end of the run change nothing, which is the model's choice (log 11). -/
def Obligations.FrameRunEndsWithin58Steps : Prop :=
  ∀ s : State, ReadyForFrame s →
    ∃ t, Host.Core.run Sys2Proof.core 58 (hostStart s) = .next t ∧ t.run = false ∧
      (t.result = 1 ∨ t.result = 2 ∨ t.result = 3 ∨ t.result = 4) ∧ FrameKept s t

/-- A frame too short for its header ends with ShortFrame, unacknowledged (R129 (cases 1 and 2), R124, R131 (header
rows)). The steps left over after the end of the run change nothing, which is the model's choice (log 11). -/
def Obligations.FrameRunShortHeader : Prop :=
  ∀ s : State, ReadyForFrame s →
    (s.flen.toNat < 5 ∨ s.flen.toNat < (if s.fb.read 4 = 8 then 10 else 12)) →
    ∃ t, Host.Core.run Sys2Proof.core 58 (hostStart s) = .next t ∧ t.run = false ∧ t.result = 4 ∧ t.ackv = false ∧
      SessionKept s t ∧ t.ab = s.ab ∧ FrameKept s t ∧
      readField 1 t = (if 5 ≤ s.flen.toNat then some (frameU8 s 4) else none) ∧
      readField 2 t = (if 9 ≤ s.flen.toNat then some (frameU32 s 5) else none) ∧
      (∀ r : RegNum, 3 ≤ r.toNat → readField r t = none) ∧
      (s.flen.toNat ≤ 3 → t.upc = 0 ∧ t.pos = 0) ∧
      (s.flen.toNat = 4 → t.upc = 1 ∧ t.pos = 4) ∧
      (5 ≤ s.flen.toNat → s.flen.toNat ≤ 8 → t.upc = 2 ∧ t.pos = 5) ∧
      (s.fb.read 4 = 8 → s.flen.toNat = 9 → t.upc = 5 ∧ t.pos = 9) ∧
      (s.fb.read 4 ≠ 8 → 9 ≤ s.flen.toNat → s.flen.toNat ≤ 10 → t.upc = 4 ∧ t.pos = 9) ∧
      (s.fb.read 4 ≠ 8 → s.flen.toNat = 11 → t.upc = 5 ∧ t.pos = 11)

/-- A frame of a type other than 0 is acknowledged when a channel is present and ends with RESULT 2 (R129 (cases 3 and
4), R122, R124, R125). The steps left over after the end of the run change nothing, which is the model's choice (log
11). -/
def Obligations.FrameRunOtherTypeIsAcknowledged : Prop :=
  ∀ s : State, ReadyForFrame s → s.fb.read 4 ≠ 0 →
    (if s.fb.read 4 = 8 then 10 else 12) ≤ s.flen.toNat →
    ∃ t, Host.Core.run Sys2Proof.core 58 (hostStart s) = .next t ∧ t.run = false ∧ t.result = 2 ∧ t.upc = 19 ∧
      t.pos.toNat = (if s.fb.read 4 = 8 then 10 else 12) ∧
      AckOutcome (frameU32 s 5) (s.fb.read (if s.fb.read 4 = 8 then 9 else 11)) s t ∧
      HeaderFields (if s.fb.read 4 = 8 then 9 else 11) s t ∧
      (∀ r : RegNum, 4 ≤ r.toNat → readField r t = none) ∧ t.batsel = s.batsel ∧ FrameKept s t

/-- A status frame of an unknown device is acknowledged when a channel is present and ends with RESULT 3 (R129 (cases 3
and 5), R124, R125). The steps left over after the end of the run change nothing, which is the model's choice (log
11). -/
def Obligations.FrameRunUnknownDeviceIsAcknowledged : Prop :=
  ∀ s : State, ReadyForFrame s → s.fb.read 4 = 0 → 12 ≤ s.flen.toNat → frameU32 s 5 ∉ s.knownDevices →
    ∃ t, Host.Core.run Sys2Proof.core 58 (hostStart s) = .next t ∧ t.run = false ∧ t.result = 3 ∧ t.upc = 59 ∧ t.pos = 12 ∧
      AckOutcome (frameU32 s 5) (s.fb.read 11) s t ∧ HeaderFields 11 s t ∧
      (∀ r : RegNum, 4 ≤ r.toNat → readField r t = none) ∧ t.batsel = s.batsel ∧ FrameKept s t

/-- A truncated status frame of a known device is acknowledged when a channel is present and ends with ShortFrame (R129
cases 3 and 6); the rows are first length, last length, UPC and POS of R131. The steps left over after the end of
the run change nothing, which is the model's choice (log 11). -/
def Obligations.FrameRunShortPayload : Prop :=
  ∀ s : State, ReadyForFrame s → s.fb.read 4 = 0 → 12 ≤ s.flen.toNat → s.flen.toNat < 70 →
    frameU32 s 5 ∈ s.knownDevices →
    ∃ t, Host.Core.run Sys2Proof.core 58 (hostStart s) = .next t ∧ t.run = false ∧ t.result = 4 ∧
      AckOutcome (frameU32 s 5) (s.fb.read 11) s t ∧ HeaderFields 11 s t ∧
      (∀ first last upc pos : Nat, (first, last, upc, pos) ∈
        ([(12, 12, 21, 12), (13, 13, 23, 13), (14, 14, 24, 14), (15, 15, 25, 15), (16, 16, 26, 16), (17, 17, 29, 17),
        (18, 18, 30, 18), (19, 19, 31, 19), (20, 20, 32, 20), (21, 24, 33, 21), (25, 25, 34, 25), (26, 26, 35, 26),
        (27, 29, 36, 27), (30, 32, 37, 30), (33, 38, 38, 33), (39, 40, 39, 39), (41, 41, 40, 41), (42, 42, 41, 42),
        (43, 43, 42, 43), (44, 44, 43, 44), (45, 48, 44, 45), (49, 52, 45, 49), (53, 56, 46, 53), (57, 60, 47, 57),
        (61, 62, 48, 61), (63, 63, 49, 63), (64, 64, 50, 64), (65, 65, 51, 65), (66, 66, 52, 66), (67, 67, 53, 67),
        (68, 69, 54, 68)] : List (Nat × Nat × Nat × Nat)) →
        first ≤ s.flen.toNat → s.flen.toNat ≤ last → t.upc.toNat = upc ∧ t.pos.toNat = pos) ∧
      readField 4 t = (if 13 ≤ s.flen.toNat then some (frameU8 s 12) else none) ∧
      readField 5 t = (if 14 ≤ s.flen.toNat then some (frameU8 s 13) else none) ∧
      readField 6 t = (if 15 ≤ s.flen.toNat then some (frameU8 s 14) else none) ∧
      readField 7 t = (if 16 ≤ s.flen.toNat then some (frameU8 s 15) else none) ∧
      readField 8 t = (if 17 ≤ s.flen.toNat then some (frameU8 s 16) else none) ∧
      readField 9 t = (if 17 ≤ s.flen.toNat then some (frameU8 s 16 &&& 0x0F) else none) ∧
      readField 10 t = (if 17 ≤ s.flen.toNat then some (frameU8 s 16) else none) ∧
      readField 11 t = (if 18 ≤ s.flen.toNat then some (frameU8 s 17) else none) ∧
      readField 12 t = (if 20 ≤ s.flen.toNat then some (frameU8 s 19) else none) ∧
      readField 13 t = (if 21 ≤ s.flen.toNat then some (frameU8 s 20) else none) ∧
      readField 14 t = (if 25 ≤ s.flen.toNat then some (frameU32 s 21) else none) ∧
      readField 15 t = (if 26 ≤ s.flen.toNat then some (frameU8 s 25) else none) ∧
      readField 16 t = (if 27 ≤ s.flen.toNat then some (frameU8 s 26) else none) ∧
      readField 17 t = (if 33 ≤ s.flen.toNat then some (frameU24 s 30) else none) ∧
      readField 18 t = (if 41 ≤ s.flen.toNat then some (frameU16 s 39) else none) ∧
      readField 19 t = (if 42 ≤ s.flen.toNat then some (frameU8 s 41) else none) ∧
      readField 20 t = (if 43 ≤ s.flen.toNat then some (frameU8 s 42) else none) ∧
      readField 21 t = (if 44 ≤ s.flen.toNat then some (frameU8 s 43) else none) ∧
      readField 22 t = (if 45 ≤ s.flen.toNat then some (frameU8 s 44) else none) ∧
      readField 23 t = (if 49 ≤ s.flen.toNat then some (frameU32 s 45) else none) ∧
      readField 24 t = (if 53 ≤ s.flen.toNat then some (frameU32 s 49) else none) ∧
      readField 25 t = (if 57 ≤ s.flen.toNat then some (frameU32 s 53) else none) ∧
      readField 26 t = (if 61 ≤ s.flen.toNat then some (frameU32 s 57) else none) ∧
      readField 27 t = (if 63 ≤ s.flen.toNat then some (frameU16 s 61) else none) ∧
      readField 28 t = (if 64 ≤ s.flen.toNat then some (frameU8 s 63) else none) ∧
      readField 29 t = (if 65 ≤ s.flen.toNat then some (frameU8 s 64) else none) ∧
      readField 30 t = (if 66 ≤ s.flen.toNat then some (frameU8 s 65) else none) ∧
      readField 31 t = (if 67 ≤ s.flen.toNat then some (frameU8 s 66) else none) ∧
      readField 32 t = (if 68 ≤ s.flen.toNat then some (frameU8 s 67) else none) ∧
      readField 33 t = none ∧ readField 34 t = none ∧
      t.batsel = (if 13 ≤ s.flen.toNat then decide ((s.fb.read 12).toNat % 32 = 12) else s.batsel) ∧ FrameKept s t

/-- A status frame of 70 bytes or more of a known device is acknowledged when a channel is present and decoded into all
34 registers (R129 (cases 3 and 7), R123, R132). The steps left over after the end of the run change nothing, which
is the model's choice (log 11). -/
def Obligations.FrameRunDecodesStatusFrame : Prop :=
  ∀ s : State, ReadyForFrame s → s.fb.read 4 = 0 → 70 ≤ s.flen.toNat → frameU32 s 5 ∈ s.knownDevices →
    ∃ t, Host.Core.run Sys2Proof.core 58 (hostStart s) = .next t ∧ t.run = false ∧ t.result = 1 ∧ t.upc = 58 ∧ t.pos = 70 ∧
      AckOutcome (frameU32 s 5) (s.fb.read 11) s t ∧ HeaderFields 11 s t ∧
      readField 4 t = some (frameU8 s 12) ∧
      readField 5 t = some (frameU8 s 13) ∧
      readField 6 t = some (frameU8 s 14) ∧
      readField 7 t = some (frameU8 s 15) ∧
      readField 8 t = some (frameU8 s 16) ∧
      readField 9 t = some (frameU8 s 16 &&& 0x0F) ∧
      readField 10 t = some (frameU8 s 16) ∧
      readField 11 t = some (frameU8 s 17) ∧
      readField 12 t = some (frameU8 s 19) ∧
      readField 13 t = some (frameU8 s 20) ∧
      readField 14 t = some (frameU32 s 21) ∧
      readField 15 t = some (frameU8 s 25) ∧
      readField 16 t = some (frameU8 s 26) ∧
      readField 17 t = some (frameU24 s 30) ∧
      readField 18 t = some (frameU16 s 39) ∧
      readField 19 t = some (frameU8 s 41) ∧
      readField 20 t = some (frameU8 s 42) ∧
      readField 21 t = some (frameU8 s 43) ∧
      readField 22 t = some (frameU8 s 44) ∧
      readField 23 t = some (frameU32 s 45) ∧
      readField 24 t = some (frameU32 s 49) ∧
      readField 25 t = some (frameU32 s 53) ∧
      readField 26 t = some (frameU32 s 57) ∧
      readField 27 t = some (frameU16 s 61) ∧
      readField 28 t = some (frameU8 s 63) ∧
      readField 29 t = some (frameU8 s 64) ∧
      readField 30 t = some (frameU8 s 65) ∧
      readField 31 t = some (frameU8 s 66) ∧
      readField 32 t = some (frameU8 s 67) ∧
      readField 33 t = some (frameU16 s 68) ∧
      readField 34 t = some (((((frameU8 s 16 &&& 0xF0) <<< 4) ||| frameU8 s 17) <<< 8) ||| frameU8 s 25) ∧
      t.batsel = decide ((s.fb.read 12).toNat % 32 = 12) ∧ FrameKept s t

/-- The host's reason mapper (R147) on the codes of R148, and the alarm string of a Position (R140). The strings of 126
listed codes are opaque (log 16). -/
def Obligations.ReasonMapperIsTotal : Prop :=
  let codes : List Nat :=
    [4, 5, 6, 7, 8, 11, 12, 13, 14, 19, 21, 22, 23, 25, 27, 31, 32, 33, 34, 35, 36, 37] ++
    [38, 40, 41, 42, 43, 44, 45, 46, 47, 48, 49, 50, 51, 52, 53, 54, 55, 56, 57, 58, 59, 60] ++
    [61, 62, 63, 64, 65, 66, 67, 68, 69, 70, 71, 72, 73, 74, 75, 76, 77, 78, 79, 80, 81, 82] ++
    [83, 84, 85, 87, 88, 89, 90, 91, 99, 100, 101, 104, 105, 106, 107, 108, 109, 110, 111, 112, 144, 145] ++
    [150, 151, 152, 153, 154, 158, 159, 161, 162, 163, 190, 191, 192, 194, 199, 200, 201, 202, 203, 204, 205, 206] ++
    [207, 208, 209, 210, 211, 212, 213, 232, 239, 245, 246, 247, 248, 252, 253, 254, 255]
  codes.length = 127 ∧ codes.Nodup ∧
  (∀ code : Byte, (code.toNat ∈ codes → reasonString code ≠ "") ∧
    (code.toNat ∉ codes → reasonString code = "Unrecognised cause")) ∧
  reasonString 33 = "GPS Navigation Start" ∧
  (∀ (s : State) (p : Position), hostPosition s = some p →
    ∃ reason, readField 12 s = some reason ∧ (reason.toNat % 256 ∈ codes → p.alarm ≠ "") ∧
      (reason.toNat % 256 = 33 → p.alarm = "GPS Navigation Start") ∧
      (reason.toNat % 256 ∉ codes → p.alarm = "Unrecognised cause"))
end

