-- ==== Sys2Proof/Laws/Decode.lean ====
section
/-! SUPPORT. Fields and words: the two are the same 32 bits (R60). -/

namespace Sys2Proof.Laws

/-- The fields of a word made of fields are those fields. -/
@[simp] theorem fieldsOf_wordOf (f : Fields) : fieldsOf (wordOf f) = f := by
  obtain ⟨op, ra, rb, rc, imm⟩ := f
  simp only [fieldsOf, wordOf, Fields.mk.injEq]
  refine ⟨?_, ?_, ?_, ?_, ?_⟩ <;> ext i hi <;>
    simp <;> grind

/-- A word is made of its fields. -/
@[simp] theorem wordOf_fieldsOf (w : Word) : wordOf (fieldsOf w) = w := by
  ext i hi
  simp only [wordOf, fieldsOf]
  grind

/-- A mask on a word, field by field. -/
theorem wordOf_and (f g : Fields) :
    wordOf f &&& wordOf g =
      wordOf ⟨f.op &&& g.op, f.ra &&& g.ra, f.rb &&& g.rb, f.rc &&& g.rc, f.imm &&& g.imm⟩ := by
  ext i hi
  simp only [wordOf, BitVec.getElem_and, BitVec.getElem_append]
  grind

/-- What a mask and a match say of each field. -/
theorem fields_of_masked (f : Fields) (mask value : Word) (h : wordOf f &&& mask = value) (g k : Fields)
    (hg : fieldsOf mask = g) (hk : fieldsOf value = k) :
    f.op &&& g.op = k.op ∧ f.ra &&& g.ra = k.ra ∧ f.rb &&& g.rb = k.rb ∧ f.rc &&& g.rc = k.rc ∧
      f.imm &&& g.imm = k.imm := by
  subst hg hk h
  rw [← wordOf_fieldsOf mask, wordOf_and, fieldsOf_wordOf]
  simp

/-- A word as a number: R60's formula. -/
theorem wordOf_toNat (f : Fields) :
    (wordOf f).toNat =
      f.op.toNat * 2 ^ 26 + f.ra.toNat * 2 ^ 20 + f.rb.toNat * 2 ^ 14 + f.rc.toNat * 2 ^ 8 + f.imm.toNat := by
  have h1 := f.ra.isLt
  have h2 := f.rb.isLt
  have h3 := f.rc.isLt
  have h4 := f.imm.isLt
  simp only [wordOf, BitVec.toNat_append]
  rw [← Nat.shiftLeft_add_eq_or_of_lt h1, ← Nat.shiftLeft_add_eq_or_of_lt h2, ← Nat.shiftLeft_add_eq_or_of_lt h3,
    ← Nat.shiftLeft_add_eq_or_of_lt h4]
  simp only [Nat.shiftLeft_eq]
  omega

end Sys2Proof.Laws
end

