-- ==== Sys2Proof/Laws/Memory.lean ====
section
/-! SUPPORT. What the memory operations do, and that each keeps the canonical form. -/

namespace Sys2Proof.Laws

open Sys2Proof.Machine

@[simp] theorem read_nil (a : Nat) : Memory.read [] a = Memory.unlisted := rfl

@[simp] theorem wf_nil : Memory.wf [] = true := rfl

@[simp] theorem below_nil (bound : Nat) : Memory.below [] bound = true := rfl

theorem wfFrom_cons {lo a : Nat} {v : Byte} {rest : Memory} :
    Memory.wfFrom lo ((a, v) :: rest) = true ↔
      lo ≤ a ∧ v ≠ Memory.unlisted ∧ Memory.wfFrom (a + 1) rest = true := by
  simp [Memory.wfFrom, and_assoc]

theorem wfFrom_mono {lo lo' : Nat} (hle : lo' ≤ lo) : ∀ {m : Memory}, Memory.wfFrom lo m = true → Memory.wfFrom lo' m = true
  | [], _ => rfl
  | (_, _) :: _, h => by
    rw [wfFrom_cons] at h ⊢
    exact ⟨hle.trans h.1, h.2⟩

/-- An address below every listed one reads as unlisted. -/
theorem read_below_wfFrom {lo a : Nat} (ha : a < lo) :
    ∀ {m : Memory}, Memory.wfFrom lo m = true → Memory.read m a = Memory.unlisted
  | [], _ => rfl
  | (b, x) :: rest, h => by
    rw [wfFrom_cons] at h
    have hb : a ≠ b := by omega
    simp only [Memory.read, hb, if_false]
    exact read_below_wfFrom (by omega) h.2.2

theorem read_cell_append_same {a : Nat} {v : Byte} {rest : Memory} (h : Memory.read rest a = Memory.unlisted) :
    Memory.read (Memory.cell a v ++ rest) a = v := by
  by_cases hv : v = Memory.unlisted
  · simp [Memory.cell, hv, h]
  · simp [Memory.cell, hv, Memory.read]

theorem read_cell_append_ne {a b : Nat} {v : Byte} {rest : Memory} (hab : b ≠ a) :
    Memory.read (Memory.cell a v ++ rest) b = Memory.read rest b := by
  by_cases hv : v = Memory.unlisted
  · simp [Memory.cell, hv]
  · simp [Memory.cell, hv, Memory.read, hab]

theorem wfFrom_cell_append {lo a : Nat} {v : Byte} {rest : Memory} (hlo : lo ≤ a)
    (h : Memory.wfFrom (a + 1) rest = true) : Memory.wfFrom lo (Memory.cell a v ++ rest) = true := by
  by_cases hv : v = Memory.unlisted
  · simpa [Memory.cell, hv] using wfFrom_mono (by omega) h
  · simp only [Memory.cell, hv, if_false, List.singleton_append]
    exact wfFrom_cons.2 ⟨hlo, hv, h⟩

theorem wfFrom_write {lo a : Nat} (v : Byte) (hlo : lo ≤ a) :
    ∀ {m : Memory}, Memory.wfFrom lo m = true → Memory.wfFrom lo (Memory.write m a v) = true
  | [], _ => by simpa [Memory.write] using wfFrom_cell_append (v := v) (rest := []) hlo rfl
  | (b, x) :: rest, h => by
    rw [wfFrom_cons] at h
    obtain ⟨hb, hx, hr⟩ := h
    unfold Memory.write
    split
    · exact wfFrom_cell_append hlo (wfFrom_cons.2 ⟨by omega, hx, hr⟩)
    · split
      · subst_vars
        exact wfFrom_cell_append hlo hr
      · exact wfFrom_cons.2 ⟨hb, hx, wfFrom_write v (by omega) hr⟩

/-- Writing a byte keeps the canonical form. -/
theorem wf_write {m : Memory} (h : m.wf = true) (a : Nat) (v : Byte) : (m.write a v).wf = true :=
  wfFrom_write v (Nat.zero_le a) h

theorem below_cons {bound a : Nat} {v : Byte} {rest : Memory} :
    Memory.below ((a, v) :: rest) bound = true ↔ a < bound ∧ Memory.below rest bound = true := by
  simp [Memory.below]

theorem below_cell_append {bound a : Nat} {v : Byte} {rest : Memory} (ha : a < bound)
    (h : Memory.below rest bound = true) : Memory.below (Memory.cell a v ++ rest) bound = true := by
  by_cases hv : v = Memory.unlisted
  · simpa [Memory.cell, hv] using h
  · simp only [Memory.cell, hv, if_false, List.singleton_append]
    exact below_cons.2 ⟨ha, h⟩

/-- Writing a byte inside the memory's size keeps every listed address inside it. -/
theorem below_write {bound a : Nat} (ha : a < bound) (v : Byte) :
    ∀ {m : Memory}, m.below bound = true → (m.write a v).below bound = true
  | [], _ => by simpa [Memory.write] using below_cell_append (v := v) (rest := []) ha rfl
  | (b, x) :: rest, h => by
    have h' := h
    rw [below_cons] at h
    unfold Memory.write
    split
    · exact below_cell_append ha h'
    · split
      · exact below_cell_append ha h.2
      · exact below_cons.2 ⟨h.1, below_write ha v h.2⟩

theorem read_write_same_from {a : Nat} (v : Byte) :
    ∀ {lo : Nat} {m : Memory}, Memory.wfFrom lo m = true → Memory.read (Memory.write m a v) a = v
  | _, [], _ => by simpa [Memory.write] using read_cell_append_same (v := v) (rest := []) rfl
  | lo, (b, x) :: rest, h => by
    have h' := h
    rw [wfFrom_cons] at h
    unfold Memory.write
    split
    · rename_i hab
      refine read_cell_append_same ?_
      exact read_below_wfFrom (lo := b) hab (wfFrom_cons.2 ⟨le_refl b, h.2⟩)
    · split
      · subst_vars
        exact read_cell_append_same (read_below_wfFrom (Nat.lt_succ_self _) h.2.2)
      · rename_i hab
        simp only [Memory.read, hab, if_false]
        exact read_write_same_from v h.2.2

/-- A read after a write to the same address gives the value written. -/
theorem read_write_same {m : Memory} (h : m.wf = true) (a : Nat) (v : Byte) : (m.write a v).read a = v :=
  read_write_same_from v h

/-- A write leaves every other address alone. -/
theorem read_write_ne {a b : Nat} (v : Byte) (hab : b ≠ a) :
    ∀ (m : Memory), Memory.read (Memory.write m a v) b = Memory.read m b
  | [] => by simpa [Memory.write] using read_cell_append_ne (v := v) (rest := []) hab
  | (c, x) :: rest => by
    unfold Memory.write
    split
    · exact read_cell_append_ne hab
    · split
      · rename_i hac
        subst hac
        simp only [Memory.read, hab, if_false]
        exact read_cell_append_ne hab
      · simp only [Memory.read]
        rw [read_write_ne v hab rest]

/-- A read after a write, at any address. -/
theorem read_write {m : Memory} (h : m.wf = true) (a b : Nat) (v : Byte) :
    (m.write a v).read b = if b = a then v else m.read b := by
  by_cases hab : b = a
  · subst hab
    simp [read_write_same h]
  · simp [hab, read_write_ne v hab]

/-- Canonical memories that read alike everywhere are equal data. -/
theorem memory_ext_from : ∀ {lo : Nat} {m n : Memory}, Memory.wfFrom lo m = true → Memory.wfFrom lo n = true →
    (∀ a, Memory.read m a = Memory.read n a) → m = n
  | _, [], [], _, _, _ => rfl
  | _, [], (b, y) :: rest, _, hn, h => by
    rw [wfFrom_cons] at hn
    exact absurd (by simpa [Memory.read] using (h b).symm) hn.2.1
  | _, (a, x) :: rest, [], hm, _, h => by
    rw [wfFrom_cons] at hm
    exact absurd (by simpa [Memory.read] using h a) hm.2.1
  | _, (a, x) :: m, (b, y) :: n, hm, hn, h => by
    rw [wfFrom_cons] at hm hn
    have hab : a = b := by
      by_contra hne
      rcases Nat.lt_or_gt_of_ne hne with hlt | hlt
      · have := h a
        rw [read_below_wfFrom (lo := b) hlt (wfFrom_cons.2 ⟨le_refl b, hn.2⟩)] at this
        exact hm.2.1 (by simpa [Memory.read] using this)
      · have := h b
        rw [read_below_wfFrom (lo := a) hlt (wfFrom_cons.2 ⟨le_refl a, hm.2⟩)] at this
        exact hn.2.1 (by simpa [Memory.read] using this.symm)
    subst hab
    have hxy : x = y := by simpa [Memory.read] using h a
    subst hxy
    have hmn : m = n := memory_ext_from hm.2.2 hn.2.2 fun c => by
      by_cases hc : c = a
      · subst hc
        rw [read_below_wfFrom (Nat.lt_succ_self _) hm.2.2, read_below_wfFrom (Nat.lt_succ_self _) hn.2.2]
      · simpa [Memory.read, hc] using h c
    rw [hmn]

theorem memory_ext {m n : Memory} (hm : m.wf = true) (hn : n.wf = true) (h : ∀ a, m.read a = n.read a) : m = n :=
  memory_ext_from hm hn h

/-- `writeLE` keeps the canonical form. -/
theorem wf_writeLE : ∀ (n : Nat) {m : Memory} (off : Nat) (v : Word), m.wf = true → (m.writeLE off n v).wf = true
  | 0, _, _, _, h => h
  | n + 1, _, off, v, h => wf_writeLE n (off + 1) (v >>> 8) (wf_write h off _)

/-- `writeLE` inside the memory's size keeps every listed address inside it. -/
theorem below_writeLE {bound : Nat} : ∀ (n : Nat) {m : Memory} (off : Nat) (v : Word), off + n ≤ bound →
    m.below bound = true → (m.writeLE off n v).below bound = true
  | 0, _, _, _, _, h => h
  | n + 1, _, off, v, hb, h => below_writeLE n (off + 1) (v >>> 8) (by omega) (below_write (by omega) _ h)

/-- `writeLE` leaves every byte outside its `n` bytes alone. -/
theorem read_writeLE_outside : ∀ (n : Nat) (m : Memory) (off : Nat) (v : Word) {a : Nat}, a < off ∨ off + n ≤ a →
    (m.writeLE off n v).read a = m.read a
  | 0, _, _, _, _, _ => rfl
  | n + 1, m, off, v, a, h => by
    show ((m.write off (v.extractLsb' 0 8)).writeLE (off + 1) n (v >>> 8)).read a = m.read a
    rw [read_writeLE_outside n _ (off + 1) (v >>> 8) (by omega)]
    exact read_write_ne _ (by omega) m

/-- Byte k of what `writeLE` stores is bits 8k+7 to 8k of the value (R7). -/
theorem read_writeLE_inside : ∀ (n : Nat) {m : Memory} (off : Nat) (v : Word) (k : Nat), m.wf = true → k < n →
    (m.writeLE off n v).read (off + k) = v.extractLsb' (8 * k) 8
  | 0, _, _, _, _, _, hk => absurd hk (Nat.not_lt_zero _)
  | n + 1, m, off, v, 0, h, _ => by
    show ((m.write off (v.extractLsb' 0 8)).writeLE (off + 1) n (v >>> 8)).read off = _
    rw [read_writeLE_outside n _ (off + 1) (v >>> 8) (by omega)]
    exact read_write_same h off _
  | n + 1, m, off, v, k + 1, h, hk => by
    show ((m.write off (v.extractLsb' 0 8)).writeLE (off + 1) n (v >>> 8)).read (off + (k + 1)) = _
    have := read_writeLE_inside n (off + 1) (v >>> 8) k (wf_write h off (v.extractLsb' 0 8)) (by omega)
    rw [show off + (k + 1) = off + 1 + k by omega, this]
    ext i hi
    simp only [BitVec.getElem_extractLsb', BitVec.getLsbD_ushiftRight]
    congr 1
    omega

theorem wf_clear : ∀ (n : Nat) {m : Memory} (a : Nat), m.wf = true → (m.clear a n).wf = true
  | 0, _, _, h => h
  | n + 1, _, a, h => wf_clear n (a + 1) (wf_write h a _)

theorem below_clear {bound : Nat} : ∀ (n : Nat) {m : Memory} (a : Nat), a + n ≤ bound → m.below bound = true →
    (m.clear a n).below bound = true
  | 0, _, _, _, h => h
  | n + 1, _, a, hb, h => below_clear n (a + 1) (by omega) (below_write (by omega) _ h)

/-- After `clear` its `n` bytes read 0 and every other byte reads as before. -/
theorem read_clear : ∀ (n : Nat) {m : Memory} (a b : Nat), m.wf = true →
    (m.clear a n).read b = if a ≤ b ∧ b < a + n then 0x00 else m.read b
  | 0, _, a, b, _ => by
    have : ¬ (a ≤ b ∧ b < a + 0) := by omega
    simp only [Memory.clear, this, if_false]
  | n + 1, m, a, b, h => by
    show ((m.write a 0x00).clear (a + 1) n).read b = _
    rw [read_clear n (a + 1) b (wf_write h a 0x00), read_write h]
    split <;> split <;> try split
    all_goals first | rfl | omega

theorem wf_writeBytes : ∀ (bytes : List Byte) {m : Memory} (a : Nat), m.wf = true → (m.writeBytes a bytes).wf = true
  | [], _, _, h => h
  | v :: rest, _, a, h => wf_writeBytes rest (a + 1) (wf_write h a v)

theorem below_writeBytes {bound : Nat} : ∀ (bytes : List Byte) {m : Memory} (a : Nat), a + bytes.length ≤ bound →
    m.below bound = true → (m.writeBytes a bytes).below bound = true
  | [], _, _, _, h => h
  | v :: rest, _, a, hb, h => by
    simp only [List.length_cons] at hb
    exact below_writeBytes rest (a + 1) (by omega) (below_write (by omega) v h)

/-- `writeBytes` leaves every byte outside its range alone. -/
theorem read_writeBytes_outside : ∀ (bytes : List Byte) (m : Memory) (a : Nat) {b : Nat},
    b < a ∨ a + bytes.length ≤ b → (m.writeBytes a bytes).read b = m.read b
  | [], _, _, _, _ => rfl
  | v :: rest, m, a, b, h => by
    simp only [List.length_cons] at h
    show ((m.write a v).writeBytes (a + 1) rest).read b = m.read b
    rw [read_writeBytes_outside rest _ (a + 1) (by omega)]
    exact read_write_ne v (by omega) m

/-- Byte k of what `writeBytes` stores is the k-th byte of the list. -/
theorem read_writeBytes_inside : ∀ (bytes : List Byte) {m : Memory} (a k : Nat) (hk : k < bytes.length), m.wf = true →
    (m.writeBytes a bytes).read (a + k) = bytes[k]
  | v :: rest, m, a, 0, _, h => by
    show ((m.write a v).writeBytes (a + 1) rest).read a = v
    rw [read_writeBytes_outside rest _ (a + 1) (by omega)]
    exact read_write_same h a v
  | v :: rest, m, a, k + 1, hk, h => by
    have hk' : k < rest.length := by simpa using hk
    show ((m.write a v).writeBytes (a + 1) rest).read (a + (k + 1)) = rest[k]
    rw [show a + (k + 1) = a + 1 + k by omega]
    exact read_writeBytes_inside rest (a + 1) k hk' (wf_write h a v)

/-- A little-endian read of `n` bytes is below `256 ^ n`. -/
theorem readLE_lt (m : Memory) : ∀ (n addr : Nat), m.readLE addr n < 256 ^ n
  | 0, _ => by simp [Memory.readLE]
  | n + 1, addr => by
    have h1 := readLE_lt m n (addr + 1)
    have h2 := (Memory.read m addr).isLt
    simp only [Memory.readLE, Nat.pow_succ]
    omega

/-- A little-endian read depends only on the bytes it reads (R89 d). -/
theorem readLE_congr {m m' : Memory} : ∀ (n addr : Nat), (∀ k, k < n → m.read (addr + k) = m'.read (addr + k)) →
    m.readLE addr n = m'.readLE addr n
  | 0, _, _ => rfl
  | n + 1, addr, h => by
    have h0 := h 0 (by omega)
    have hr : m.readLE (addr + 1) n = m'.readLE (addr + 1) n := readLE_congr n (addr + 1) fun k hk => by
      rw [show addr + 1 + k = addr + (k + 1) by omega]
      exact h (k + 1) (by omega)
    simp only [Nat.add_zero] at h0
    simp only [Memory.readLE, h0, hr]

end Sys2Proof.Laws
end

