-- ==== Sys2Proof/Laws/State.lean ====
section
/-! SUPPORT. The fields of the state after each update: one lemma per field per update, so that no later proof unfolds a
record update. -/

namespace Sys2Proof.Laws

open Sys2Proof.Machine

@[simp] theorem endRun_f (code : BitVec 3) (s : State) : (endRun code s).f = s.f := rfl
@[simp] theorem endRun_pos (code : BitVec 3) (s : State) : (endRun code s).pos = s.pos := rfl
@[simp] theorem endRun_upc (code : BitVec 3) (s : State) : (endRun code s).upc = s.upc := rfl
@[simp] theorem endRun_flen (code : BitVec 3) (s : State) : (endRun code s).flen = s.flen := rfl
@[simp] theorem endRun_fb (code : BitVec 3) (s : State) : (endRun code s).fb = s.fb := rfl
@[simp] theorem endRun_ab (code : BitVec 3) (s : State) : (endRun code s).ab = s.ab := rfl
@[simp] theorem endRun_cmdcnt (code : BitVec 3) (s : State) : (endRun code s).cmdcnt = s.cmdcnt := rfl
@[simp] theorem endRun_batsel (code : BitVec 3) (s : State) : (endRun code s).batsel = s.batsel := rfl
@[simp] theorem endRun_ackv (code : BitVec 3) (s : State) : (endRun code s).ackv = s.ackv := rfl
@[simp] theorem endRun_run (code : BitVec 3) (s : State) : (endRun code s).run = false := rfl
@[simp] theorem endRun_chan (code : BitVec 3) (s : State) : (endRun code s).chan = s.chan := rfl
@[simp] theorem endRun_result (code : BitVec 3) (s : State) : (endRun code s).result = code := rfl
@[simp] theorem endRun_urom (code : BitVec 3) (s : State) : (endRun code s).urom = s.urom := rfl
@[simp] theorem endRun_knownDevices (code : BitVec 3) (s : State) : (endRun code s).knownDevices = s.knownDevices := rfl
@[simp] theorem endRun_script (code : BitVec 3) (s : State) : (endRun code s).script = s.script := rfl
@[simp] theorem endRun_hostData (code : BitVec 3) (s : State) : (endRun code s).hostData = s.hostData := rfl
@[simp] theorem endRun_freeCount (code : BitVec 3) (s : State) : (endRun code s).freeCount = s.freeCount := rfl

@[simp] theorem takeTrap_f (x : Trap) (s : State) : (takeTrap x s).f = s.f := rfl
@[simp] theorem takeTrap_pos (x : Trap) (s : State) : (takeTrap x s).pos = s.pos := rfl
@[simp] theorem takeTrap_upc (x : Trap) (s : State) : (takeTrap x s).upc = s.upc := rfl
@[simp] theorem takeTrap_flen (x : Trap) (s : State) : (takeTrap x s).flen = s.flen := rfl
@[simp] theorem takeTrap_fb (x : Trap) (s : State) : (takeTrap x s).fb = s.fb := rfl
@[simp] theorem takeTrap_ab (x : Trap) (s : State) : (takeTrap x s).ab = s.ab := rfl
@[simp] theorem takeTrap_cmdcnt (x : Trap) (s : State) : (takeTrap x s).cmdcnt = s.cmdcnt := rfl
@[simp] theorem takeTrap_batsel (x : Trap) (s : State) : (takeTrap x s).batsel = s.batsel := rfl
@[simp] theorem takeTrap_ackv (x : Trap) (s : State) : (takeTrap x s).ackv = s.ackv := rfl
@[simp] theorem takeTrap_run (x : Trap) (s : State) : (takeTrap x s).run = false := rfl
@[simp] theorem takeTrap_chan (x : Trap) (s : State) : (takeTrap x s).chan = s.chan := rfl
@[simp] theorem takeTrap_result (x : Trap) (s : State) : (takeTrap x s).result = trapCode x := rfl
@[simp] theorem takeTrap_urom (x : Trap) (s : State) : (takeTrap x s).urom = s.urom := rfl
@[simp] theorem takeTrap_knownDevices (x : Trap) (s : State) : (takeTrap x s).knownDevices = s.knownDevices := rfl
@[simp] theorem takeTrap_script (x : Trap) (s : State) : (takeTrap x s).script = s.script := rfl
@[simp] theorem takeTrap_hostData (x : Trap) (s : State) : (takeTrap x s).hostData = s.hostData := rfl
@[simp] theorem takeTrap_freeCount (x : Trap) (s : State) : (takeTrap x s).freeCount = s.freeCount := rfl

@[simp] theorem setUpc_f (u : RomIndex) (s : State) : (setUpc u s).f = s.f := rfl
@[simp] theorem setUpc_pos (u : RomIndex) (s : State) : (setUpc u s).pos = s.pos := rfl
@[simp] theorem setUpc_upc (u : RomIndex) (s : State) : (setUpc u s).upc = u := rfl
@[simp] theorem setUpc_flen (u : RomIndex) (s : State) : (setUpc u s).flen = s.flen := rfl
@[simp] theorem setUpc_fb (u : RomIndex) (s : State) : (setUpc u s).fb = s.fb := rfl
@[simp] theorem setUpc_ab (u : RomIndex) (s : State) : (setUpc u s).ab = s.ab := rfl
@[simp] theorem setUpc_cmdcnt (u : RomIndex) (s : State) : (setUpc u s).cmdcnt = s.cmdcnt := rfl
@[simp] theorem setUpc_batsel (u : RomIndex) (s : State) : (setUpc u s).batsel = s.batsel := rfl
@[simp] theorem setUpc_ackv (u : RomIndex) (s : State) : (setUpc u s).ackv = s.ackv := rfl
@[simp] theorem setUpc_run (u : RomIndex) (s : State) : (setUpc u s).run = s.run := rfl
@[simp] theorem setUpc_chan (u : RomIndex) (s : State) : (setUpc u s).chan = s.chan := rfl
@[simp] theorem setUpc_result (u : RomIndex) (s : State) : (setUpc u s).result = s.result := rfl
@[simp] theorem setUpc_urom (u : RomIndex) (s : State) : (setUpc u s).urom = s.urom := rfl
@[simp] theorem setUpc_knownDevices (u : RomIndex) (s : State) : (setUpc u s).knownDevices = s.knownDevices := rfl
@[simp] theorem setUpc_script (u : RomIndex) (s : State) : (setUpc u s).script = s.script := rfl
@[simp] theorem setUpc_hostData (u : RomIndex) (s : State) : (setUpc u s).hostData = s.hostData := rfl
@[simp] theorem setUpc_freeCount (u : RomIndex) (s : State) : (setUpc u s).freeCount = s.freeCount := rfl

@[simp] theorem nextUpc_f (s : State) : (nextUpc s).f = s.f := rfl
@[simp] theorem nextUpc_pos (s : State) : (nextUpc s).pos = s.pos := rfl
@[simp] theorem nextUpc_upc (s : State) : (nextUpc s).upc = s.upc + 1 := rfl
@[simp] theorem nextUpc_flen (s : State) : (nextUpc s).flen = s.flen := rfl
@[simp] theorem nextUpc_fb (s : State) : (nextUpc s).fb = s.fb := rfl
@[simp] theorem nextUpc_ab (s : State) : (nextUpc s).ab = s.ab := rfl
@[simp] theorem nextUpc_cmdcnt (s : State) : (nextUpc s).cmdcnt = s.cmdcnt := rfl
@[simp] theorem nextUpc_batsel (s : State) : (nextUpc s).batsel = s.batsel := rfl
@[simp] theorem nextUpc_ackv (s : State) : (nextUpc s).ackv = s.ackv := rfl
@[simp] theorem nextUpc_run (s : State) : (nextUpc s).run = s.run := rfl
@[simp] theorem nextUpc_chan (s : State) : (nextUpc s).chan = s.chan := rfl
@[simp] theorem nextUpc_result (s : State) : (nextUpc s).result = s.result := rfl
@[simp] theorem nextUpc_urom (s : State) : (nextUpc s).urom = s.urom := rfl
@[simp] theorem nextUpc_knownDevices (s : State) : (nextUpc s).knownDevices = s.knownDevices := rfl
@[simp] theorem nextUpc_script (s : State) : (nextUpc s).script = s.script := rfl
@[simp] theorem nextUpc_hostData (s : State) : (nextUpc s).hostData = s.hostData := rfl
@[simp] theorem nextUpc_freeCount (s : State) : (nextUpc s).freeCount = s.freeCount := rfl

@[simp] theorem writeField_f (r : RegNum) (v : Word) (s : State) : (writeField r v s).f = fieldsAfter r v s.f := rfl
@[simp] theorem writeField_pos (r : RegNum) (v : Word) (s : State) : (writeField r v s).pos = s.pos := rfl
@[simp] theorem writeField_upc (r : RegNum) (v : Word) (s : State) : (writeField r v s).upc = s.upc := rfl
@[simp] theorem writeField_flen (r : RegNum) (v : Word) (s : State) : (writeField r v s).flen = s.flen := rfl
@[simp] theorem writeField_fb (r : RegNum) (v : Word) (s : State) : (writeField r v s).fb = s.fb := rfl
@[simp] theorem writeField_ab (r : RegNum) (v : Word) (s : State) : (writeField r v s).ab = s.ab := rfl
@[simp] theorem writeField_cmdcnt (r : RegNum) (v : Word) (s : State) : (writeField r v s).cmdcnt = s.cmdcnt := rfl
@[simp] theorem writeField_batsel (r : RegNum) (v : Word) (s : State) : (writeField r v s).batsel = s.batsel := rfl
@[simp] theorem writeField_ackv (r : RegNum) (v : Word) (s : State) : (writeField r v s).ackv = s.ackv := rfl
@[simp] theorem writeField_run (r : RegNum) (v : Word) (s : State) : (writeField r v s).run = s.run := rfl
@[simp] theorem writeField_chan (r : RegNum) (v : Word) (s : State) : (writeField r v s).chan = s.chan := rfl
@[simp] theorem writeField_result (r : RegNum) (v : Word) (s : State) : (writeField r v s).result = s.result := rfl
@[simp] theorem writeField_urom (r : RegNum) (v : Word) (s : State) : (writeField r v s).urom = s.urom := rfl
@[simp] theorem writeField_knownDevices (r : RegNum) (v : Word) (s : State) : (writeField r v s).knownDevices = s.knownDevices := rfl
@[simp] theorem writeField_script (r : RegNum) (v : Word) (s : State) : (writeField r v s).script = s.script := rfl
@[simp] theorem writeField_hostData (r : RegNum) (v : Word) (s : State) : (writeField r v s).hostData = s.hostData := rfl
@[simp] theorem writeField_freeCount (r : RegNum) (v : Word) (s : State) : (writeField r v s).freeCount = s.freeCount := rfl

@[simp] theorem advancePos_f (k : Nat) (s : State) : (advancePos k s).f = s.f := rfl
@[simp] theorem advancePos_pos (k : Nat) (s : State) : (advancePos k s).pos = s.pos + BitVec.ofNat 16 k := rfl
@[simp] theorem advancePos_upc (k : Nat) (s : State) : (advancePos k s).upc = s.upc := rfl
@[simp] theorem advancePos_flen (k : Nat) (s : State) : (advancePos k s).flen = s.flen := rfl
@[simp] theorem advancePos_fb (k : Nat) (s : State) : (advancePos k s).fb = s.fb := rfl
@[simp] theorem advancePos_ab (k : Nat) (s : State) : (advancePos k s).ab = s.ab := rfl
@[simp] theorem advancePos_cmdcnt (k : Nat) (s : State) : (advancePos k s).cmdcnt = s.cmdcnt := rfl
@[simp] theorem advancePos_batsel (k : Nat) (s : State) : (advancePos k s).batsel = s.batsel := rfl
@[simp] theorem advancePos_ackv (k : Nat) (s : State) : (advancePos k s).ackv = s.ackv := rfl
@[simp] theorem advancePos_run (k : Nat) (s : State) : (advancePos k s).run = s.run := rfl
@[simp] theorem advancePos_chan (k : Nat) (s : State) : (advancePos k s).chan = s.chan := rfl
@[simp] theorem advancePos_result (k : Nat) (s : State) : (advancePos k s).result = s.result := rfl
@[simp] theorem advancePos_urom (k : Nat) (s : State) : (advancePos k s).urom = s.urom := rfl
@[simp] theorem advancePos_knownDevices (k : Nat) (s : State) : (advancePos k s).knownDevices = s.knownDevices := rfl
@[simp] theorem advancePos_script (k : Nat) (s : State) : (advancePos k s).script = s.script := rfl
@[simp] theorem advancePos_hostData (k : Nat) (s : State) : (advancePos k s).hostData = s.hostData := rfl
@[simp] theorem advancePos_freeCount (k : Nat) (s : State) : (advancePos k s).freeCount = s.freeCount := rfl

@[simp] theorem storeAck_f (off : AbOff) (n : Nat) (v : Word) (s : State) : (storeAck off n v s).f = s.f := rfl
@[simp] theorem storeAck_pos (off : AbOff) (n : Nat) (v : Word) (s : State) : (storeAck off n v s).pos = s.pos := rfl
@[simp] theorem storeAck_upc (off : AbOff) (n : Nat) (v : Word) (s : State) : (storeAck off n v s).upc = s.upc := rfl
@[simp] theorem storeAck_flen (off : AbOff) (n : Nat) (v : Word) (s : State) : (storeAck off n v s).flen = s.flen := rfl
@[simp] theorem storeAck_fb (off : AbOff) (n : Nat) (v : Word) (s : State) : (storeAck off n v s).fb = s.fb := rfl
@[simp] theorem storeAck_ab (off : AbOff) (n : Nat) (v : Word) (s : State) : (storeAck off n v s).ab = s.ab.writeLE off.toNat n v := rfl
@[simp] theorem storeAck_cmdcnt (off : AbOff) (n : Nat) (v : Word) (s : State) : (storeAck off n v s).cmdcnt = s.cmdcnt := rfl
@[simp] theorem storeAck_batsel (off : AbOff) (n : Nat) (v : Word) (s : State) : (storeAck off n v s).batsel = s.batsel := rfl
@[simp] theorem storeAck_ackv (off : AbOff) (n : Nat) (v : Word) (s : State) : (storeAck off n v s).ackv = s.ackv := rfl
@[simp] theorem storeAck_run (off : AbOff) (n : Nat) (v : Word) (s : State) : (storeAck off n v s).run = s.run := rfl
@[simp] theorem storeAck_chan (off : AbOff) (n : Nat) (v : Word) (s : State) : (storeAck off n v s).chan = s.chan := rfl
@[simp] theorem storeAck_result (off : AbOff) (n : Nat) (v : Word) (s : State) : (storeAck off n v s).result = s.result := rfl
@[simp] theorem storeAck_urom (off : AbOff) (n : Nat) (v : Word) (s : State) : (storeAck off n v s).urom = s.urom := rfl
@[simp] theorem storeAck_knownDevices (off : AbOff) (n : Nat) (v : Word) (s : State) : (storeAck off n v s).knownDevices = s.knownDevices := rfl
@[simp] theorem storeAck_script (off : AbOff) (n : Nat) (v : Word) (s : State) : (storeAck off n v s).script = s.script := rfl
@[simp] theorem storeAck_hostData (off : AbOff) (n : Nat) (v : Word) (s : State) : (storeAck off n v s).hostData = s.hostData := rfl
@[simp] theorem storeAck_freeCount (off : AbOff) (n : Nat) (v : Word) (s : State) : (storeAck off n v s).freeCount = s.freeCount := rfl

@[simp] theorem clearAck_f (s : State) : (clearAck s).f = s.f := by simp only [clearAck]
@[simp] theorem clearAck_pos (s : State) : (clearAck s).pos = s.pos := by simp only [clearAck]
@[simp] theorem clearAck_upc (s : State) : (clearAck s).upc = s.upc := by simp only [clearAck]
@[simp] theorem clearAck_flen (s : State) : (clearAck s).flen = s.flen := by simp only [clearAck]
@[simp] theorem clearAck_fb (s : State) : (clearAck s).fb = s.fb := by simp only [clearAck]
@[simp] theorem clearAck_ab (s : State) : (clearAck s).ab = s.ab.clear 0 28 := by simp only [clearAck]
@[simp] theorem clearAck_cmdcnt (s : State) : (clearAck s).cmdcnt = s.cmdcnt := by simp only [clearAck]
@[simp] theorem clearAck_batsel (s : State) : (clearAck s).batsel = s.batsel := by simp only [clearAck]
@[simp] theorem clearAck_ackv (s : State) : (clearAck s).ackv = s.ackv := by simp only [clearAck]
@[simp] theorem clearAck_run (s : State) : (clearAck s).run = s.run := by simp only [clearAck]
@[simp] theorem clearAck_chan (s : State) : (clearAck s).chan = s.chan := by simp only [clearAck]
@[simp] theorem clearAck_result (s : State) : (clearAck s).result = s.result := by simp only [clearAck]
@[simp] theorem clearAck_urom (s : State) : (clearAck s).urom = s.urom := by simp only [clearAck]
@[simp] theorem clearAck_knownDevices (s : State) : (clearAck s).knownDevices = s.knownDevices := by simp only [clearAck]
@[simp] theorem clearAck_script (s : State) : (clearAck s).script = s.script := by simp only [clearAck]
@[simp] theorem clearAck_hostData (s : State) : (clearAck s).hostData = s.hostData := by simp only [clearAck]
@[simp] theorem clearAck_freeCount (s : State) : (clearAck s).freeCount = s.freeCount := by simp only [clearAck]

@[simp] theorem bumpCounter_f (s : State) : (bumpCounter s).f = s.f := rfl
@[simp] theorem bumpCounter_pos (s : State) : (bumpCounter s).pos = s.pos := rfl
@[simp] theorem bumpCounter_upc (s : State) : (bumpCounter s).upc = s.upc := rfl
@[simp] theorem bumpCounter_flen (s : State) : (bumpCounter s).flen = s.flen := rfl
@[simp] theorem bumpCounter_fb (s : State) : (bumpCounter s).fb = s.fb := rfl
@[simp] theorem bumpCounter_ab (s : State) : (bumpCounter s).ab = s.ab := rfl
@[simp] theorem bumpCounter_cmdcnt (s : State) : (bumpCounter s).cmdcnt = s.cmdcnt + 1 := rfl
@[simp] theorem bumpCounter_batsel (s : State) : (bumpCounter s).batsel = s.batsel := rfl
@[simp] theorem bumpCounter_ackv (s : State) : (bumpCounter s).ackv = s.ackv := rfl
@[simp] theorem bumpCounter_run (s : State) : (bumpCounter s).run = s.run := rfl
@[simp] theorem bumpCounter_chan (s : State) : (bumpCounter s).chan = s.chan := rfl
@[simp] theorem bumpCounter_result (s : State) : (bumpCounter s).result = s.result := rfl
@[simp] theorem bumpCounter_urom (s : State) : (bumpCounter s).urom = s.urom := rfl
@[simp] theorem bumpCounter_knownDevices (s : State) : (bumpCounter s).knownDevices = s.knownDevices := rfl
@[simp] theorem bumpCounter_script (s : State) : (bumpCounter s).script = s.script := rfl
@[simp] theorem bumpCounter_hostData (s : State) : (bumpCounter s).hostData = s.hostData := rfl
@[simp] theorem bumpCounter_freeCount (s : State) : (bumpCounter s).freeCount = s.freeCount := rfl

@[simp] theorem setBatsel_f (b : Bool) (s : State) : (setBatsel b s).f = s.f := rfl
@[simp] theorem setBatsel_pos (b : Bool) (s : State) : (setBatsel b s).pos = s.pos := rfl
@[simp] theorem setBatsel_upc (b : Bool) (s : State) : (setBatsel b s).upc = s.upc := rfl
@[simp] theorem setBatsel_flen (b : Bool) (s : State) : (setBatsel b s).flen = s.flen := rfl
@[simp] theorem setBatsel_fb (b : Bool) (s : State) : (setBatsel b s).fb = s.fb := rfl
@[simp] theorem setBatsel_ab (b : Bool) (s : State) : (setBatsel b s).ab = s.ab := rfl
@[simp] theorem setBatsel_cmdcnt (b : Bool) (s : State) : (setBatsel b s).cmdcnt = s.cmdcnt := rfl
@[simp] theorem setBatsel_batsel (b : Bool) (s : State) : (setBatsel b s).batsel = b := rfl
@[simp] theorem setBatsel_ackv (b : Bool) (s : State) : (setBatsel b s).ackv = s.ackv := rfl
@[simp] theorem setBatsel_run (b : Bool) (s : State) : (setBatsel b s).run = s.run := rfl
@[simp] theorem setBatsel_chan (b : Bool) (s : State) : (setBatsel b s).chan = s.chan := rfl
@[simp] theorem setBatsel_result (b : Bool) (s : State) : (setBatsel b s).result = s.result := rfl
@[simp] theorem setBatsel_urom (b : Bool) (s : State) : (setBatsel b s).urom = s.urom := rfl
@[simp] theorem setBatsel_knownDevices (b : Bool) (s : State) : (setBatsel b s).knownDevices = s.knownDevices := rfl
@[simp] theorem setBatsel_script (b : Bool) (s : State) : (setBatsel b s).script = s.script := rfl
@[simp] theorem setBatsel_hostData (b : Bool) (s : State) : (setBatsel b s).hostData = s.hostData := rfl
@[simp] theorem setBatsel_freeCount (b : Bool) (s : State) : (setBatsel b s).freeCount = s.freeCount := rfl

@[simp] theorem setScript_f (rest : List HostTurn) (s : State) : (setScript rest s).f = s.f := rfl
@[simp] theorem setScript_pos (rest : List HostTurn) (s : State) : (setScript rest s).pos = s.pos := rfl
@[simp] theorem setScript_upc (rest : List HostTurn) (s : State) : (setScript rest s).upc = s.upc := rfl
@[simp] theorem setScript_flen (rest : List HostTurn) (s : State) : (setScript rest s).flen = s.flen := rfl
@[simp] theorem setScript_fb (rest : List HostTurn) (s : State) : (setScript rest s).fb = s.fb := rfl
@[simp] theorem setScript_ab (rest : List HostTurn) (s : State) : (setScript rest s).ab = s.ab := rfl
@[simp] theorem setScript_cmdcnt (rest : List HostTurn) (s : State) : (setScript rest s).cmdcnt = s.cmdcnt := rfl
@[simp] theorem setScript_batsel (rest : List HostTurn) (s : State) : (setScript rest s).batsel = s.batsel := rfl
@[simp] theorem setScript_ackv (rest : List HostTurn) (s : State) : (setScript rest s).ackv = s.ackv := rfl
@[simp] theorem setScript_run (rest : List HostTurn) (s : State) : (setScript rest s).run = s.run := rfl
@[simp] theorem setScript_chan (rest : List HostTurn) (s : State) : (setScript rest s).chan = s.chan := rfl
@[simp] theorem setScript_result (rest : List HostTurn) (s : State) : (setScript rest s).result = s.result := rfl
@[simp] theorem setScript_urom (rest : List HostTurn) (s : State) : (setScript rest s).urom = s.urom := rfl
@[simp] theorem setScript_knownDevices (rest : List HostTurn) (s : State) : (setScript rest s).knownDevices = s.knownDevices := rfl
@[simp] theorem setScript_script (rest : List HostTurn) (s : State) : (setScript rest s).script = rest := rfl
@[simp] theorem setScript_hostData (rest : List HostTurn) (s : State) : (setScript rest s).hostData = s.hostData := rfl
@[simp] theorem setScript_freeCount (rest : List HostTurn) (s : State) : (setScript rest s).freeCount = s.freeCount := rfl

@[simp] theorem setAckv_f (s : State) : (setAckv s).f = s.f := rfl
@[simp] theorem setAckv_pos (s : State) : (setAckv s).pos = s.pos := rfl
@[simp] theorem setAckv_upc (s : State) : (setAckv s).upc = s.upc := rfl
@[simp] theorem setAckv_flen (s : State) : (setAckv s).flen = s.flen := rfl
@[simp] theorem setAckv_fb (s : State) : (setAckv s).fb = s.fb := rfl
@[simp] theorem setAckv_ab (s : State) : (setAckv s).ab = s.ab := rfl
@[simp] theorem setAckv_cmdcnt (s : State) : (setAckv s).cmdcnt = s.cmdcnt := rfl
@[simp] theorem setAckv_batsel (s : State) : (setAckv s).batsel = s.batsel := rfl
@[simp] theorem setAckv_ackv (s : State) : (setAckv s).ackv = true := rfl
@[simp] theorem setAckv_run (s : State) : (setAckv s).run = s.run := rfl
@[simp] theorem setAckv_chan (s : State) : (setAckv s).chan = s.chan := rfl
@[simp] theorem setAckv_result (s : State) : (setAckv s).result = s.result := rfl
@[simp] theorem setAckv_urom (s : State) : (setAckv s).urom = s.urom := rfl
@[simp] theorem setAckv_knownDevices (s : State) : (setAckv s).knownDevices = s.knownDevices := rfl
@[simp] theorem setAckv_script (s : State) : (setAckv s).script = s.script := rfl
@[simp] theorem setAckv_hostData (s : State) : (setAckv s).hostData = s.hostData := rfl
@[simp] theorem setAckv_freeCount (s : State) : (setAckv s).freeCount = s.freeCount := rfl

@[simp] theorem branchIf_f (c : Bool) (u : RomIndex) (s : State) : (branchIf c u s).f = s.f := by cases c <;> rfl
@[simp] theorem branchIf_pos (c : Bool) (u : RomIndex) (s : State) : (branchIf c u s).pos = s.pos := by cases c <;> rfl
@[simp] theorem branchIf_flen (c : Bool) (u : RomIndex) (s : State) : (branchIf c u s).flen = s.flen := by cases c <;> rfl
@[simp] theorem branchIf_fb (c : Bool) (u : RomIndex) (s : State) : (branchIf c u s).fb = s.fb := by cases c <;> rfl
@[simp] theorem branchIf_ab (c : Bool) (u : RomIndex) (s : State) : (branchIf c u s).ab = s.ab := by cases c <;> rfl
@[simp] theorem branchIf_cmdcnt (c : Bool) (u : RomIndex) (s : State) : (branchIf c u s).cmdcnt = s.cmdcnt := by cases c <;> rfl
@[simp] theorem branchIf_batsel (c : Bool) (u : RomIndex) (s : State) : (branchIf c u s).batsel = s.batsel := by cases c <;> rfl
@[simp] theorem branchIf_ackv (c : Bool) (u : RomIndex) (s : State) : (branchIf c u s).ackv = s.ackv := by cases c <;> rfl
@[simp] theorem branchIf_run (c : Bool) (u : RomIndex) (s : State) : (branchIf c u s).run = s.run := by cases c <;> rfl
@[simp] theorem branchIf_chan (c : Bool) (u : RomIndex) (s : State) : (branchIf c u s).chan = s.chan := by cases c <;> rfl
@[simp] theorem branchIf_result (c : Bool) (u : RomIndex) (s : State) : (branchIf c u s).result = s.result := by cases c <;> rfl
@[simp] theorem branchIf_urom (c : Bool) (u : RomIndex) (s : State) : (branchIf c u s).urom = s.urom := by cases c <;> rfl
@[simp] theorem branchIf_knownDevices (c : Bool) (u : RomIndex) (s : State) : (branchIf c u s).knownDevices = s.knownDevices := by cases c <;> rfl
@[simp] theorem branchIf_script (c : Bool) (u : RomIndex) (s : State) : (branchIf c u s).script = s.script := by cases c <;> rfl
@[simp] theorem branchIf_hostData (c : Bool) (u : RomIndex) (s : State) : (branchIf c u s).hostData = s.hostData := by cases c <;> rfl
@[simp] theorem branchIf_freeCount (c : Bool) (u : RomIndex) (s : State) : (branchIf c u s).freeCount = s.freeCount := by cases c <;> rfl
@[simp] theorem branchIf_upc (c : Bool) (u : RomIndex) (s : State) :
    (branchIf c u s).upc = if c then u else s.upc + 1 := by cases c <;> rfl

end Sys2Proof.Laws
end

