-- ==== Sys2Proof/Laws/Ops.lean ====
section
/-! SUPPORT. What the shared operations do: one lemma that says all of it for each. -/

namespace Sys2Proof.Laws

open Sys2Proof.Machine

/-! Field registers -/

/-- F0 reads 0 and is always valid (R11). -/
@[simp] theorem readField_zero (s : State) : readField 0#6 s = some 0 := rfl

/-- Reading depends on the register file alone. -/
theorem readField_congr {s t : State} (h : t.f = s.f) (r : RegNum) : readField r t = readField r s := by
  simp only [readField, h]

/-- The register file after a write, read back at any register (R7, R11): a write to F0 is discarded. -/
theorem readField_fieldsAfter {s t : State} {r : RegNum} {v : Word} (hr : r.toNat ≤ 34) (h : t.f = fieldsAfter r v s.f)
    (q : RegNum) : readField q t = if q = 0#6 then some 0 else if q = r then some v else readField q s := by
  by_cases hq : q = 0#6
  · simp [hq]
  · have hq0 : q.toNat ≠ 0 := fun h0 => hq (BitVec.eq_of_toNat_eq (by simpa using h0))
    unfold readField
    rw [if_neg hq, if_neg hq, h, fieldsAfter]
    by_cases hr0 : r = 0#6
    · have hqr : q ≠ r := hr0 ▸ hq
      rw [if_pos hr0, if_neg hqr, if_neg hq]
    · have hr0' : r.toNat ≠ 0 := fun h0 => hr0 (BitVec.eq_of_toNat_eq (by simpa using h0))
      rw [if_neg hr0]
      by_cases hqr : q = r
      · subst hqr
        have hlt : q.toNat - 1 < 34 := by omega
        simp [hlt]
      · have hne : r.toNat - 1 ≠ q.toNat - 1 := fun h0 => hqr (BitVec.eq_of_toNat_eq (by omega))
        rw [if_neg hqr, if_neg hq, Vector.getElem?_setIfInBounds_ne hne]

/-- `F[r] <- v`, read back at any register. -/
theorem readField_writeField {r : RegNum} (hr : r.toNat ≤ 34) (v : Word) (s : State) (q : RegNum) :
    readField q (writeField r v s) = if q = 0#6 then some 0 else if q = r then some v else readField q s :=
  readField_fieldsAfter hr (writeField_f r v s) q

@[simp] theorem readField_endRun (c : BitVec 3) (s : State) (r : RegNum) : readField r (endRun c s) = readField r s := rfl

@[simp] theorem readField_takeTrap (x : Trap) (s : State) (r : RegNum) : readField r (takeTrap x s) = readField r s := rfl

@[simp] theorem readField_setUpc (u : RomIndex) (s : State) (r : RegNum) : readField r (setUpc u s) = readField r s := rfl

@[simp] theorem readField_nextUpc (s : State) (r : RegNum) : readField r (nextUpc s) = readField r s := rfl

@[simp] theorem readField_branchIf (c : Bool) (u : RomIndex) (s : State) (r : RegNum) :
    readField r (branchIf c u s) = readField r s := readField_congr (branchIf_f c u s) r

@[simp] theorem readField_advancePos (k : Nat) (s : State) (r : RegNum) : readField r (advancePos k s) = readField r s := rfl

@[simp] theorem readField_storeAck (off : AbOff) (n : Nat) (v : Word) (s : State) (r : RegNum) :
    readField r (storeAck off n v s) = readField r s := readField_congr (storeAck_f off n v s) r

@[simp] theorem readField_clearAck (s : State) (r : RegNum) : readField r (clearAck s) = readField r s :=
  readField_congr (clearAck_f s) r

@[simp] theorem readField_bumpCounter (s : State) (r : RegNum) : readField r (bumpCounter s) = readField r s := rfl

@[simp] theorem readField_setBatsel (b : Bool) (s : State) (r : RegNum) : readField r (setBatsel b s) = readField r s := rfl

@[simp] theorem readField_setScript (rest : List HostTurn) (s : State) (r : RegNum) :
    readField r (setScript rest s) = readField r s := rfl

@[simp] theorem readField_setAckv (s : State) (r : RegNum) : readField r (setAckv s) = readField r s := rfl

/-! Taking a fault, and the checks that can raise one -/

/-- Taking a fault does what R163 lists. -/
theorem takeTrap_faultTaken (x : Trap) (s : State) : FaultTaken (trapCode x) s (takeTrap x s) := by
  simp [FaultTaken, FieldsKept, AckKept, FrameKept, SessionKept, OutsideKept]

/-- What a legal or illegal micro-operation answers: a next state, its effect or `IllegalOp` taken. -/
theorem ifLegal_eq (i : Instr) (s t effect : State) :
    ifLegal i s effect = .next t ↔
      (i.wf = true ∧ t = effect) ∨ (i.wf = false ∧ t = takeTrap .illegalOp s) := by
  unfold ifLegal
  cases i.wf <;> simp [eq_comm]

theorem ifLegal_of_wf {i : Instr} (h : i.wf = true) (s effect : State) : ifLegal i s effect = .next effect := by
  simp [ifLegal, h]

theorem ifLegal_of_not_wf {i : Instr} (h : i.wf = false) (s effect : State) :
    ifLegal i s effect = .next (takeTrap .illegalOp s) := by
  simp [ifLegal, h]

/-- A source register is read or the fault is taken (R162). -/
theorem withField_cases (r : RegNum) (s : State) (k : Word → State) :
    (∃ v, readField r s = some v ∧ withField r s k = k v) ∨
      (readField r s = none ∧ withField r s k = takeTrap .unwrittenField s) := by
  unfold withField
  cases h : readField r s with
  | none => exact .inr ⟨rfl, rfl⟩
  | some v => exact .inl ⟨v, rfl, rfl⟩

theorem withField_some {r : RegNum} {s : State} {v : Word} (h : readField r s = some v) (k : Word → State) :
    withField r s k = k v := by
  simp [withField, h]

theorem withField_none {r : RegNum} {s : State} (h : readField r s = none) (k : Word → State) :
    withField r s k = takeTrap .unwrittenField s := by
  simp [withField, h]

theorem inFrame_iff (k : Nat) (s : State) : inFrame k s = true ↔ s.pos.toNat + k ≤ s.flen.toNat := by
  simp [inFrame]

/-- A cursor micro-operation has its effect or takes `ShortFrame` (R80). -/
theorem cursorOp_cases (k : Nat) (s : State) (effect : State → State) :
    (s.pos.toNat + k ≤ s.flen.toNat ∧ cursorOp k s effect = nextUpc (effect s)) ∨
      (s.flen.toNat < s.pos.toNat + k ∧ cursorOp k s effect = takeTrap .shortFrame s) := by
  unfold cursorOp
  by_cases h : s.pos.toNat + k ≤ s.flen.toNat
  · exact .inl ⟨h, by simp [(inFrame_iff k s).2 h]⟩
  · have hf : inFrame k s = false := by simpa [inFrame] using h
    exact .inr ⟨by omega, by simp [hf]⟩

theorem cursorOp_fits {k : Nat} {s : State} (h : s.pos.toNat + k ≤ s.flen.toNat) (effect : State → State) :
    cursorOp k s effect = nextUpc (effect s) := by
  simp [cursorOp, (inFrame_iff k s).2 h]

theorem cursorOp_short {k : Nat} {s : State} (h : s.flen.toNat < s.pos.toNat + k) (effect : State → State) :
    cursorOp k s effect = takeTrap .shortFrame s := by
  have hf : inFrame k s = false := by simp [inFrame]; omega
  simp [cursorOp, hf]

/-- The cursor does not wrap when the bounds check passes (R14, R80). -/
theorem advancePos_toNat {k : Nat} {s : State} (h : s.pos.toNat + k ≤ s.flen.toNat) :
    (advancePos k s).pos.toNat = s.pos.toNat + k := by
  have hf := s.flen.isLt
  simp only [advancePos_pos, BitVec.toNat_add, BitVec.toNat_ofNat]
  omega

/-! Stores to AB -/

/-- AB after a store, outside the stored bytes. -/
theorem storeAck_outside (off : AbOff) (n : Nat) (v : Word) (s : State) {a : Nat} (h : ¬ bytesAt off.toNat n a) :
    (storeAck off n v s).ab.read a = s.ab.read a := by
  rw [storeAck_ab]
  exact read_writeLE_outside n s.ab off.toNat v (by unfold bytesAt at h; omega)

/-- AB after a store, at its k-th byte (R7). -/
theorem storeAck_inside {s : State} (hwf : s.ab.wf = true) (off : AbOff) (n : Nat) (v : Word) {k : Nat} (hk : k < n) :
    (storeAck off n v s).ab.read (off.toNat + k) = v.extractLsb' (8 * k) 8 := by
  rw [storeAck_ab]
  exact read_writeLE_inside n off.toNat v k hwf hk

/-- AB after `ABCLR` (R101). -/
theorem clearAck_read {s : State} (hwf : s.ab.wf = true) (a : Nat) :
    (clearAck s).ab.read a = if a < 28 then 0x00 else s.ab.read a := by
  rw [clearAck_ab]
  simpa using read_clear 28 0 a hwf

/-! Values -/

/-- The capacity of FB is between 70 and 65535 (R5). -/
theorem frameMax_bounds : 70 ≤ Config.frameMax ∧ Config.frameMax ≤ 65535 := by
  have := Config.frameMaxAbove.isLt
  unfold Config.frameMax
  omega

/-- The capacity test of LOAD is the comparison with FRAME_MAX (R183). -/
theorem fitsFrame_iff (n : Nat) : fitsFrame n = true ↔ n ≤ Config.frameMax := by
  have := frameMax_bounds
  unfold fitsFrame
  split
  · simp only [true_iff]; omega
  · simp

/-- A bit of an extracted field: inside the field the source's bit, above it 0 (R90). -/
theorem bitField_getLsbD (v : Word) (lsb w i : Nat) :
    (bitField v lsb w).getLsbD i = (decide (i < 32) && (decide (i < w) && v.getLsbD (lsb + i))) := by
  simp [bitField, BitVec.getLsbD_setWidth]

/-- An extracted field as a number: `(v >> lsb) mod 2^w` (R90). -/
theorem bitField_toNat {v : Word} {lsb w : Nat} (h : lsb + w ≤ 32) :
    (bitField v lsb w).toNat = v.toNat / 2 ^ lsb % 2 ^ w := by
  have hlt : v.toNat / 2 ^ lsb % 2 ^ w < 2 ^ 32 :=
    (Nat.mod_lt _ (Nat.two_pow_pos w)).trans_le (Nat.pow_le_pow_right (by decide) (by omega))
  simp only [bitField, BitVec.toNat_setWidth, BitVec.extractLsb'_toNat, Nat.shiftRight_eq_div_pow]
  exact Nat.mod_eq_of_lt hlt

/-- `CAT`'s value as a number: the shifted destination and the low `n` bits of the source (R91). -/
theorem catField_eq (d v : Word) {n : Nat} (h : n ≤ 31) :
    catField d v n = BitVec.ofNat 32 (d.toNat * 2 ^ n % 2 ^ 32 + v.toNat % 2 ^ n) := by
  apply BitVec.eq_of_toNat_eq
  have hb := bitField_toNat (v := v) (lsb := 0) (w := n) (by omega)
  have hlow : v.toNat % 2 ^ n < 2 ^ n := Nat.mod_lt _ (Nat.two_pow_pos _)
  have htop : d.toNat % 2 ^ (32 - n) < 2 ^ (32 - n) := Nat.mod_lt _ (Nat.two_pow_pos _)
  have hpow : (2 : Nat) ^ (32 - n) * 2 ^ n = 2 ^ 32 := by
    rw [← pow_add, show 32 - n + n = 32 by omega]
  have hshift : d.toNat * 2 ^ n % 2 ^ 32 = (d.toNat % 2 ^ (32 - n)) <<< n := by
    rw [Nat.shiftLeft_eq, ← hpow, Nat.mul_mod_mul_right]
  have hle := Nat.mul_le_mul_right (2 ^ n) (Nat.succ_le_of_lt htop)
  rw [catField, BitVec.toNat_or, hb, BitVec.toNat_shiftLeft, Nat.shiftLeft_eq, BitVec.toNat_ofNat, pow_zero, Nat.div_one,
    hshift, ← Nat.shiftLeft_add_eq_or_of_lt hlow, Nat.shiftLeft_eq]
  refine (Nat.mod_eq_of_lt ?_).symm
  rw [hpow, Nat.succ_mul] at hle
  omega

/-- What `BATSEL` writes (R92). -/
theorem batteryTable_iff (v : Word) : batteryTable v = true ↔ v.toNat % 32 = 12 := by
  rw [batteryTable, decide_eq_true_iff, ← BitVec.toNat_inj]
  simp

/-- The condition of `BEQI` (R110). -/
theorem equalsImmediate_iff (v : Word) (value : Byte) : equalsImmediate v value = true ↔ v.toNat = value.toNat := by
  have := value.isLt
  rw [equalsImmediate, decide_eq_true_iff, ← BitVec.toNat_inj, BitVec.toNat_setWidth, Nat.mod_eq_of_lt (by omega)]

/-- A byte below another number's bits: `256 * hi + lo`. -/
theorem append_toNat {n : Nat} (hi : BitVec n) (lo : Byte) : (hi ++ lo).toNat = hi.toNat * 256 + lo.toNat := by
  rw [BitVec.toNat_append, ← Nat.shiftLeft_add_eq_or_of_lt lo.isLt, Nat.shiftLeft_eq]

/-- The value of a one-byte read (R82). -/
theorem zextValue_readLE_one (m : Memory) (a : Nat) : zextValue (m.readLE a 1) = (m.read a).setWidth 32 := by
  apply BitVec.eq_of_toNat_eq
  simp [zextValue, Memory.readLE]

/-- The value of a sign-extended one-byte read (R83). -/
theorem sextByte_readLE_one (m : Memory) (a : Nat) : sextByte (m.readLE a 1) = (m.read a).signExtend 32 := by
  simp [sextByte, Memory.readLE]

/-- The value of a two-byte read (R84). -/
theorem zextValue_readLE_two (m : Memory) (a : Nat) :
    zextValue (m.readLE a 2) = (m.read (a + 1) ++ m.read a).setWidth 32 := by
  apply BitVec.eq_of_toNat_eq
  have h := append_toNat (m.read (a + 1)) (m.read a)
  rw [BitVec.toNat_setWidth, h]
  simp only [zextValue, Memory.readLE, BitVec.toNat_ofNat]
  omega

/-- The value of a three-byte read (R85). -/
theorem zextValue_readLE_three (m : Memory) (a : Nat) :
    zextValue (m.readLE a 3) = (m.read (a + 2) ++ m.read (a + 1) ++ m.read a).setWidth 32 := by
  apply BitVec.eq_of_toNat_eq
  have h1 := append_toNat (m.read (a + 2)) (m.read (a + 1))
  have h2 := append_toNat (m.read (a + 2) ++ m.read (a + 1)) (m.read a)
  rw [BitVec.toNat_setWidth, h2, h1]
  simp only [zextValue, Memory.readLE, BitVec.toNat_ofNat, Nat.add_assoc, Nat.reduceAdd]
  omega

/-- The value of a four-byte read (R86, R87). -/
theorem zextValue_readLE_four (m : Memory) (a : Nat) :
    zextValue (m.readLE a 4) = m.read (a + 3) ++ m.read (a + 2) ++ m.read (a + 1) ++ m.read a := by
  apply BitVec.eq_of_toNat_eq
  have h1 := append_toNat (m.read (a + 3)) (m.read (a + 2))
  have h2 := append_toNat (m.read (a + 3) ++ m.read (a + 2)) (m.read (a + 1))
  have h3 := append_toNat (m.read (a + 3) ++ m.read (a + 2) ++ m.read (a + 1)) (m.read a)
  have := (m.read a).isLt
  have := (m.read (a + 1)).isLt
  have := (m.read (a + 2)).isLt
  have := (m.read (a + 3)).isLt
  refine Eq.trans ?_ h3.symm
  rw [h2, h1]
  simp only [zextValue, Memory.readLE, BitVec.toNat_ofNat, Nat.add_assoc, Nat.reduceAdd]
  omega

/-- The checksum as a number: the sum of the bytes modulo 256 (R105). -/
theorem memory_sum_toNat (m : Memory) :
    ∀ n a : Nat, (m.sum a n).toNat = (∑ i ∈ Finset.Ico a (a + n), (m.read i).toNat) % 256
  | 0, a => by simp [Memory.sum]
  | n + 1, a => by
    rw [Memory.sum, BitVec.toNat_add, memory_sum_toNat m n (a + 1),
      Finset.sum_eq_sum_Ico_succ_bot (a := a) (show a < a + (n + 1) by omega), show a + 1 + n = a + (n + 1) by omega]
    omega

end Sys2Proof.Laws
end

