-- ==== Sys2Proof/Laws/Exec.lean ====
section
/-! SUPPORT. What one micro-operation can do, said once for all 22 (R7, R80 to R113, R160 to R163). -/

set_option Elab.async false

namespace Sys2Proof.Laws

open Sys2Proof.Machine

/-- What a legal micro-operation does when it takes no fault: the updates it makes, by its shape. -/
def Effect (i : Instr) (s t : State) : Prop :=
  (∃ n, i = .skip n ∧ s.pos.toNat + n.toNat ≤ s.flen.toNat ∧ t = nextUpc (advancePos n.toNat s)) ∨
  (∃ k fd v, cursorBytes i = some k ∧ fd.toNat ≤ 34 ∧ s.pos.toNat + k ≤ s.flen.toNat ∧
    t = nextUpc (advancePos k (writeField fd v s))) ∨
  (∃ fd v, fd.toNat ≤ 34 ∧ ((i = .pku8 fd ∧ s.pos.toNat + 1 ≤ s.flen.toNat) ∨ cursorBytes i = none) ∧
    t = nextUpc (writeField fd v s)) ∨
  (∃ fs v, i = .batsel fs ∧ readField fs s = some v ∧ t = nextUpc (setBatsel (batteryTable v) s)) ∨
  (i = .abclr ∧ t = nextUpc (clearAck s)) ∨
  (∃ (off : AbOff) (n : Nat) (v : Word), cursorBytes i = none ∧ off.toNat + n ≤ 28 ∧ t = nextUpc (storeAck off n v s)) ∨
  (∃ off, i = .abcnt off ∧ off.toNat + 1 ≤ 28 ∧
    t = nextUpc (bumpCounter (storeAck off 1 (s.cmdcnt.setWidth 32) s))) ∨
  (i = .emit ∧ t = nextUpc (setAckv s)) ∨
  (∃ c target, branchTarget i = some target ∧ t = branchIf c target s) ∨
  (∃ code, i = .halt code ∧ haltCodeOk code = true ∧ t = endRun (haltResult code) s)

/-- A source register whose valid bit is 0. -/
def SourceUnwritten (i : Instr) (s : State) : Prop := ∃ r, r ∈ sourceFields i ∧ readField r s = none

/-- A cursor micro-operation that would read past FLEN. -/
def PastEnd (i : Instr) (s : State) : Prop := ∃ k, cursorBytes i = some k ∧ s.flen.toNat < s.pos.toNat + k

/-- A meaning whose legal effect is one of the four ends below ends in that end. -/
theorem ends_ifLegal {i : Instr} {s effect : State}
    (h : i.wf = true →
      (PastEnd i s ∧ effect = takeTrap .shortFrame s) ∨ (SourceUnwritten i s ∧ effect = takeTrap .unwrittenField s) ∨
        Effect i s effect) :
    ∃ t, ifLegal i s effect = .next t ∧
      ((i.wf = false ∧ t = takeTrap .illegalOp s) ∨
        (i.wf = true ∧ PastEnd i s ∧ t = takeTrap .shortFrame s) ∨
        (i.wf = true ∧ SourceUnwritten i s ∧ t = takeTrap .unwrittenField s) ∨
        (i.wf = true ∧ Effect i s t)) := by
  rcases Bool.eq_false_or_eq_true i.wf with hw | hw
  · refine ⟨effect, ifLegal_of_wf hw s effect, .inr ?_⟩
    rcases h hw with ⟨h1, h2⟩ | ⟨h1, h2⟩ | h1
    · exact .inl ⟨hw, h1, h2⟩
    · exact .inr (.inl ⟨hw, h1, h2⟩)
    · exact .inr (.inr ⟨hw, h1⟩)
  · exact ⟨_, ifLegal_of_not_wf hw s effect, .inl ⟨hw, rfl⟩⟩

/-- An advancing read. -/
theorem ends_cursorRead {i : Instr} {k : Nat} (hk : cursorBytes i = some k) (value : Nat → Word) {fd : RegNum}
    (hfd : fd.toNat ≤ 34) (s : State) :
    (PastEnd i s ∧ cursorRead k value fd s = takeTrap .shortFrame s) ∨
      (SourceUnwritten i s ∧ cursorRead k value fd s = takeTrap .unwrittenField s) ∨
      Effect i s (cursorRead k value fd s) := by
  rcases cursorOp_cases k s fun s => advancePos k (writeField fd (value (frameRead k s)) s) with ⟨h, he⟩ | ⟨h, he⟩
  · exact .inr (.inr (.inr (.inl ⟨k, fd, _, hk, hfd, h, he⟩)))
  · exact .inl ⟨⟨k, hk, h⟩, he⟩

/-- An operation on a source register. -/
theorem ends_withField {i : Instr} {fs : RegNum} (hfs : fs ∈ sourceFields i) {s : State} {k : Word → State}
    (h : ∀ v, readField fs s = some v → Effect i s (k v)) :
    (PastEnd i s ∧ withField fs s k = takeTrap .shortFrame s) ∨
      (SourceUnwritten i s ∧ withField fs s k = takeTrap .unwrittenField s) ∨ Effect i s (withField fs s k) := by
  rcases withField_cases fs s k with ⟨v, hv, he⟩ | ⟨hn, he⟩
  · rw [he]
    exact .inr (.inr (h v hv))
  · exact .inr (.inl ⟨⟨fs, hfs, hn⟩, he⟩)

/-- Every micro-operation answers a next state: `IllegalOp` for operands out of range, `ShortFrame`, `UnwrittenField`,
or its own effect. -/
theorem exec_cases (i : Instr) (s : State) :
    ∃ t, exec i s = .next t ∧
      ((i.wf = false ∧ t = takeTrap .illegalOp s) ∨
        (i.wf = true ∧ PastEnd i s ∧ t = takeTrap .shortFrame s) ∨
        (i.wf = true ∧ SourceUnwritten i s ∧ t = takeTrap .unwrittenField s) ∨
        (i.wf = true ∧ Effect i s t)) := by
  cases i
  case skip n =>
    refine ends_ifLegal fun _ => ?_
    rcases cursorOp_cases n.toNat s (advancePos n.toNat) with ⟨h, he⟩ | ⟨h, he⟩
    · exact .inr (.inr (.inl ⟨n, rfl, h, he⟩))
    · exact .inl ⟨⟨_, rfl, h⟩, he⟩
  case rdu8 fd | rdi8 fd | rdu16 fd | rdu24 fd | rdu32 fd | rdi32 fd =>
    exact ends_ifLegal fun hw => ends_cursorRead rfl _ (by simpa [Instr.wf, regOk] using hw) s
  case pku8 fd =>
    refine ends_ifLegal fun hw => ?_
    rcases cursorOp_cases 1 s fun s => writeField fd (zextValue (frameRead 1 s)) s with ⟨h, he⟩ | ⟨h, he⟩
    · exact .inr (.inr (.inr (.inr (.inl ⟨fd, _, by simpa [Instr.wf, regOk] using hw, .inl ⟨rfl, h⟩, he⟩))))
    · exact .inl ⟨⟨_, rfl, h⟩, he⟩
  case ext fd fs lsb w =>
    refine ends_ifLegal fun hw => ends_withField (by simp [sourceFields]) fun v _ => ?_
    have hfd : fd.toNat ≤ 34 := by simp [Instr.wf, regOk] at hw; omega
    exact .inr (.inr (.inl ⟨fd, _, hfd, .inr rfl, rfl⟩))
  case cat fd fs n =>
    refine ends_ifLegal fun hw => ?_
    have hfd : fd.toNat ≤ 34 := by simp [Instr.wf, regOk] at hw; omega
    rcases withField_cases fd s fun d => withField fs s fun v => nextUpc (writeField fd (catField d v n.toNat) s)
      with ⟨d, _, he⟩ | ⟨hn, he⟩
    · rw [he]
      exact ends_withField (by simp [sourceFields]) fun v _ => .inr (.inr (.inl ⟨fd, _, hfd, .inr rfl, rfl⟩))
    · exact .inr (.inl ⟨⟨fd, by simp [sourceFields], hn⟩, he⟩)
  case batsel fs =>
    exact ends_ifLegal fun _ => ends_withField (by simp [sourceFields]) fun v hv =>
      .inr (.inr (.inr (.inl ⟨fs, v, rfl, hv, rfl⟩)))
  case abclr =>
    exact ends_ifLegal fun _ => .inr (.inr (.inr (.inr (.inr (.inr (.inl ⟨rfl, rfl⟩))))))
  case abi off byte =>
    refine ends_ifLegal fun hw => .inr (.inr (.inr (.inr (.inr (.inr (.inr (.inl ⟨off, 1, _, rfl, ?_, rfl⟩)))))))
    simp [Instr.wf, abOffOk] at hw; omega
  case abb off fs =>
    refine ends_ifLegal fun hw => ends_withField (by simp [sourceFields]) fun v _ =>
      .inr (.inr (.inr (.inr (.inr (.inl ⟨off, 1, v, rfl, ?_, rfl⟩)))))
    simp [Instr.wf, abOffOk] at hw; omega
  case abw32 off fs =>
    refine ends_ifLegal fun hw => ends_withField (by simp [sourceFields]) fun v _ =>
      .inr (.inr (.inr (.inr (.inr (.inl ⟨off, 4, v, rfl, ?_, rfl⟩)))))
    simp [Instr.wf, abOff32Ok] at hw; omega
  case abcnt off =>
    refine ends_ifLegal fun hw =>
      .inr (.inr (.inr (.inr (.inr (.inr (.inr (.inr (.inl ⟨off, rfl, ?_, rfl⟩))))))))
    simp [Instr.wf, abOffOk] at hw; omega
  case cksum dst lo hi =>
    refine ends_ifLegal fun hw => .inr (.inr (.inr (.inr (.inr (.inr (.inr (.inl ⟨dst, 1, _, rfl, ?_, rfl⟩)))))))
    simp [Instr.wf, abOffOk] at hw; omega
  case emit =>
    exact ends_ifLegal fun _ =>
      .inr (.inr (.inr (.inr (.inr (.inr (.inr (.inr (.inr (.inl ⟨rfl, rfl⟩)))))))))
  case beqi fs value target =>
    exact ends_ifLegal fun _ => ends_withField (by simp [sourceFields]) fun _ _ =>
      .inr (.inr (.inr (.inr (.inr (.inr (.inr (.inr (.inl ⟨_, target, rfl, rfl⟩))))))))
  case bnchan target =>
    exact ends_ifLegal fun _ =>
      .inr (.inr (.inr (.inr (.inr (.inr (.inr (.inr (.inr (.inr (.inl ⟨_, target, rfl, rfl⟩))))))))))
  case bnsess fs target =>
    exact ends_ifLegal fun _ => ends_withField (by simp [sourceFields]) fun _ _ =>
      .inr (.inr (.inr (.inr (.inr (.inr (.inr (.inr (.inl ⟨_, target, rfl, rfl⟩))))))))
  case halt code =>
    exact ends_ifLegal fun hw =>
      .inr (.inr (.inr (.inr (.inr (.inr (.inr (.inr (.inr (.inr (.inr ⟨code, rfl, hw, rfl⟩))))))))))

end Sys2Proof.Laws
end

