-- ==== Sys2Proof/Laws/Host.lean ====
section
/-! SUPPORT. What the host actions do, one lemma per case of each action. -/

namespace Sys2Proof.Laws

open Sys2Proof.Machine

/-- START while RUN = 1 is refused (R184). -/
theorem hostStart_running {s : State} (h : s.run = true) : hostStart s = s := by
  simp [hostStart, h]

/-- START while RUN = 0 (R184). -/
theorem hostStart_stopped {s : State} (h : s.run = false) :
    hostStart s = { s with f := fieldsCleared, pos := 0, upc := 0, ackv := false, result := 0, run := true } := by
  simp [hostStart, h]

/-- After START no field register but F0 holds a value (R184). -/
theorem readField_cleared {t : State} (h : t.f = fieldsCleared) {r : RegNum} (hr : r ≠ 0#6) : readField r t = none := by
  unfold readField
  rw [if_neg hr, h, fieldsCleared]
  by_cases hlt : r.toNat - 1 < 34
  · simp [hlt]
  · simp [Vector.getElem?_eq_none (xs := Vector.replicate 34 (none : Option Word)) (i := r.toNat - 1) (by omega)]

/-- LOAD while RUN = 1 is refused (R183). -/
theorem hostLoad_running {s : State} (h : s.run = true) (bytes : List Byte) (chan : Bool) :
    hostLoad bytes chan s = s := by
  simp [hostLoad, h]

/-- LOAD of a frame longer than FRAME_MAX is refused (R183). -/
theorem hostLoad_long {s : State} {bytes : List Byte} (h : Config.frameMax < bytes.length) (chan : Bool) :
    hostLoad bytes chan s = s := by
  have hf : fitsFrame bytes.length = false := by
    rw [Bool.eq_false_iff, ne_eq, fitsFrame_iff]
    omega
  simp [hostLoad, hf]

/-- LOAD of a frame that fits, while RUN = 0 (R183). -/
theorem hostLoad_accepted {s : State} (hrun : s.run = false) {bytes : List Byte}
    (h : bytes.length ≤ Config.frameMax) (chan : Bool) :
    hostLoad bytes chan s =
      { s with fb := s.fb.writeBytes 0 bytes, flen := BitVec.ofNat 16 bytes.length, chan := chan } := by
  simp [hostLoad, hrun, (fitsFrame_iff _).2 h]

/-- The registry's answers change only while RUN = 0 (log 6). -/
theorem setRegistry_running {s : State} (h : s.run = true) (known : List Word) : setRegistry known s = s := by
  simp [setRegistry, h]

/-- READ writes what the host has read and counts a read without a defined value; nothing else (R185). -/
theorem hostRead_eq (item : ReadItem) (s : State) :
    hostRead item s =
      if s.run && !readableWhileRunning item then
        { s with hostData := Config.undefinedRead s.freeCount, freeCount := s.freeCount + 1 }
      else { s with hostData := itemValue item s } := rfl

/-- FB and AB have the canonical form after reset. -/
theorem reset_memory_wf : State.reset.fb.wf = true ∧ State.reset.ab.wf = true := ⟨rfl, rfl⟩

end Sys2Proof.Laws
end

