-- ==== Sys2Proof/Laws/HostSide.lean ====
section
/-! SUPPORT. What the host's Position says of the unit it was built from. -/

namespace Sys2Proof.Laws

open Sys2Proof.Machine

/-- A Position is built only from a unit whose REASON is written, and its alarm is the mapper's string of REASON's low
byte (R140, R147). -/
theorem hostPosition_alarm {s : State} {p : Position} (h : hostPosition s = some p) :
    ∃ reason, readField 12 s = some reason ∧ p.alarm = reasonString (reason.setWidth 8) := by
  unfold hostPosition at h
  split at h
  · repeat
      first
        | cases h; done
        | (obtain ⟨_, _, h'⟩ := Option.bind_eq_some_iff.mp h; clear h; rename' h' => h)
    cases h
    exact ⟨_, ‹readField 12 s = some _›, rfl⟩
  · cases h

end Sys2Proof.Laws
end

