-- ==== Sys2Proof/Laws/Step.lean ====
section
/-! SUPPORT. What one step can be: the sequencer's step, a host turn, or none (R188; log 7). -/

namespace Sys2Proof.Laws

open Sys2Proof.Machine

theorem sequencerStep_legal {s : State} {i : Instr} (h : decode (fetch s) = .legal i) : sequencerStep s = exec i s := by
  simp [sequencerStep, h]

theorem sequencerStep_illegal {s : State} {why : IllegalWord} (h : decode (fetch s) = .illegal why) :
    sequencerStep s = .next (takeTrap .illegalOp s) := by
  simp [sequencerStep, h]

/-- The sequencer's step is a micro-operation's meaning or `IllegalOp` (R188). -/
theorem sequencerStep_cases (s : State) :
    (∃ i, decode (fetch s) = .legal i ∧ sequencerStep s = exec i s) ∨
      sequencerStep s = .next (takeTrap .illegalOp s) := by
  cases h : decode (fetch s) with
  | legal i => exact .inl ⟨i, rfl, sequencerStep_legal h⟩
  | illegal why => exact .inr (sequencerStep_illegal h)

theorem unitStep_running {s : State} (h : s.run = true) : unitStep s = sequencerStep s := by
  simp [unitStep, h]

theorem unitStep_stopped {s : State} (h : s.run = false) : unitStep s = .next s := by
  simp [unitStep, h]

/-- Taking no turn changes nothing. -/
@[simp] theorem setScript_self (s : State) : setScript s.script s = s := rfl

/-- Whose turn a step is: the sequencer's, no one's, the host's, or the registry's. -/
theorem step_cases (s : State) :
    (∃ rest, SequencerTurn s ∧ step s = sequencerStep (setScript rest s)) ∨
      (∃ rest, s.run = false ∧ step s = .next (setScript rest s)) ∨
      (∃ a rest, s.script = .act a :: rest ∧ step s = .next (applyHost a (setScript rest s))) ∨
      (∃ known rest, s.script = .registry known :: rest ∧
        step s = .next (setRegistry known (setScript rest s))) := by
  unfold step turnStep
  rcases Bool.eq_false_or_eq_true s.run with hrun | hrun
  · split
    · rename_i hs
      exact .inl ⟨s.script, ⟨hrun, .inl hs⟩, unitStep_running hrun⟩
    · rename_i rest hs
      exact .inl ⟨rest, ⟨hrun, .inr (.inr ⟨rest, hs⟩)⟩, unitStep_running hrun⟩
    · rename_i rest hs
      exact .inl ⟨s.script, ⟨hrun, .inr (.inl ⟨rest, hs⟩)⟩, if_pos hrun⟩
    · rename_i a rest hs
      exact .inr (.inr (.inl ⟨a, rest, hs, rfl⟩))
    · rename_i known rest hs
      exact .inr (.inr (.inr ⟨known, rest, hs, rfl⟩))
  · split
    · exact .inr (.inl ⟨s.script, hrun, unitStep_stopped hrun⟩)
    · rename_i rest _
      exact .inr (.inl ⟨rest, hrun, unitStep_stopped hrun⟩)
    · rename_i rest _
      exact .inr (.inl ⟨rest, hrun, if_neg (by simp [hrun])⟩)
    · rename_i a rest hs
      exact .inr (.inr (.inl ⟨a, rest, hs, rfl⟩))
    · rename_i known rest hs
      exact .inr (.inr (.inr ⟨known, rest, hs, rfl⟩))

end Sys2Proof.Laws
end

