-- ==== Sys2Proof/Laws/MicroRom.lean ====
section
/-! SUPPORT. The micro-ROM as micro-operations: the assembler column of `spec/45_frame_program.md` R120, that its
words decode to it, and a run of steps over it. -/

set_option Elab.async false

namespace Sys2Proof.Laws

open Sys2Proof.Machine

/-- Addresses 0 to 6 of the listing. -/
def listingHeader : List Instr :=
  [ .skip 4
  , .rdu8 1
  , .rdu32 2
  , .beqi 1 8 5
  , .rdu16 0
  , .rdi8 3
  , .bnchan 18 ]

/-- Addresses 7 to 17. -/
def listingAck : List Instr :=
  [ .abclr
  , .abi 0 0x4d
  , .abi 1 0x43
  , .abi 2 0x47
  , .abi 3 0x50
  , .abi 4 0x04
  , .abw32 5 2
  , .abcnt 9
  , .abb 15 3
  , .cksum 27 4 26
  , .emit ]

/-- Addresses 18 to 20. -/
def listingRoute : List Instr :=
  [ .beqi 1 0 20
  , .halt 2
  , .bnsess 2 59 ]

/-- Addresses 21 to 38. -/
def listingPayload1 : List Instr :=
  [ .rdu8 4
  , .batsel 4
  , .rdu8 5
  , .rdu8 6
  , .rdu8 7
  , .pku8 8
  , .ext 9 8 0 4
  , .rdu8 10
  , .rdu8 11
  , .rdu8 0
  , .rdu8 12
  , .rdu8 13
  , .rdu32 14
  , .rdu8 15
  , .rdu8 16
  , .skip 3
  , .rdu24 17
  , .skip 6 ]

/-- Addresses 39 to 54. -/
def listingPayload2 : List Instr :=
  [ .rdu16 18
  , .rdu8 19
  , .rdu8 20
  , .rdu8 21
  , .rdu8 22
  , .rdi32 23
  , .rdi32 24
  , .rdi32 25
  , .rdi32 26
  , .rdu16 27
  , .rdu8 28
  , .rdu8 29
  , .rdu8 30
  , .rdu8 31
  , .rdu8 32
  , .rdu16 33 ]

/-- Addresses 55 to 59. -/
def listingTail : List Instr :=
  [ .ext 34 10 4 4
  , .cat 34 11 8
  , .cat 34 15 8
  , .halt 1
  , .halt 3 ]

/-- The 60 micro-operations of R120, in address order. -/
def romListing : List Instr :=
  listingHeader ++ listingAck ++ listingRoute ++ listingPayload1 ++ listingPayload2 ++ listingTail

theorem decode_romHeader : romHeader.map decode = listingHeader.map Decoded.legal := by decide

theorem decode_romAck : romAck.map decode = listingAck.map Decoded.legal := by decide

theorem decode_romRoute : romRoute.map decode = listingRoute.map Decoded.legal := by decide

theorem decode_romPayload1 : romPayload1.map decode = listingPayload1.map Decoded.legal := by decide

theorem decode_romPayload2 : romPayload2.map decode = listingPayload2.map Decoded.legal := by decide

theorem decode_romTail : romTail.map decode = listingTail.map Decoded.legal := by decide

/-- Each of the 60 words decodes to the micro-operation beside it (R120). -/
theorem decode_microRom (k : Fin 64) (i : Instr) (h : romListing[k.val]? = some i) : decode (microRom.get k) = .legal i := by
  have hall : (romHeader ++ romAck ++ romRoute ++ romPayload1 ++ romPayload2 ++ romTail).map decode =
      romListing.map Decoded.legal := by
    simp only [List.map_append, decode_romHeader, decode_romAck, decode_romRoute, decode_romPayload1, decode_romPayload2,
      decode_romTail, romListing]
  have hk : k.val < 60 := by
    obtain ⟨hlt, _⟩ := List.getElem?_eq_some_iff.1 h
    exact hlt
  have hlen : (romHeader ++ romAck ++ romRoute ++ romPayload1 ++ romPayload2 ++ romTail).length = 60 := rfl
  have hw := congrArg (fun l => l[k.val]?) hall
  simp only [List.getElem?_map, h, Option.map_some] at hw
  obtain ⟨w, hw1, hw2⟩ := Option.map_eq_some_iff.1 hw
  have hget : microRom.get k = w := by
    have : romWords[k.val]? = some w := by
      rw [romWords, List.getElem?_append_left (by rw [hlen]; exact hk), hw1]
    simp only [microRom, Vector.get, Vector.toArray_ofFn, Array.getElem_ofFn, List.getD]
    exact congrArg (fun o => o.getD 0x00000000) this
  rw [hget, hw2]

/-- One step of a running unit over the ROM of R120, as the first of a run of steps. -/
theorem run_microRom {s t : State} {i : Instr} (hrun : s.run = true) (hscript : s.script = []) (hrom : s.urom = microRom)
    (hi : romListing[s.upc.toNat]? = some i) (he : exec i s = .next t) (k : Nat) :
    Host.Core.run Sys2Proof.core (k + 1) s = Host.Core.run Sys2Proof.core k t := by
  have hd : decode (fetch s) = .legal i := by
    rw [fetch, hrom]
    exact decode_microRom s.upc.toFin i hi
  have hs : Sys2Proof.core.step s = .next t := by
    show step s = .next t
    unfold step turnStep
    rw [hscript]
    exact (unitStep_running hrun).trans ((sequencerStep_legal hd).trans he)
  simp only [Host.Core.run, hs]

/-- Steps of a stopped unit with no host turn pending leave it as it is (log 11). -/
theorem run_stopped {s : State} (hrun : s.run = false) (hscript : s.script = []) :
    ∀ k : Nat, Host.Core.run Sys2Proof.core k s = .next s
  | 0 => rfl
  | k + 1 => by
    have hs : Sys2Proof.core.step s = .next s := by
      show step s = .next s
      unfold step turnStep
      rw [hscript]
      exact unitStep_stopped hrun
    simp only [Host.Core.run, hs]
    exact run_stopped hrun hscript k

end Sys2Proof.Laws
end

