-- ==== Sys2Proof/Laws/PerInstr.lean ====
section
/-! SUPPORT. A fact of every micro-operation as syntax: its word stands in its own row of the opcode map (R63), read with
its own operands, whatever the operands are. -/

set_option Elab.async false

namespace Sys2Proof.Laws.EncodedInItsRow

/-- The word of `i` selects a row of R63, the row reads `i` back, and the word matches the row's mask and match. -/
def Statement (i : Instr) : Prop :=
  ∃ row, opRow (encodeFields i) = some row ∧ row.instr = i ∧ encode i &&& row.mask = row.value

/-- A word of given fields matches a mask and a match when each field does. -/
theorem masked (f : Fields) (mask value : Word)
    (h : (⟨f.op &&& (fieldsOf mask).op, f.ra &&& (fieldsOf mask).ra, f.rb &&& (fieldsOf mask).rb,
      f.rc &&& (fieldsOf mask).rc, f.imm &&& (fieldsOf mask).imm⟩ : Fields) = fieldsOf value) :
    wordOf f &&& mask = value := by
  rw [← wordOf_fieldsOf mask, wordOf_and, h, wordOf_fieldsOf]

theorem skip (n : Byte) : Statement (.skip n) := by
  refine ⟨⟨0xFFFFFF00, 0x04000000, .skip n⟩, rfl, rfl, ?_⟩
  show wordOf _ &&& 0xFFFFFF00 = 0x04000000
  refine masked _ 0xFFFFFF00 0x04000000 ?_
  simp [encodeFields, fieldsOf]

theorem rdu8 (fd : RegNum) : Statement (.rdu8 fd) := by
  refine ⟨⟨0xFC0FFFFF, 0x08000000, .rdu8 fd⟩, rfl, rfl, ?_⟩
  show wordOf _ &&& 0xFC0FFFFF = 0x08000000
  refine masked _ 0xFC0FFFFF 0x08000000 ?_
  simp [encodeFields, fieldsOf]

theorem rdi8 (fd : RegNum) : Statement (.rdi8 fd) := by
  refine ⟨⟨0xFC0FFFFF, 0x0C000000, .rdi8 fd⟩, rfl, rfl, ?_⟩
  show wordOf _ &&& 0xFC0FFFFF = 0x0C000000
  refine masked _ 0xFC0FFFFF 0x0C000000 ?_
  simp [encodeFields, fieldsOf]

theorem rdu16 (fd : RegNum) : Statement (.rdu16 fd) := by
  refine ⟨⟨0xFC0FFFFF, 0x10000000, .rdu16 fd⟩, rfl, rfl, ?_⟩
  show wordOf _ &&& 0xFC0FFFFF = 0x10000000
  refine masked _ 0xFC0FFFFF 0x10000000 ?_
  simp [encodeFields, fieldsOf]

theorem rdu24 (fd : RegNum) : Statement (.rdu24 fd) := by
  refine ⟨⟨0xFC0FFFFF, 0x14000000, .rdu24 fd⟩, rfl, rfl, ?_⟩
  show wordOf _ &&& 0xFC0FFFFF = 0x14000000
  refine masked _ 0xFC0FFFFF 0x14000000 ?_
  simp [encodeFields, fieldsOf]

theorem rdu32 (fd : RegNum) : Statement (.rdu32 fd) := by
  refine ⟨⟨0xFC0FFFFF, 0x18000000, .rdu32 fd⟩, rfl, rfl, ?_⟩
  show wordOf _ &&& 0xFC0FFFFF = 0x18000000
  refine masked _ 0xFC0FFFFF 0x18000000 ?_
  simp [encodeFields, fieldsOf]

theorem rdi32 (fd : RegNum) : Statement (.rdi32 fd) := by
  refine ⟨⟨0xFC0FFFFF, 0x1C000000, .rdi32 fd⟩, rfl, rfl, ?_⟩
  show wordOf _ &&& 0xFC0FFFFF = 0x1C000000
  refine masked _ 0xFC0FFFFF 0x1C000000 ?_
  simp [encodeFields, fieldsOf]

theorem pku8 (fd : RegNum) : Statement (.pku8 fd) := by
  refine ⟨⟨0xFC0FFFFF, 0x20000000, .pku8 fd⟩, rfl, rfl, ?_⟩
  show wordOf _ &&& 0xFC0FFFFF = 0x20000000
  refine masked _ 0xFC0FFFFF 0x20000000 ?_
  simp [encodeFields, fieldsOf]

theorem ext (fd fs : RegNum) (lsb : BitVec 6) (w : Byte) : Statement (.ext fd fs lsb w) := by
  refine ⟨⟨0xFC000000, 0x40000000, .ext fd fs lsb w⟩, rfl, rfl, ?_⟩
  show wordOf _ &&& 0xFC000000 = 0x40000000
  refine masked _ 0xFC000000 0x40000000 ?_
  simp [encodeFields, fieldsOf]

theorem cat (fd fs : RegNum) (n : Byte) : Statement (.cat fd fs n) := by
  refine ⟨⟨0xFC003F00, 0x44000000, .cat fd fs n⟩, rfl, rfl, ?_⟩
  show wordOf _ &&& 0xFC003F00 = 0x44000000
  refine masked _ 0xFC003F00 0x44000000 ?_
  simp [encodeFields, fieldsOf]

theorem batsel (fs : RegNum) : Statement (.batsel fs) := by
  refine ⟨⟨0xFFF03FFF, 0x48000000, .batsel fs⟩, rfl, rfl, ?_⟩
  show wordOf _ &&& 0xFFF03FFF = 0x48000000
  refine masked _ 0xFFF03FFF 0x48000000 ?_
  simp [encodeFields, fieldsOf]

theorem abclr : Statement .abclr := by
  refine ⟨⟨0xFFFFFFFF, 0x80000000, .abclr⟩, rfl, rfl, ?_⟩
  show wordOf _ &&& 0xFFFFFFFF = 0x80000000
  refine masked _ 0xFFFFFFFF 0x80000000 ?_
  simp [encodeFields, fieldsOf]

theorem abi (off : AbOff) (byte : Byte) : Statement (.abi off byte) := by
  refine ⟨⟨0xFC0FFF00, 0x84000000, .abi off byte⟩, rfl, rfl, ?_⟩
  show wordOf _ &&& 0xFC0FFF00 = 0x84000000
  refine masked _ 0xFC0FFF00 0x84000000 ?_
  simp [encodeFields, fieldsOf]

theorem abb (off : AbOff) (fs : RegNum) : Statement (.abb off fs) := by
  refine ⟨⟨0xFC003FFF, 0x88000000, .abb off fs⟩, rfl, rfl, ?_⟩
  show wordOf _ &&& 0xFC003FFF = 0x88000000
  refine masked _ 0xFC003FFF 0x88000000 ?_
  simp [encodeFields, fieldsOf]

theorem abw32 (off : AbOff) (fs : RegNum) : Statement (.abw32 off fs) := by
  refine ⟨⟨0xFC003FFF, 0x8C000000, .abw32 off fs⟩, rfl, rfl, ?_⟩
  show wordOf _ &&& 0xFC003FFF = 0x8C000000
  refine masked _ 0xFC003FFF 0x8C000000 ?_
  simp [encodeFields, fieldsOf]

theorem abcnt (off : AbOff) : Statement (.abcnt off) := by
  refine ⟨⟨0xFC0FFFFF, 0x90000000, .abcnt off⟩, rfl, rfl, ?_⟩
  show wordOf _ &&& 0xFC0FFFFF = 0x90000000
  refine masked _ 0xFC0FFFFF 0x90000000 ?_
  simp [encodeFields, fieldsOf]

theorem cksum (dst lo hi : AbOff) : Statement (.cksum dst lo hi) := by
  refine ⟨⟨0xFC0000FF, 0x94000000, .cksum dst lo hi⟩, rfl, rfl, ?_⟩
  show wordOf _ &&& 0xFC0000FF = 0x94000000
  refine masked _ 0xFC0000FF 0x94000000 ?_
  simp [encodeFields, fieldsOf]

theorem emit : Statement .emit := by
  refine ⟨⟨0xFFFFFFFF, 0x98000000, .emit⟩, rfl, rfl, ?_⟩
  show wordOf _ &&& 0xFFFFFFFF = 0x98000000
  refine masked _ 0xFFFFFFFF 0x98000000 ?_
  simp [encodeFields, fieldsOf]

theorem beqi (fs : RegNum) (value : Byte) (target : RomIndex) : Statement (.beqi fs value target) := by
  refine ⟨⟨0xFC003F00, 0xC0000000, .beqi fs value target⟩, rfl, rfl, ?_⟩
  show wordOf _ &&& 0xFC003F00 = 0xC0000000
  refine masked _ 0xFC003F00 0xC0000000 ?_
  simp [encodeFields, fieldsOf]

theorem bnchan (target : RomIndex) : Statement (.bnchan target) := by
  refine ⟨⟨0xFFF03FFF, 0xC4000000, .bnchan target⟩, rfl, rfl, ?_⟩
  show wordOf _ &&& 0xFFF03FFF = 0xC4000000
  refine masked _ 0xFFF03FFF 0xC4000000 ?_
  simp [encodeFields, fieldsOf]

theorem bnsess (fs : RegNum) (target : RomIndex) : Statement (.bnsess fs target) := by
  refine ⟨⟨0xFC003FFF, 0xC8000000, .bnsess fs target⟩, rfl, rfl, ?_⟩
  show wordOf _ &&& 0xFC003FFF = 0xC8000000
  refine masked _ 0xFC003FFF 0xC8000000 ?_
  simp [encodeFields, fieldsOf]

theorem halt (code : Byte) : Statement (.halt code) := by
  refine ⟨⟨0xFFFFFF00, 0xCC000000, .halt code⟩, rfl, rfl, ?_⟩
  show wordOf _ &&& 0xFFFFFF00 = 0xCC000000
  refine masked _ 0xFFFFFF00 0xCC000000 ?_
  simp [encodeFields, fieldsOf]

/-- Every micro-operation's word stands in its row. -/
theorem all (i : Instr) : Statement i := by
  cases i
  case skip n => exact EncodedInItsRow.skip n
  case rdu8 fd => exact EncodedInItsRow.rdu8 fd
  case rdi8 fd => exact EncodedInItsRow.rdi8 fd
  case rdu16 fd => exact EncodedInItsRow.rdu16 fd
  case rdu24 fd => exact EncodedInItsRow.rdu24 fd
  case rdu32 fd => exact EncodedInItsRow.rdu32 fd
  case rdi32 fd => exact EncodedInItsRow.rdi32 fd
  case pku8 fd => exact EncodedInItsRow.pku8 fd
  case ext fd fs lsb w => exact EncodedInItsRow.ext fd fs lsb w
  case cat fd fs n => exact EncodedInItsRow.cat fd fs n
  case batsel fs => exact EncodedInItsRow.batsel fs
  case abclr => exact EncodedInItsRow.abclr
  case abi off byte => exact EncodedInItsRow.abi off byte
  case abb off fs => exact EncodedInItsRow.abb off fs
  case abw32 off fs => exact EncodedInItsRow.abw32 off fs
  case abcnt off => exact EncodedInItsRow.abcnt off
  case cksum dst lo hi => exact EncodedInItsRow.cksum dst lo hi
  case emit => exact EncodedInItsRow.emit
  case beqi fs value target => exact EncodedInItsRow.beqi fs value target
  case bnchan target => exact EncodedInItsRow.bnchan target
  case bnsess fs target => exact EncodedInItsRow.bnsess fs target
  case halt code => exact EncodedInItsRow.halt code

end Sys2Proof.Laws.EncodedInItsRow
end

