-- ==== Sys2Proof/Tests/Slice0.lean ====
section
/-! SUPPORT. Tests: well-formedness, decoding, one step of each micro-operation on the spec's own vectors, and for every
statement with hypotheses a state and operands that meet them (`test_witness_…`). -/

set_option Elab.async false
set_option maxRecDepth 4000

namespace Sys2Proof.Tests

open Sys2Proof.Machine

/-! WellFormed: an ill-formed term for each check of R66, and the values beside it that are well formed. -/

theorem test_wf_register_number :
    Instr.wf (.rdu8 34) = true ∧ Instr.wf (.batsel 0) = true ∧ Instr.wf (.rdu8 35) = false ∧ Instr.wf (.pku8 63) = false ∧ Instr.wf (.ext 1 35 0 4) = false ∧ Instr.wf (.cat 35 1 8) = false ∧ Instr.wf (.beqi 35 0 0) = false := by decide

theorem test_wf_register_number_of_others :
    Instr.wf (.abb 15 34) = true ∧ Instr.wf (.bnsess 34 59) = true ∧ Instr.wf (.abb 15 35) = false ∧ Instr.wf (.abw32 5 35) = false ∧ Instr.wf (.bnsess 35 59) = false ∧ Instr.wf (.batsel 35) = false ∧ Instr.wf (.cat 1 35 8) = false := by decide

theorem test_wf_ack_offset :
    Instr.wf (.abi 27 1) = true ∧ Instr.wf (.abcnt 27) = true ∧ Instr.wf (.abb 27 3) = true ∧ Instr.wf (.abi 28 1) = false ∧ Instr.wf (.abcnt 28) = false ∧ Instr.wf (.abb 28 3) = false ∧ Instr.wf (.cksum 28 0 0) = false := by decide

theorem test_wf_ack_word_offset :
    Instr.wf (.abw32 24 2) = true ∧ Instr.wf (.abw32 25 2) = false := by decide

theorem test_wf_ack_range :
    Instr.wf (.cksum 27 0 27) = true ∧ Instr.wf (.cksum 0 3 3) = true ∧ Instr.wf (.cksum 27 5 4) = false ∧ Instr.wf (.cksum 27 4 28) = false := by decide

theorem test_wf_bit_field :
    Instr.wf (.ext 9 8 0 32) = true ∧ Instr.wf (.ext 9 8 31 1) = true ∧ Instr.wf (.ext 9 8 0 0) = false ∧ Instr.wf (.ext 9 8 0 33) = false ∧ Instr.wf (.ext 9 8 1 32) = false ∧ Instr.wf (.ext 9 8 32 1) = false := by decide

theorem test_wf_shift_count :
    Instr.wf (.cat 34 11 1) = true ∧ Instr.wf (.cat 34 11 31) = true ∧ Instr.wf (.cat 34 11 0) = false ∧ Instr.wf (.cat 34 11 32) = false := by decide

theorem test_wf_halt_code :
    Instr.wf (.halt 1) = true ∧ Instr.wf (.halt 3) = true ∧ Instr.wf (.halt 0) = false ∧ Instr.wf (.halt 4) = false ∧ Instr.wf (.halt 255) = false := by decide

/-! Decoding: words of R69, R120 and the tables of `spec/95_test_vectors.md`, sections 2.1 to 2.5. -/

theorem test_decode_cursor :
    decode 0x040000FF = .legal (.skip 255) ∧
    decode 0x0A200000 = .legal (.rdu8 34) ∧
    decode 0x0C300000 = .legal (.rdi8 3) ∧
    decode 0x11200000 = .legal (.rdu16 18) ∧
    decode 0x15100000 = .legal (.rdu24 17) ∧
    decode 0x18200000 = .legal (.rdu32 2) ∧
    decode 0x1D700000 = .legal (.rdi32 23) ∧
    decode 0x20800000 = .legal (.pku8 8) := by decide

theorem test_decode_bitfield :
    decode 0x40921F01 = .legal (.ext 9 8 31 1) ∧
    decode 0x40920020 = .legal (.ext 9 8 0 32) ∧
    decode 0x4622C01F = .legal (.cat 34 11 31) ∧
    decode 0x48010000 = .legal (.batsel 4) := by decide

theorem test_decode_ack :
    decode 0x80000000 = .legal (.abclr) ∧
    decode 0x85B000FF = .legal (.abi 27 0xFF) ∧
    decode 0x88F0C000 = .legal (.abb 15 3) ∧
    decode 0x8D808000 = .legal (.abw32 24 2) ∧
    decode 0x90900000 = .legal (.abcnt 9) ∧
    decode 0x95B11A00 = .legal (.cksum 27 4 26) ∧
    decode 0x9400C300 = .legal (.cksum 0 3 3) ∧
    decode 0x98000000 = .legal (.emit) := by decide

theorem test_decode_control :
    decode 0xC0114008 = .legal (.beqi 1 8 5) ∧
    decode 0xC00FC000 = .legal (.beqi 0 0 63) ∧
    decode 0xC4048000 = .legal (.bnchan 18) ∧
    decode 0xC82EC000 = .legal (.bnsess 2 59) ∧
    decode 0xCC000003 = .legal (.halt 3) := by decide

theorem test_decode_illegal :
    decode 0x00000000 = .illegal .unassignedOp ∧ decode 0xFFFFFFFF = .illegal .unassignedOp ∧ decode 0x24000000 = .illegal .unassignedOp ∧ decode 0x08400001 = .illegal .reservedField ∧ decode 0x08404000 = .illegal .reservedField ∧ decode 0x0A300000 = .illegal .operandRange ∧ decode 0x0BF00000 = .illegal .operandRange ∧ decode 0x80000001 = .illegal .reservedField ∧ decode 0xCC100001 = .illegal .reservedField ∧ decode 0xCC000004 = .illegal .operandRange ∧ decode 0x40100000 = .illegal .operandRange ∧ decode 0x8D900000 = .illegal .operandRange ∧ decode 0x44100020 = .illegal .operandRange ∧ decode 0x95B14400 = .illegal .operandRange := by decide

/-! One step, `spec/95_test_vectors.md` section 2: the frame, the word at UPC and the state before are those of its
tables. -/

/-- A running unit with the frame of section 2.1 and a cursor position; UPC = 10. -/
def unitAt (pos : BitVec 16) : State :=
  { State.reset with
    run := true, upc := 10, pos := pos, flen := 8,
    fb := [(0, 0x11), (1, 0x22), (2, 0x33), (3, 0x44), (4, 0x80), (5, 0xFF), (6, 0x7F)] }

/-- AB with 28 equal bytes. -/
def ackFilled (v : Byte) : Memory := (List.range 28).map fun a => (a, v)

/-- What one step with a word at UPC leaves, seen through a view. -/
def afterWord {α : Type} (w : Nat) (s : State) (view : State → α) : Option α :=
  match step (s.withFetchWord 32 w) with
  | .next t => some (view t)
  | .fault _ => none
  | .refused _ => none

/-- The view of a fault: RESULT, RUN, UPC and POS (R163). -/
def endView (s : State) : BitVec 3 × Bool × BitVec 6 × BitVec 16 := (s.result, s.run, s.upc, s.pos)

theorem test_skip_to_the_end :
    afterWord 0x04000008 (unitAt 0) (fun t => (t.pos, t.upc)) = some (8, 11) := by decide

theorem test_skip_past_the_end :
    afterWord 0x040000FF (unitAt 0) (endView) = some (4, false, 10, 0) := by decide

theorem test_rdu8_zero_extends :
    afterWord 0x08100000 (unitAt 4) (fun t => (readField 1 t, t.pos, t.upc)) = some (some 0x80, 5, 11) := by decide

theorem test_rdu8_at_the_end :
    afterWord 0x08100000 (unitAt 8) (fun t => (readField 1 t, endView t)) = some (none, 4, false, 10, 8) := by decide

theorem test_rdi8_sign_extends :
    afterWord 0x0C300000 (unitAt 4) (fun t => (readField 3 t, t.pos, t.upc)) = some (some 0xFFFFFF80, 5, 11) := by decide

theorem test_rdi8_positive :
    afterWord 0x0C300000 (unitAt 6) (fun t => (readField 3 t, t.pos, t.upc)) = some (some 0x7F, 7, 11) := by decide

theorem test_rdu16_unaligned :
    afterWord 0x11200000 (unitAt 3) (fun t => (readField 18 t, t.pos, t.upc)) = some (some 0x8044, 5, 11) := by decide

theorem test_rdu16_one_byte_left :
    afterWord 0x11200000 (unitAt 7) (fun t => (readField 18 t, endView t)) = some (none, 4, false, 10, 7) := by decide

theorem test_rdu24_not_sign_extended :
    afterWord 0x15100000 (unitAt 3) (fun t => (readField 17 t, t.pos, t.upc)) = some (some 0x00FF8044, 6, 11) := by decide

theorem test_rdu24_two_bytes_left :
    afterWord 0x15100000 (unitAt 6) (endView) = some (4, false, 10, 6) := by decide

theorem test_rdu32_little_endian :
    afterWord 0x18200000 (unitAt 1) (fun t => (readField 2 t, t.pos, t.upc)) = some (some 0x80443322, 5, 11) := by decide

theorem test_rdu32_three_bytes_left :
    afterWord 0x18200000 (unitAt 5) (endView) = some (4, false, 10, 5) := by decide

theorem test_rdi32_same_bits :
    afterWord 0x1D700000 (unitAt 2) (fun t => (readField 23 t, t.pos, t.upc)) = some (some 0xFF804433, 6, 11) := by decide

theorem test_rdi32_three_bytes_left :
    afterWord 0x1D700000 (unitAt 5) (endView) = some (4, false, 10, 5) := by decide

theorem test_pku8_peeks :
    afterWord 0x20800000 (unitAt 5) (fun t => (readField 8 t, t.pos, t.upc)) = some (some 0xFF, 5, 11) := by decide

theorem test_pku8_at_the_end :
    afterWord 0x20800000 (unitAt 8) (endView) = some (4, false, 10, 8) := by decide

theorem test_ext_inner_field :
    afterWord 0x40920810 (writeField 8 0xDEADBEEF (unitAt 0)) (fun t => (readField 9 t, t.pos, t.upc)) = some (some 0xADBE, 0, 11) := by decide

theorem test_ext_unwritten_source_to_null :
    afterWord 0x40020008 (unitAt 0) (endView) = some (6, false, 10, 0) := by decide

theorem test_cat_drops_the_top :
    afterWord 0x4622C008 (writeField 34 0xFF123456 (writeField 11 0xFFFFFF78 (unitAt 0))) (fun t => (readField 34 t, t.pos, t.upc)) = some (some 0x12345678, 0, 11) := by decide

theorem test_cat_source_is_destination :
    afterWord 0x46288004 (writeField 34 0x12 (unitAt 0)) (fun t => (readField 34 t, t.pos, t.upc)) = some (some 0x122, 0, 11) := by decide

theorem test_batsel_low_five_bits :
    afterWord 0x48010000 (writeField 4 0xEC (unitAt 0)) (fun t => (t.batsel, t.upc)) = some (true, 11) := by decide

theorem test_batsel_other :
    afterWord 0x48010000 (setBatsel true (writeField 4 0x1C (unitAt 0))) (fun t => (t.batsel, t.upc)) = some (false, 11) := by decide

theorem test_abclr :
    afterWord 0x80000000 ({ unitAt 0 with ab := ackFilled 0xEE }) (fun t => (t.ab, t.upc)) = some ([], 11) := by decide

theorem test_abi_last_byte :
    afterWord 0x85B000FF (unitAt 0) (fun t => (t.ab, t.upc)) = some ([(27, 0xFF)], 11) := by decide

theorem test_abb_low_byte :
    afterWord 0x88F0C000 (writeField 3 0x12345678 (unitAt 0)) (fun t => (t.ab, t.upc)) = some ([(15, 0x78)], 11) := by decide

theorem test_abb_null_clears :
    afterWord 0x88F00000 ({ unitAt 0 with ab := ackFilled 0xEE }) (fun t => (t.ab.read 14, t.ab.read 15, t.ab.read 16)) = some (0xEE, 0x00, 0xEE) := by decide

theorem test_abw32_little_endian :
    afterWord 0x8C508000 (writeField 2 0x89ABCDEF (unitAt 0)) (fun t => (t.ab, t.upc)) = some ([(5, 0xEF), (6, 0xCD), (7, 0xAB), (8, 0x89)], 11) := by decide

theorem test_abw32_last_offset :
    afterWord 0x8D808000 (writeField 2 0x01020304 (unitAt 0)) (fun t => t.ab) = some [(24, 4), (25, 3), (26, 2), (27, 1)] := by decide

theorem test_abcnt_before_increment :
    afterWord 0x90900000 ({ unitAt 0 with ab := ackFilled 0xEE }) (fun t => (t.ab.read 9, t.cmdcnt, t.upc)) = some (0x00, 1, 11) := by decide

theorem test_abcnt_wraps :
    afterWord 0x90900000 ({ unitAt 0 with cmdcnt := 0xFF }) (fun t => (t.ab, t.cmdcnt)) = some ([(9, 0xFF)], 0) := by decide

theorem test_cksum_sums_old_destination :
    afterWord 0x95B01B00 ({ unitAt 0 with ab := ackFilled 0x01 }) (fun t => (t.ab.read 27, t.upc)) = some (0x1C, 11) := by decide

theorem test_cksum_modulo_256 :
    afterWord 0x95B00300 ({ unitAt 0 with ab := [(0, 0x4D), (1, 0x43), (2, 0x47), (3, 0x50)] }) (fun t => t.ab.read 27) = some 0x27 := by decide

theorem test_emit :
    afterWord 0x98000000 (unitAt 0) (fun t => (t.ackv, t.ab, t.upc)) = some (true, [], 11) := by decide

theorem test_beqi_taken :
    afterWord 0xC0114008 (writeField 1 8 (unitAt 0)) (fun t => t.upc) = some 5 := by decide

theorem test_beqi_compares_all_bits :
    afterWord 0xC0114008 (writeField 1 0x108 (unitAt 0)) (fun t => t.upc) = some 11 := by decide

theorem test_bnchan_without_channel :
    afterWord 0xC4048000 (unitAt 0) (fun t => t.upc) = some 18 := by decide

theorem test_bnchan_with_channel :
    afterWord 0xC4048000 ({ unitAt 0 with chan := true }) (fun t => t.upc) = some 11 := by decide

theorem test_bnsess_known :
    afterWord 0xC82EC000 ({ writeField 2 0x00123456 (unitAt 0) with knownDevices := [0x00123456] }) (fun t => t.upc) = some 11 := by decide

theorem test_bnsess_unknown :
    afterWord 0xC82EC000 (writeField 2 0x00123456 (unitAt 0)) (fun t => t.upc) = some 59 := by decide

theorem test_halt :
    afterWord 0xCC000002 (unitAt 3) (fun t => (endView t, t.done)) = some ((2, false, 10, 3), true) := by decide

theorem test_halt_forged_code :
    afterWord 0xCC000004 (unitAt 3) (endView) = some (5, false, 10, 3) := by decide

/-- R170's priority: `RDU8 F40` on an empty frame, `EXT F1, F2, 0, 0` with F2 unwritten (section 2.5). -/
theorem test_illegal_comes_first :
    afterWord 0x0A800000 (unitAt 8) endView = some (5, false, 10, 8) ∧
    afterWord 0x40108000 (unitAt 0) endView = some (5, false, 10, 0) := by decide

/-- UPC wraps modulo 64 (R15, section 2.1). -/
theorem test_upc_wraps :
    afterWord 0x08100000 ({ unitAt 0 with upc := 63 }) (fun t => t.upc) = some 0 := by decide

/-- FVALID after reset is bit 0 only (R27). -/
theorem test_fvalid_at_reset :
    State.reset.fvalid = 0x000000001#35 := by decide

/-! Witnesses: states and operands that meet the hypotheses of each statement, at the boundary values of its clauses. The
name after `test_witness_` is the statement's. -/

theorem test_witness_EncodeThenDecodeGivesInstrBack :
    Instr.wf (.cat 34 34 31) = true ∧
    Instr.wf (.ext 0 34 31 1) = true ∧
    Instr.wf (.cksum 27 0 27) = true := by decide

theorem test_witness_DecodedWordIsItsEncoding :
    decode 0x9400C300 = .legal (.cksum 0 3 3) := by decide

theorem test_witness_UnassignedOpsAreIllegal :
    decode 0x27FFFFFF = .illegal .unassignedOp ∧ 60 ≤ (60 : Fin 64).val ∧ 60 ≤ (63 : Fin 64).val := by decide

theorem test_witness_MicroRomWordsLegalAndBranchesForward :
    (59 : Fin 64).val < 60 ∧ branchTarget (.beqi 1 8 5) = some 5 := by decide

theorem test_witness_SkipAdvancesCursor :
    (1 ≤ (1 : Byte).toNat ∧ (unitAt 8).flen.toNat < (unitAt 8).pos.toNat + (1 : Byte).toNat) ∧
    (unitAt 8).pos.toNat + (0 : Byte).toNat ≤ (unitAt 8).flen.toNat ∧
    (unitAt 0).pos.toNat + (8 : Byte).toNat ≤ (unitAt 0).flen.toNat := by decide

theorem test_witness_Rdu8ReadsByte :
    (34 : RegNum).toNat ≤ 34 ∧
    34 < (35 : RegNum).toNat ∧
    (unitAt 8).flen.toNat < (unitAt 8).pos.toNat + 1 ∧
    (unitAt 7).pos.toNat + 1 ≤ (unitAt 7).flen.toNat := by decide

theorem test_witness_Rdi8SignExtendsByte :
    (34 : RegNum).toNat ≤ 34 ∧
    34 < (35 : RegNum).toNat ∧
    (unitAt 8).flen.toNat < (unitAt 8).pos.toNat + 1 ∧
    (unitAt 7).pos.toNat + 1 ≤ (unitAt 7).flen.toNat := by decide

theorem test_witness_Rdu16ReadsLittleEndian :
    (34 : RegNum).toNat ≤ 34 ∧
    34 < (35 : RegNum).toNat ∧
    (unitAt 7).flen.toNat < (unitAt 7).pos.toNat + 2 ∧
    (unitAt 6).pos.toNat + 2 ≤ (unitAt 6).flen.toNat := by decide

theorem test_witness_Rdu24ReadsLittleEndian :
    (34 : RegNum).toNat ≤ 34 ∧
    34 < (35 : RegNum).toNat ∧
    (unitAt 6).flen.toNat < (unitAt 6).pos.toNat + 3 ∧
    (unitAt 5).pos.toNat + 3 ≤ (unitAt 5).flen.toNat := by decide

theorem test_witness_Rdu32ReadsLittleEndian :
    (34 : RegNum).toNat ≤ 34 ∧
    34 < (35 : RegNum).toNat ∧
    (unitAt 5).flen.toNat < (unitAt 5).pos.toNat + 4 ∧
    (unitAt 4).pos.toNat + 4 ≤ (unitAt 4).flen.toNat := by decide

theorem test_witness_Rdi32ReadsSameBitsAsRdu32 :
    (34 : RegNum).toNat ≤ 34 ∧
    34 < (35 : RegNum).toNat ∧
    (unitAt 5).flen.toNat < (unitAt 5).pos.toNat + 4 ∧
    (unitAt 4).pos.toNat + 4 ≤ (unitAt 4).flen.toNat := by decide

theorem test_witness_Pku8PeeksWithoutAdvancing :
    (34 : RegNum).toNat ≤ 34 ∧
    34 < (35 : RegNum).toNat ∧
    (unitAt 8).flen.toNat < (unitAt 8).pos.toNat + 1 ∧
    (unitAt 7).pos.toNat + 1 ≤ (unitAt 7).flen.toNat := by decide

/-- A running unit whose F2 holds a unit id, F34 a value, and no other register is written. -/
def unitTwo : State := writeField 34 0x80000001 (writeField 2 0x00123456 (unitAt 0))

theorem test_witness_ExtExtractsBitField :
    ((1 : Byte).toNat = 1 ∧ (31 : BitVec 6).toNat + (1 : Byte).toNat ≤ 32 ∧ (0 : BitVec 6).toNat + (32 : Byte).toNat ≤ 32) ∧
    (32 < (1 : BitVec 6).toNat + (32 : Byte).toNat ∧ 31 < (32 : BitVec 6).toNat ∧ 32 < (33 : Byte).toNat ∧ 34 < (35 : RegNum).toNat) ∧
    readField 3 unitTwo = none ∧ readField 34 unitTwo = some 0x80000001 ∧ readField 0 unitTwo = some 0 := by decide

theorem test_witness_CatShiftsAndAppends :
    (1 ≤ (1 : Byte).toNat ∧ (31 : Byte).toNat ≤ 31 ∧ 31 < (32 : Byte).toNat ∧ 34 < (35 : RegNum).toNat) ∧
    readField 3 unitTwo = none ∧ readField 34 unitTwo = some 0x80000001 ∧ readField 2 unitTwo = some 0x00123456 := by decide

theorem test_witness_BatselSelectsTable :
    (34 < (35 : RegNum).toNat ∧ (34 : RegNum).toNat ≤ 34) ∧
    readField 33 unitTwo = none ∧ readField 34 unitTwo = some 0x80000001 := by decide

theorem test_witness_AbclrClearsAckBuffer :
    Memory.wf (ackFilled 0xEE) = true ∧ 27 < 28 := by decide

theorem test_witness_AbiStoresImmediate :
    27 < (28 : AbOff).toNat ∧ (27 : AbOff).toNat ≤ 27 ∧ Memory.wf (ackFilled 0xEE) = true := by decide

theorem test_witness_AbbStoresLowByte :
    (27 < (28 : AbOff).toNat ∧ (27 : AbOff).toNat ≤ 27 ∧ 34 < (35 : RegNum).toNat) ∧
    unitTwo.ab.wf = true ∧ readField 33 unitTwo = none ∧ readField 34 unitTwo = some 0x80000001 := by decide

theorem test_witness_Abw32StoresLittleEndian :
    (24 < (25 : AbOff).toNat ∧ (24 : AbOff).toNat ≤ 24 ∧ 34 < (35 : RegNum).toNat) ∧
    unitTwo.ab.wf = true ∧ readField 33 unitTwo = none ∧ readField 34 unitTwo = some 0x80000001 := by decide

theorem test_witness_AbcntStoresThenIncrements :
    (∀ off, Instr.emit ≠ .abcnt off) ∧ (∃ t, exec .emit (unitAt 0) = .next t) ∧ 27 < (28 : AbOff).toNat ∧
    (27 : AbOff).toNat ≤ 27 ∧ (unitAt 0).ab.wf = true := ⟨nofun, ⟨_, rfl⟩, by decide⟩

theorem test_witness_CksumStoresModularSum :
    (27 < (28 : AbOff).toNat ∧ (4 : AbOff).toNat < (5 : AbOff).toNat) ∧
    (27 : AbOff).toNat ≤ 27 ∧ (27 : AbOff).toNat ≤ (27 : AbOff).toNat ∧ (unitAt 0).ab.wf = true := by decide

theorem test_witness_BeqiComparesAllBits :
    (34 < (35 : RegNum).toNat ∧ readField 33 unitTwo = none) ∧
    (34 : RegNum).toNat ≤ 34 ∧ readField 34 unitTwo = some 0x80000001 ∧ readField 0 unitTwo = some 0 := by decide

theorem test_witness_BnsessAsksOracle :
    (34 < (35 : RegNum).toNat ∧ readField 33 unitTwo = none ∧ readField 2 unitTwo = some 0x00123456) ∧
    0x00123456 ∉ unitTwo.knownDevices ∧ 0x00123456 ∈ (setRegistry [0x00123456] { unitTwo with run := false }).knownDevices := by decide

theorem test_witness_HaltEndsRun :
    ((0 : Byte).toNat = 0 ∧ 3 < (4 : Byte).toNat ∧ 1 ≤ (1 : Byte).toNat ∧ (3 : Byte).toNat ≤ 3) ∧
    (unitAt 0).script = [] := by decide

theorem test_witness_CursorPastEndTakesShortFrame :
    (Instr.wf (.skip 1) = true ∧ cursorBytes (.skip 1) = some 1 ∧ (unitAt 8).flen.toNat < (unitAt 8).pos.toNat + 1) ∧
    (Instr.wf (.rdu32 34) = true ∧ cursorBytes (.rdu32 34) = some 4) ∧
    ((unitAt 5).flen.toNat < (unitAt 5).pos.toNat + 4 ∧ (unitAt 8).pos.toNat ≤ (unitAt 8).flen.toNat) ∧
    cursorBytes .emit = none ∧ (∃ t, exec .emit { unitAt 0 with result := 4 } = .next t ∧ t.result = 4) := ⟨by decide, by decide, by decide, rfl, _, rfl, rfl⟩

theorem test_witness_UnwrittenSourceTakesUnwrittenField :
    (Instr.wf (.cat 34 33 8) = true ∧ 33 ∈ sourceFields (.cat 34 33 8) ∧ readField 33 unitTwo = none) ∧
    sourceFields .emit = [] ∧ (∃ t, exec .emit { unitAt 0 with result := 6 } = .next t ∧ t.result = 6) := ⟨by decide, rfl, _, rfl, rfl⟩

/-- A running unit at the word of CKSUM 27, 5, 4, whose range is empty. -/
def unitAtEmptyRange : State := (unitAt 0).withFetchWord 32 0x95B14400

theorem test_witness_IllegalOperandTakesIllegalOpFirst :
    (Instr.wf (.cksum 27 5 4) = false ∧ unitAtEmptyRange.run = true) ∧
    (unitAtEmptyRange.urom.get unitAtEmptyRange.upc.toFin = encode (.cksum 27 5 4) ∧ unitAtEmptyRange.script = []) ∧
    (setScript [.awaitDone] unitAtEmptyRange).script = .awaitDone :: [] ∧
    (setScript [.letStep] unitAtEmptyRange).script = .letStep :: [] := by decide

/-- A running unit at an address of the ROM of R120. -/
def unitAtRom (k : RomIndex) : State := { unitAt 0 with upc := k }

theorem test_witness_IllegalWordTakesIllegalOp :
    ((unitAtRom 60).run = true ∧ (unitAtRom 60).script = []) ∧
    (setScript [.awaitDone] (unitAtRom 60)).script = .awaitDone :: [] ∧
    (setScript [.letStep] (unitAtRom 60)).script = .letStep :: [] ∧
    ∀ i, decode ((unitAtRom 60).urom.get (unitAtRom 60).upc.toFin) ≠ .legal i := ⟨⟨rfl, rfl⟩, rfl, rfl, fun i h => by
      rw [show decode ((unitAtRom 60).urom.get (unitAtRom 60).upc.toFin) = .illegal .unassignedOp by decide] at h
      cases h⟩

theorem test_witness_StepRunsTheDecodedInstr :
    ((unitAtRom 59).run = true ∧ (unitAtRom 59).script = []) ∧
    decode ((unitAtRom 59).urom.get (unitAtRom 59).upc.toFin) = .legal (.halt 3) ∧
    (setScript [.awaitDone] (unitAtRom 59)).script = .awaitDone :: [] ∧
    (setScript [.letStep] (unitAtRom 59)).script = .letStep :: [] := by decide

theorem test_witness_StoppedUnitKeepsItsState :
    State.reset.run = false ∧ State.reset.script = [] := by decide

/-- A running unit has the invariant. -/
theorem unitAt_inv : (unitAt 8).Inv := by
  obtain ⟨h70, hmax⟩ := Laws.frameMax_bounds
  refine ⟨rfl, ?_, rfl, rfl, ?_, ?_, ?_, ?_⟩
  · simp [unitAt, Memory.below]
    omega
  · exact (show (unitAt 8).flen.toNat ≤ 70 by decide).trans h70
  · decide
  · decide
  · decide

theorem test_witness_StepKeepsInv :
    (unitAt 8).Inv ∧ ∃ t, step (unitAt 8) = .next t := ⟨unitAt_inv, _, rfl⟩

theorem test_witness_UromIsNeverWritten :
    ∃ t, step (unitAtRom 59) = .next t := ⟨_, rfl⟩

theorem test_witness_SequencerCannotWriteInputs :
    ∃ t, exec (.rdu8 1) (unitAt 7) = .next t := ⟨_, rfl⟩

theorem test_witness_CursorMovesForwardInsideFrame :
    ((unitAt 7).pos.toNat ≤ (unitAt 7).flen.toNat ∧ cursorBytes (.rdu8 1) = some 1 ∧ cursorBytes .emit = none) ∧
    (∃ t, exec (.rdu8 1) (unitAt 7) = .next t) ∧ ∃ t, exec .emit (unitAt 7) = .next t := ⟨by decide, ⟨_, rfl⟩, _, rfl⟩

theorem test_witness_ReadDependsOnlyOnItsBytes :
    (cursorBytes (.rdu16 34) = some 2 ∧ (34 : RegNum).toNat ≤ 34 ∧ (34 : RegNum) ≠ 0#6) ∧
    (unitAt 6).pos.toNat + 2 ≤ (unitAt 6).flen.toNat ∧
    ∀ j, j < 2 → ({ unitAt 6 with fb := [(0, 0x99), (6, 0x7F)] } : State).fb.read (6 + j) = (unitAt 6).fb.read (6 + j) := by decide

/-- A unit whose host performs one action next. -/
def unitWith (s : State) (a : HostAction) : State := setScript [.act a] s

theorem test_witness_ConnectionStateWriters :
    (∃ t, step (unitAtRom 14) = .next t ∧ t.cmdcnt ≠ (unitAtRom 14).cmdcnt) ∧
    (∃ t, step (unitAtRom 17) = .next t ∧ t.ackv ≠ (unitAtRom 17).ackv) ∧
    (∃ t, step (unitWith { unitAt 0 with batsel := true } .reset) = .next t ∧ t.batsel ≠ true) ∧
    (∃ t, step (unitWith { State.reset with ackv := true } .start) = .next t ∧ t.ackv ≠ true) ∧
    (∃ t, exec (.abcnt 9) (unitAt 0) = .next t ∧ t.cmdcnt ≠ (unitAt 0).cmdcnt) ∧
    (∃ t, exec .emit (unitAt 0) = .next t ∧ t.ackv ≠ (unitAt 0).ackv) ∧
    HostAction.start ≠ .reset ∧ HostAction.read .pos ≠ .start := ⟨⟨_, rfl, by decide⟩, ⟨_, rfl, by decide⟩, ⟨_, rfl, by decide⟩, ⟨_, rfl, by decide⟩, ⟨_, rfl, by decide⟩,
      ⟨_, rfl, by decide⟩, by decide⟩

theorem test_witness_RunEndsWithOneOfSixCodes :
    (unitAt 0).run = true ∧ ∃ t, exec (.halt 3) (unitAt 0) = .next t ∧ t.run = false := ⟨rfl, _, rfl, rfl⟩

theorem test_witness_UpcAdvancesByOneOrBranches :
    ∃ t, exec (.bnchan 18) (unitAt 0) = .next t := ⟨_, rfl⟩

theorem test_witness_ValidBitsAreOnlySet :
    (fieldValid 34 unitTwo = true ∧ (∃ t, exec .emit unitTwo = .next t)) ∧
    HostAction.read .pos ≠ .reset ∧ HostAction.read .pos ≠ .start := ⟨⟨by decide, _, rfl⟩, by decide⟩

theorem test_witness_HostResetGivesResetValues :
    (unitWith unitTwo .reset).script = .act .reset :: [] ∧ (34 : RegNum) ≠ 0#6 := by decide

theorem test_witness_HostLoadWritesFrame :
    (unitWith State.reset (.load [0x4D, 0x43] true)).script = .act (.load [0x4D, 0x43] true) :: [] ∧
    ((unitWith State.reset (.load [0x4D, 0x43] true)).run = false ∧ [(0x4D : Byte), 0x43].length ≤ Config.frameMax) ∧
    (unitWith State.reset (.load [0x4D, 0x43] true)).fb.wf = true ∧
    (unitWith (unitAt 0) (.load [] false)).run = true ∧ Config.frameMax < (List.replicate (Config.frameMax + 1) (0 : Byte)).length := by
  have h := Laws.frameMax_bounds
  refine ⟨rfl, ⟨rfl, ?_⟩, rfl, rfl, ?_⟩
  · exact (show [(0x4D : Byte), 0x43].length ≤ 70 by decide).trans h.1
  · simp

theorem test_witness_HostStartBeginsRun :
    ((unitWith State.reset .start).script = .act .start :: [] ∧ (unitWith State.reset .start).run = false) ∧
    (unitWith (unitAt 0) .start).run = true ∧ (34 : RegNum) ≠ 0#6 := by decide

theorem test_witness_HostReadReturnsAndChangesNothing :
    ((unitWith State.reset (.read (.ab 27))).script = .act (.read (.ab 27)) :: [] ∧ State.reset.run = false) ∧
    27 < 28 ∧ 7 < (unitAt 0).flen.toNat ∧ (ReadItem.field 34 = .field 34) := by decide

/-- A running unit with the three operator bytes of section 2.2. -/
def unitOperator : State := writeField 15 0xEF (writeField 11 0xCD (writeField 10 0xAB (unitAt 0)))

theorem test_witness_OperatorIsComposedOfThreeBytes :
    ((0xAB : Word).toNat < 256 ∧ (0xCD : Word).toNat < 256 ∧ (0xEF : Word).toNat < 256) ∧
    readField 10 unitOperator = some 0xAB ∧ readField 11 unitOperator = some 0xCD ∧ readField 15 unitOperator = some 0xEF := by decide

theorem test_witness_StatusNibbleIsPeekedByte :
    (unitAt 7).pos.toNat + 1 ≤ (unitAt 7).flen.toNat := by decide

/-- A running unit at the acknowledgement routine, the header parsed. -/
def unitAck : State := writeField 3 0x05 (writeField 2 0x00123456 (unitAtRom 7))

theorem test_witness_AckRoutineBuildsAcknowledgement :
    (unitAck.run = true ∧ unitAck.script = [] ∧ unitAck.urom = microRom ∧ unitAck.ab.wf = true ∧ unitAck.upc = 7) ∧
    readField 2 unitAck = some 0x00123456 ∧ readField 3 unitAck = some 0x05 ∧ 27 < 28 := ⟨⟨rfl, rfl, rfl, rfl, rfl⟩, by decide⟩

/-- The stopped unit with a frame loaded: the header of section 1.2 with a type byte, the rest 0x00. -/
def unitLoaded (type : Byte) (len : BitVec 16) (known : List Word) : State :=
  { State.reset with
    fb := [(0, 0x4D), (1, 0x43), (2, 0x47), (3, 0x50)] ++ Memory.cell 4 type ++ [(5, 0x56), (6, 0x34), (7, 0x12), (11, 0x05)],
    flen := len, chan := true, knownDevices := known }

/-- Every such unit is ready for a frame run. -/
theorem unitLoaded_ready (type : Byte) (len : BitVec 16) (known : List Word) : ReadyForFrame (unitLoaded type len known) :=
  ⟨rfl, rfl, rfl, rfl⟩

theorem test_witness_FrameRunEndsWithin58Steps :
    ReadyForFrame (unitLoaded 0 70 []) := unitLoaded_ready _ _ _

theorem test_witness_FrameRunShortHeader :
    (∀ type len, ReadyForFrame (unitLoaded type len [])) ∧
    ((unitLoaded 8 3 []).flen.toNat ≤ 3 ∧ (unitLoaded 8 4 []).flen.toNat < 5 ∧ (unitLoaded 8 4 []).flen.toNat = 4) ∧
    (5 ≤ (unitLoaded 8 5 []).flen.toNat ∧ (unitLoaded 8 8 []).flen.toNat ≤ 8) ∧
    ((unitLoaded 8 9 []).fb.read 4 = 8 ∧ (unitLoaded 8 9 []).flen.toNat < 10 ∧ (unitLoaded 8 9 []).flen.toNat = 9) ∧
    ((unitLoaded 3 9 []).fb.read 4 ≠ 8 ∧ 9 ≤ (unitLoaded 3 9 []).flen.toNat ∧ (unitLoaded 3 10 []).flen.toNat ≤ 10) ∧
    (unitLoaded 3 11 []).fb.read 4 ≠ 8 ∧ (unitLoaded 3 11 []).flen.toNat < 12 ∧ (unitLoaded 3 11 []).flen.toNat = 11 := ⟨fun _ _ => unitLoaded_ready _ _ _, by decide⟩

theorem test_witness_FrameRunOtherTypeIsAcknowledged :
    (ReadyForFrame (unitLoaded 8 10 []) ∧ ReadyForFrame (unitLoaded 3 12 [])) ∧
    ((unitLoaded 8 10 []).fb.read 4 = 8 ∧ 10 ≤ (unitLoaded 8 10 []).flen.toNat) ∧
    ((unitLoaded 3 12 []).fb.read 4 ≠ 0 ∧ (unitLoaded 3 12 []).fb.read 4 ≠ 8 ∧ 12 ≤ (unitLoaded 3 12 []).flen.toNat) ∧
    (unitLoaded 3 12 []).chan = true ∧ 4 ≤ (63 : RegNum).toNat := ⟨⟨unitLoaded_ready _ _ _, unitLoaded_ready _ _ _⟩, by decide⟩

theorem test_witness_FrameRunUnknownDeviceIsAcknowledged :
    ReadyForFrame (unitLoaded 0 12 []) ∧
    ((unitLoaded 0 12 []).fb.read 4 = 0 ∧ 12 ≤ (unitLoaded 0 12 []).flen.toNat) ∧
    frameU32 (unitLoaded 0 12 []) 5 ∉ (unitLoaded 0 12 []).knownDevices := ⟨unitLoaded_ready _ _ _, by decide⟩

/-- The stopped unit with a status frame of a known device. -/
def unitKnown (len : BitVec 16) : State := unitLoaded 0 len [0x00123456]

theorem test_witness_FrameRunShortPayload :
    (ReadyForFrame (unitKnown 12) ∧ ReadyForFrame (unitKnown 69)) ∧
    ((unitKnown 12).fb.read 4 = 0 ∧ 12 ≤ (unitKnown 12).flen.toNat ∧ (unitKnown 12).flen.toNat < 70) ∧
    (frameU32 (unitKnown 12) 5 ∈ (unitKnown 12).knownDevices ∧ (unitKnown 12).flen.toNat ≤ 12) ∧
    ((unitKnown 69).fb.read 4 = 0 ∧ 12 ≤ (unitKnown 69).flen.toNat ∧ (unitKnown 69).flen.toNat < 70) ∧
    frameU32 (unitKnown 69) 5 ∈ (unitKnown 69).knownDevices ∧
    68 ≤ (unitKnown 69).flen.toNat ∧ (unitKnown 69).flen.toNat ≤ 69 := ⟨⟨unitLoaded_ready _ _ _, unitLoaded_ready _ _ _⟩, by decide⟩

theorem test_witness_FrameRunDecodesStatusFrame :
    ReadyForFrame (unitKnown 70) ∧
    ((unitKnown 70).fb.read 4 = 0 ∧ 70 ≤ (unitKnown 70).flen.toNat) ∧
    frameU32 (unitKnown 70) 5 ∈ (unitKnown 70).knownDevices := ⟨unitLoaded_ready _ _ _, by decide⟩

/-- A stopped unit with RESULT 1 and every register written, REASON with the value given. -/
def unitDecoded (reason : Word) : State :=
  { State.reset with result := 1, f := (Vector.replicate 34 (some 0)).set 11 (some reason) }

theorem test_witness_ReasonMapperIsTotal :
    ((1 : Byte).toNat ∉ listedReasons ∧ (0 : Byte).toNat ∉ listedReasons ∧ (255 : Byte).toNat ∈ listedReasons) ∧
    (∃ p, hostPosition (unitDecoded 33) = some p) ∧ readField 12 (unitDecoded 33) = some 33 ∧
    (∃ p, hostPosition (unitDecoded 255) = some p) ∧ ∃ p, hostPosition (unitDecoded 1) = some p := ⟨by decide, ⟨_, rfl⟩, rfl, ⟨_, rfl⟩, _, rfl⟩

end Sys2Proof.Tests
end

section
/-! PROOFS. The statements of `spec/10_state.md`: the invariant, and which micro-operations and host actions write each
piece of the unit's state. Each statement over all micro-operations is a case analysis on `ExecEnd`. -/

namespace Sys2Proof.Proofs

open Sys2Proof.Machine Sys2Proof.Laws

/-! How a micro-operation ends -/

/-- The states a micro-operation can end in: a fault taken, or one of the shapes of `Laws.Effect`, each under a name. -/
inductive ExecEnd (i : Instr) (s : State) : State → Prop
  | trap (x : Trap) : ExecEnd i s (takeTrap x s)
  | skip (n : Byte) (hi : i = .skip n) (hfit : s.pos.toNat + n.toNat ≤ s.flen.toNat) :
      ExecEnd i s (nextUpc (advancePos n.toNat s))
  | read (k : Nat) (fd : RegNum) (v : Word) (hk : cursorBytes i = some k) (hfd : fd.toNat ≤ 34)
      (hfit : s.pos.toNat + k ≤ s.flen.toNat) : ExecEnd i s (nextUpc (advancePos k (writeField fd v s)))
  | write (fd : RegNum) (v : Word) (hfd : fd.toNat ≤ 34) : ExecEnd i s (nextUpc (writeField fd v s))
  | batsel (fs : RegNum) (b : Bool) (hi : i = .batsel fs) : ExecEnd i s (nextUpc (setBatsel b s))
  | abclr : ExecEnd i s (nextUpc (clearAck s))
  | store (off : AbOff) (n : Nat) (v : Word) (hoff : off.toNat + n ≤ 28) : ExecEnd i s (nextUpc (storeAck off n v s))
  | count (off : AbOff) (v : Word) (hi : i = .abcnt off) (hoff : off.toNat + 1 ≤ 28) :
      ExecEnd i s (nextUpc (bumpCounter (storeAck off 1 v s)))
  | emit (hi : i = .emit) : ExecEnd i s (nextUpc (setAckv s))
  | branch (c : Bool) (target : RomIndex) (hi : branchTarget i = some target) : ExecEnd i s (branchIf c target s)
  | halt (code : Byte) (hcode : haltCodeOk code = true) : ExecEnd i s (endRun (haltResult code) s)

/-- A legal micro-operation's own effect is one of the named ends. -/
theorem execEnd_of_effect {i : Instr} {s t : State} (h : Effect i s t) : ExecEnd i s t := by
  rcases h with ⟨n, hi, hfit, rfl⟩ | ⟨k, fd, v, hk, hfd, hfit, rfl⟩ | ⟨fd, v, hfd, -, rfl⟩ | ⟨fs, v, hi, -, rfl⟩ |
    ⟨-, rfl⟩ | ⟨off, n, v, -, hoff, rfl⟩ | ⟨off, hi, hoff, rfl⟩ | ⟨hi, rfl⟩ | ⟨c, target, hi, rfl⟩ |
    ⟨code, -, hcode, rfl⟩
  · exact .skip n hi hfit
  · exact .read k fd v hk hfd hfit
  · exact .write fd v hfd
  · exact .batsel fs _ hi
  · exact .abclr
  · exact .store off n v hoff
  · exact .count off _ hi hoff
  · exact .emit hi
  · exact .branch c target hi
  · exact .halt code hcode

/-- What a micro-operation answers is one of the named ends. -/
theorem execEnd_of_exec {i : Instr} {s t : State} (h : exec i s = .next t) : ExecEnd i s t := by
  obtain ⟨u, hu, hcases⟩ := exec_cases i s
  obtain rfl : u = t := by simpa [hu] using h
  rcases hcases with ⟨-, rfl⟩ | ⟨-, -, rfl⟩ | ⟨-, -, rfl⟩ | ⟨-, heff⟩
  · exact .trap .illegalOp
  · exact .trap .shortFrame
  · exact .trap .unwrittenField
  · exact execEnd_of_effect heff

/-! What a micro-operation writes, piece by piece of the state -/

/-- The unit's inputs and everything outside the unit survive a micro-operation (R26, R167). -/
theorem exec_inputs_kept {i : Instr} {s t : State} (h : exec i s = .next t) :
    t.fb = s.fb ∧ t.flen = s.flen ∧ t.chan = s.chan ∧ OutsideKept s t := by
  cases execEnd_of_exec h <;> simp [OutsideKept]

/-- POS moves only by the byte count of a cursor micro-operation that fits the frame (R14, R89). -/
theorem exec_pos {i : Instr} {s t : State} (h : exec i s = .next t) :
    t.pos = s.pos ∨
      ∃ k, cursorBytes i = some k ∧ s.pos.toNat + k ≤ s.flen.toNat ∧ t.pos.toNat = s.pos.toNat + k := by
  cases execEnd_of_exec h with
  | skip n hi hfit => exact .inr ⟨n.toNat, by rw [hi]; rfl, hfit, advancePos_toNat hfit⟩
  | read k fd v hk hfd hfit => exact .inr ⟨k, hk, hfit, advancePos_toNat (s := writeField fd v s) hfit⟩
  | _ => exact .inl (by simp)

/-- A fault's RESULT code is not the reserved 7 (R23). -/
theorem trapCode_ne_seven (x : Trap) : trapCode x ≠ 7 := by
  cases x <;> decide

/-- HALT's RESULT code is not the reserved 7 (R23, R113). -/
theorem haltResult_ne_seven {code : Byte} (h : haltCodeOk code = true) : haltResult code ≠ 7 := by
  intro h7
  have hmod : code.toNat % 8 = 7 := by simpa [haltResult] using congrArg BitVec.toNat h7
  simp [haltCodeOk] at h
  omega

/-- A micro-operation ends the run at its own address with a used RESULT code, or leaves RUN and RESULT alone and goes
on (R15, R23, R163). -/
theorem exec_ends_run_or_goes_on {i : Instr} {s t : State} (h : exec i s = .next t) :
    (t.run = false ∧ t.upc = s.upc ∧ t.result ≠ 7) ∨
      (t.run = s.run ∧ t.result = s.result ∧ (t.upc = s.upc + 1 ∨ branchTarget i = some t.upc)) := by
  cases execEnd_of_exec h with
  | trap x => exact .inl ⟨rfl, rfl, trapCode_ne_seven x⟩
  | halt code hcode => exact .inl ⟨rfl, rfl, haltResult_ne_seven hcode⟩
  | branch c target hi => cases c <;> simp [hi]
  | _ => exact .inr (by simp)

/-- AB stays canonical and inside its 28 bytes (R18). -/
theorem exec_ab_canonical {i : Instr} {s t : State} (h : exec i s = .next t) (hwf : s.ab.wf = true)
    (hbelow : s.ab.below 28 = true) : t.ab.wf = true ∧ t.ab.below 28 = true := by
  cases execEnd_of_exec h with
  | abclr =>
    rw [nextUpc_ab, clearAck_ab]
    exact ⟨wf_clear 28 0 hwf, below_clear 28 0 (le_refl 28) hbelow⟩
  | store off n v hoff => exact ⟨wf_writeLE n off.toNat v hwf, below_writeLE n off.toNat v hoff hbelow⟩
  | count off v _ hoff => exact ⟨wf_writeLE 1 off.toNat v hwf, below_writeLE 1 off.toNat v hoff hbelow⟩
  | _ => simpa using ⟨hwf, hbelow⟩

/-- The register file changes by at most one register write (R7, R13). -/
theorem exec_f {i : Instr} {s t : State} (h : exec i s = .next t) :
    t.f = s.f ∨ ∃ fd v, fd.toNat ≤ 34 ∧ t.f = fieldsAfter fd v s.f := by
  cases execEnd_of_exec h with
  | read k fd v _ hfd => exact .inr ⟨fd, v, hfd, rfl⟩
  | write fd v hfd => exact .inr ⟨fd, v, hfd, rfl⟩
  | _ => exact .inl (by simp)

/-- Only ABCNT writes CMDCNT (R19). -/
theorem exec_cmdcnt {i : Instr} {s t : State} (h : exec i s = .next t) (hne : t.cmdcnt ≠ s.cmdcnt) :
    ∃ off, i = .abcnt off := by
  cases execEnd_of_exec h with
  | count off v hi => exact ⟨off, hi⟩
  | _ => exact absurd (by simp) hne

/-- Only BATSEL writes BATSEL (R20). -/
theorem exec_batsel {i : Instr} {s t : State} (h : exec i s = .next t) (hne : t.batsel ≠ s.batsel) :
    ∃ fs, i = .batsel fs := by
  cases execEnd_of_exec h with
  | batsel fs b hi => exact ⟨fs, hi⟩
  | _ => exact absurd (by simp) hne

/-- Only EMIT writes ACKV (R21). -/
theorem exec_ackv {i : Instr} {s t : State} (h : exec i s = .next t) (hne : t.ackv ≠ s.ackv) : i = .emit := by
  cases execEnd_of_exec h with
  | emit hi => exact hi
  | _ => exact absurd (by simp) hne

/-! What a host action writes -/

/-- LOAD is refused, or writes FB, FLEN and CHAN of the stopped unit (R183). -/
theorem hostLoad_cases (bytes : List Byte) (chan : Bool) (s : State) :
    hostLoad bytes chan s = s ∨
      (s.run = false ∧ bytes.length ≤ Config.frameMax ∧
        hostLoad bytes chan s =
          { s with fb := s.fb.writeBytes 0 bytes, flen := BitVec.ofNat 16 bytes.length, chan := chan }) := by
  rcases Bool.eq_false_or_eq_true s.run with hrun | hrun
  · exact .inl (hostLoad_running hrun bytes chan)
  · rcases Nat.lt_or_ge Config.frameMax bytes.length with hlong | hfits
    · exact .inl (hostLoad_long hlong chan)
    · exact .inr ⟨hrun, hfits, hostLoad_accepted hrun hfits chan⟩

/-- READ writes nothing but what the host has read and the count of undefined reads (R185). -/
theorem hostRead_writes_hostData (item : ReadItem) (s : State) :
    ∃ d n, hostRead item s = { s with hostData := d, freeCount := n } := by
  rw [hostRead_eq]
  split
  · exact ⟨_, _, rfl⟩
  · exact ⟨_, s.freeCount, rfl⟩

/-- The registry's change writes nothing but the registry's answers (R151). -/
theorem setRegistry_writes_knownDevices (known : List Word) (s : State) :
    ∃ known', setRegistry known s = { s with knownDevices := known' } := by
  unfold setRegistry
  split
  · exact ⟨s.knownDevices, rfl⟩
  · exact ⟨known, rfl⟩

/-- No host action but RESET writes CMDCNT or BATSEL (R28). -/
theorem applyHost_sessionKept {a : HostAction} (hreset : a ≠ .reset) (s : State) : SessionKept s (applyHost a s) := by
  cases a with
  | reset => exact absurd rfl hreset
  | load bytes chan => rcases hostLoad_cases bytes chan s with h | ⟨-, -, h⟩ <;> simp [applyHost, h, SessionKept]
  | start => cases h : s.run <;> simp [applyHost, hostStart_running, hostStart_stopped, h, SessionKept]
  | read item => obtain ⟨d, n, h⟩ := hostRead_writes_hostData item s; simp [applyHost, h, SessionKept]

/-- LOAD and READ write neither ACKV nor a field register (R183, R185). -/
theorem applyHost_ackv_f_kept {a : HostAction} (hreset : a ≠ .reset) (hstart : a ≠ .start) (s : State) :
    (applyHost a s).ackv = s.ackv ∧ (applyHost a s).f = s.f := by
  cases a with
  | reset => exact absurd rfl hreset
  | load bytes chan => rcases hostLoad_cases bytes chan s with h | ⟨-, -, h⟩ <;> simp [applyHost, h]
  | start => exact absurd rfl hstart
  | read item => obtain ⟨d, n, h⟩ := hostRead_writes_hostData item s; simp [applyHost, h]

/-- The registry's change writes none of CMDCNT, BATSEL and ACKV (R151). -/
theorem setRegistry_connection_kept (known : List Word) (s : State) :
    SessionKept s (setRegistry known s) ∧ (setRegistry known s).ackv = s.ackv := by
  obtain ⟨known', h⟩ := setRegistry_writes_knownDevices known s
  simp [h, SessionKept]

/-! The invariant -/

/-- The invariant speaks of FB, AB, FLEN, RESULT, POS and RUN alone. -/
theorem inv_congr {s t : State} (hs : s.Inv) (hfb : t.fb = s.fb) (hab : t.ab = s.ab) (hflen : t.flen = s.flen)
    (hresult : t.result = s.result) (hpos : t.pos = s.pos) (hrun : t.run = s.run) : t.Inv where
  fbWf := hfb ▸ hs.fbWf
  fbBelow := hfb ▸ hs.fbBelow
  abWf := hab ▸ hs.abWf
  abBelow := hab ▸ hs.abBelow
  flenFits := hflen ▸ hs.flenFits
  resultUsed := hresult ▸ hs.resultUsed
  posInFrame := by rw [hrun, hpos, hflen]; exact hs.posInFrame
  resultClear := by rw [hrun, hresult]; exact hs.resultClear

theorem reset_inv : State.reset.Inv where
  fbWf := reset_memory_wf.1
  fbBelow := below_nil _
  abWf := reset_memory_wf.2
  abBelow := below_nil _
  flenFits := Nat.zero_le _
  resultUsed := by decide
  posInFrame _ := Nat.le_refl 0
  resultClear _ := rfl

theorem setScript_inv {s : State} (hs : s.Inv) (rest : List HostTurn) : (setScript rest s).Inv :=
  inv_congr hs rfl rfl rfl rfl rfl rfl

theorem setRegistry_inv {s : State} (hs : s.Inv) (known : List Word) : (setRegistry known s).Inv := by
  obtain ⟨known', h⟩ := setRegistry_writes_knownDevices known s
  rw [h]
  exact inv_congr hs rfl rfl rfl rfl rfl rfl

theorem hostLoad_inv {s : State} (hs : s.Inv) (bytes : List Byte) (chan : Bool) : (hostLoad bytes chan s).Inv := by
  rcases hostLoad_cases bytes chan s with h | ⟨hrun, hfits, h⟩
  · rwa [h]
  · rw [h]
    exact {
      fbWf := wf_writeBytes bytes 0 hs.fbWf
      fbBelow := below_writeBytes bytes 0 (by omega) hs.fbBelow
      abWf := hs.abWf
      abBelow := hs.abBelow
      flenFits := (Nat.mod_le _ _).trans hfits
      resultUsed := hs.resultUsed
      posInFrame := fun hr => absurd hr (by simp [hrun])
      resultClear := fun hr => absurd hr (by simp [hrun]) }

/-- START puts the cursor at 0, inside any frame, and clears RESULT (R184). -/
theorem hostStart_inv {s : State} (hs : s.Inv) : (hostStart s).Inv := by
  cases hrun : s.run with
  | true => rwa [hostStart_running hrun]
  | false =>
    rw [hostStart_stopped hrun]
    exact { hs with
      resultUsed := show (0 : BitVec 3) ≠ 7 by decide
      posInFrame := fun _ => Nat.zero_le _
      resultClear := fun _ => rfl }

theorem applyHost_inv {s : State} (hs : s.Inv) (a : HostAction) : (applyHost a s).Inv := by
  cases a with
  | reset => exact inv_congr (t := hostReset s) reset_inv rfl rfl rfl rfl rfl rfl
  | load bytes chan => exact hostLoad_inv hs bytes chan
  | start => exact hostStart_inv hs
  | read item =>
    obtain ⟨d, n, h⟩ := hostRead_writes_hostData item s
    rw [applyHost, h]
    exact inv_congr hs rfl rfl rfl rfl rfl rfl

/-- A stopped unit is asked nothing about POS, so a fault keeps the invariant. -/
theorem takeTrap_inv {s : State} (hs : s.Inv) (x : Trap) : (takeTrap x s).Inv :=
  { hs with
    resultUsed := trapCode_ne_seven x
    posInFrame := fun hr => absurd hr Bool.false_ne_true
    resultClear := fun hr => absurd hr Bool.false_ne_true }

/-- POS inside the frame stays inside the frame (R14). -/
theorem exec_pos_le_flen {i : Instr} {s t : State} (h : exec i s = .next t) (hpos : s.pos.toNat ≤ s.flen.toNat) :
    t.pos.toNat ≤ t.flen.toNat := by
  obtain ⟨-, hflen, -⟩ := exec_inputs_kept h
  rw [hflen]
  rcases exec_pos h with hp | ⟨k, -, hfit, hp⟩
  · rwa [hp]
  · omega

theorem exec_inv {i : Instr} {s t : State} (hs : s.Inv) (h : exec i s = .next t) : t.Inv := by
  obtain ⟨hfb, hflen, -⟩ := exec_inputs_kept h
  obtain ⟨habWf, habBelow⟩ := exec_ab_canonical h hs.abWf hs.abBelow
  have hcontrol := exec_ends_run_or_goes_on h
  exact {
    fbWf := hfb ▸ hs.fbWf
    fbBelow := hfb ▸ hs.fbBelow
    abWf := habWf
    abBelow := habBelow
    flenFits := hflen ▸ hs.flenFits
    resultUsed := by
      rcases hcontrol with ⟨-, -, hne⟩ | ⟨-, hresult, -⟩
      · exact hne
      · exact hresult ▸ hs.resultUsed
    posInFrame := fun hr => by
      rcases hcontrol with ⟨hstop, -⟩ | ⟨hrun, -⟩
      · exact absurd hr (by simp [hstop])
      · exact exec_pos_le_flen h (hs.posInFrame (hrun ▸ hr))
    resultClear := fun hr => by
      rcases hcontrol with ⟨hstop, -⟩ | ⟨hrun, hresult, -⟩
      · exact absurd hr (by simp [hstop])
      · exact hresult ▸ hs.resultClear (hrun ▸ hr) }

theorem sequencerStep_inv {s t : State} (hs : s.Inv) (h : sequencerStep s = .next t) : t.Inv := by
  rcases sequencerStep_cases s with ⟨i, -, he⟩ | he
  · exact exec_inv hs (he ▸ h)
  · obtain rfl : takeTrap .illegalOp s = t := by simpa [he] using h
    exact takeTrap_inv hs .illegalOp

/-- Settles O35, from one lemma per turn of the step: the sequencer's, none, the host's, the registry's. -/
theorem stepKeepsInv : Obligations.StepKeepsInv := by
  intro s t hs h
  rcases step_cases s with ⟨rest, -, he⟩ | ⟨rest, -, he⟩ | ⟨a, rest, -, he⟩ | ⟨known, rest, -, he⟩ <;> rw [he] at h
  · exact sequencerStep_inv (setScript_inv hs rest) h
  · cases h
    exact setScript_inv hs rest
  · cases h
    exact applyHost_inv (setScript_inv hs rest) a
  · cases h
    exact setRegistry_inv (setScript_inv hs rest) known

/-- Settles O36: `State.reset` lists no byte, has FLEN and POS 0, and is stopped. -/
theorem resetHasInv : Obligations.ResetHasInv := reset_inv

/-- Settles O38, by the frame of each end of a micro-operation. -/
theorem sequencerCannotWriteInputs : Obligations.SequencerCannotWriteInputs :=
  fun _ _ _ h => exec_inputs_kept h

/-- Settles O39: POS is kept, or a cursor micro-operation that fits the frame advances it. -/
theorem cursorMovesForwardInsideFrame : Obligations.CursorMovesForwardInsideFrame := by
  intro i s t hpos h
  have hin := exec_pos_le_flen h hpos
  rcases exec_pos h with hp | ⟨k, hk, -, hp⟩
  · exact ⟨by rw [hp], hin, fun _ => hp, fun _ _ => .inl hp⟩
  · refine ⟨by omega, hin, fun hnone => ?_, fun k' hk' => .inr ?_⟩
    · simp [hk] at hnone
    · obtain rfl : k = k' := by simpa [hk] using hk'
      exact hp

/-- Settles O43: what does not end the run goes to the next word or to the branch target. -/
theorem upcAdvancesByOneOrBranches : Obligations.UpcAdvancesByOneOrBranches := by
  intro i s t h
  rcases exec_ends_run_or_goes_on h with ⟨hrun, hupc, -⟩ | ⟨hrun, hresult, hupc⟩
  · exact .inl ⟨hrun, hupc⟩
  · refine .inr ⟨hrun, hresult, hupc.imp_left fun hnext => ?_⟩
    rw [hnext, BitVec.toNat_add]
    rfl

/-! Valid bits -/

/-- A register write clears no valid bit (R13). -/
theorem fieldValid_fieldsAfter {s t : State} {fd : RegNum} {v : Word} (hfd : fd.toNat ≤ 34)
    (hf : t.f = fieldsAfter fd v s.f) {r : RegNum} (h : fieldValid r s = true) : fieldValid r t = true := by
  rw [fieldValid, readField_fieldsAfter hfd hf]
  split_ifs
  · rfl
  · rfl
  · exact h

/-- Valid bits depend on the register file alone. -/
theorem fieldValid_congr {s t : State} (hf : t.f = s.f) (r : RegNum) : fieldValid r t = fieldValid r s := by
  rw [fieldValid, readField_congr hf, fieldValid]

/-- Settles O44: a micro-operation writes at most one register, LOAD and READ write none. -/
theorem validBitsAreOnlySet : Obligations.ValidBitsAreOnlySet := by
  refine ⟨fun i r s t h hvalid => ?_, fun a r s hreset hstart hvalid => ?_⟩
  · rcases exec_f h with hf | ⟨fd, v, hfd, hf⟩
    · rwa [fieldValid_congr hf]
    · exact fieldValid_fieldsAfter hfd hf hvalid
  · rwa [fieldValid_congr (applyHost_ackv_f_kept hreset hstart s).2]

/-! The registers of the connection -/

/-- What a sequencer's step changes of CMDCNT, BATSEL and ACKV names the micro-operation it ran: an illegal word changes
none of them. -/
theorem sequencerStep_connection_writers {s t : State} (h : sequencerStep s = .next t) :
    (t.cmdcnt ≠ s.cmdcnt → ∃ off, decode (fetch s) = .legal (.abcnt off)) ∧
      (t.batsel ≠ s.batsel → ∃ fs, decode (fetch s) = .legal (.batsel fs)) ∧
      (t.ackv ≠ s.ackv → decode (fetch s) = .legal .emit) := by
  rcases sequencerStep_cases s with ⟨i, hi, he⟩ | he <;> rw [he] at h
  · rw [hi]
    refine ⟨fun hne => ?_, fun hne => ?_, fun hne => ?_⟩
    · exact (exec_cmdcnt h hne).imp fun _ => congrArg _
    · exact (exec_batsel h hne).imp fun _ => congrArg _
    · exact congrArg _ (exec_ackv h hne)
  · cases h
    simp

/-- What a step changes of CMDCNT, BATSEL and ACKV names whose turn it was, and the word at UPC when it was the
sequencer's (R19 to R21). -/
theorem step_connection_writers {s t : State} (h : step s = .next t) :
    (t.cmdcnt ≠ s.cmdcnt → HostTurnIs .reset s ∨ (SequencerTurn s ∧ ∃ off, decode (fetch s) = .legal (.abcnt off))) ∧
      (t.batsel ≠ s.batsel → HostTurnIs .reset s ∨ (SequencerTurn s ∧ ∃ fs, decode (fetch s) = .legal (.batsel fs))) ∧
      (t.ackv ≠ s.ackv →
        HostTurnIs .reset s ∨ HostTurnIs .start s ∨ (SequencerTurn s ∧ decode (fetch s) = .legal .emit)) := by
  rcases step_cases s with ⟨rest, hturn, he⟩ | ⟨rest, -, he⟩ | ⟨a, rest, hs, he⟩ | ⟨known, rest, -, he⟩ <;> rw [he] at h
  · obtain ⟨hcmdcnt, hbatsel, hackv⟩ := sequencerStep_connection_writers h
    exact ⟨fun hne => .inr ⟨hturn, hcmdcnt hne⟩, fun hne => .inr ⟨hturn, hbatsel hne⟩,
      fun hne => .inr (.inr ⟨hturn, hackv hne⟩)⟩
  · cases h
    exact ⟨fun hne => absurd rfl hne, fun hne => absurd rfl hne, fun hne => absurd rfl hne⟩
  · cases h
    by_cases hreset : a = .reset
    · have hturn : HostTurnIs .reset s := ⟨rest, hreset ▸ hs⟩
      exact ⟨fun _ => .inl hturn, fun _ => .inl hturn, fun _ => .inl hturn⟩
    · obtain ⟨hcmdcnt, hbatsel⟩ := applyHost_sessionKept hreset (setScript rest s)
      refine ⟨fun hne => absurd hcmdcnt hne, fun hne => absurd hbatsel hne, fun hne => .inr (.inl ?_)⟩
      by_cases hstart : a = .start
      · exact ⟨rest, hstart ▸ hs⟩
      · exact absurd (applyHost_ackv_f_kept hreset hstart (setScript rest s)).1 hne
  · cases h
    obtain ⟨⟨hcmdcnt, hbatsel⟩, hackv⟩ := setRegistry_connection_kept known (setScript rest s)
    exact ⟨fun hne => absurd hcmdcnt hne, fun hne => absurd hbatsel hne, fun hne => absurd hackv hne⟩

/-- Settles O41: of a step by whose turn it is, of a micro-operation by its ends, of a host action by what it writes. -/
theorem connectionStateWriters : Obligations.ConnectionStateWriters :=
  ⟨fun _ _ h => step_connection_writers h,
    fun _ _ _ h => ⟨exec_cmdcnt h, exec_batsel h, exec_ackv h⟩,
    fun _ s hreset =>
      ⟨applyHost_sessionKept hreset s, fun hstart => (applyHost_ackv_f_kept hreset hstart s).1⟩,
    setRegistry_connection_kept⟩

end Sys2Proof.Proofs
end

section
/-! PROOFS. The statement of `spec/20_memory.md`: no agent writes UROM (R52), said once for each kind of turn of a step. -/

namespace Sys2Proof.Proofs

open Sys2Proof.Machine Sys2Proof.Laws

/-- The sequencer writes no word of UROM, whether it runs a micro-operation or takes `IllegalOp` (R52). -/
theorem sequencerStep_urom {s t : State} (h : sequencerStep s = .next t) : t.urom = s.urom := by
  rcases sequencerStep_cases s with ⟨i, -, he⟩ | he <;> rw [he] at h
  · obtain ⟨-, -, -, hurom, -⟩ := exec_inputs_kept h
    exact hurom
  · cases h
    exact takeTrap_urom .illegalOp s

/-- The host writes no word of UROM; RESET leaves it too (R52, R182). -/
theorem applyHost_urom (a : HostAction) (s : State) : (applyHost a s).urom = s.urom := by
  cases a with
  | reset => rfl
  | load bytes chan => rcases hostLoad_cases bytes chan s with h | ⟨-, -, h⟩ <;> simp [applyHost, h]
  | start => cases h : s.run <;> simp [applyHost, hostStart_running, hostStart_stopped, h]
  | read item => obtain ⟨d, n, h⟩ := hostRead_writes_hostData item s; simp [applyHost, h]

/-- A change of the registry's answers writes no word of UROM (R52, R151). -/
theorem setRegistry_urom (known : List Word) (s : State) : (setRegistry known s).urom = s.urom := by
  obtain ⟨known', h⟩ := setRegistry_writes_knownDevices known s
  rw [h]

/-- No step writes UROM, whichever turn it takes (R52). -/
theorem step_urom {s t : State} (h : step s = .next t) : t.urom = s.urom := by
  rcases step_cases s with ⟨rest, -, he⟩ | ⟨rest, -, he⟩ | ⟨a, rest, -, he⟩ | ⟨known, rest, -, he⟩ <;> rw [he] at h
  · exact (sequencerStep_urom h).trans (setScript_urom rest s)
  · cases h
    exact setScript_urom rest s
  · cases h
    exact (applyHost_urom a _).trans (setScript_urom rest s)
  · cases h
    exact (setRegistry_urom known _).trans (setScript_urom rest s)

/-- Settles O37: no turn of a step writes UROM, and `State.reset` holds the listing of R120. -/
theorem uromIsNeverWritten : Obligations.UromIsNeverWritten :=
  ⟨fun _ _ h => step_urom h, rfl⟩

end Sys2Proof.Proofs
end

section
/-! PROOFS. The statements of `spec/30_encoding.md`, and the illegal operand of R170. Encoding and decoding meet in the
row of the opcode map (R63): a micro-operation's word stands in its own row (`EncodedInItsRow`), and the fields of a word
that matches its row are those of the row's micro-operation (`encodeFields_of_opRow`). -/

namespace Sys2Proof.Proofs

open Sys2Proof.Machine Sys2Proof.Laws

/-! The decoder's answer by the row of the word -/

theorem decode_of_no_row {w : Word} (h : opRow (fieldsOf w) = none) : decode w = .illegal .unassignedOp := by
  simp [decode, h]

/-- In a row, the must-be-zero fields and then the operand ranges decide (R64 steps 2 and 3). -/
theorem decode_of_row {w : Word} {row : OpRow} (h : opRow (fieldsOf w) = some row) :
    decode w =
      if w &&& row.mask = row.value then
        if row.instr.wf then .legal row.instr else .illegal .operandRange
      else .illegal .reservedField := by
  simp [decode, h]

/-- A legal word matches its row, and the row's micro-operation is the decoder's answer. -/
theorem row_of_decode_legal {w : Word} {i : Instr} (h : decode w = .legal i) :
    ∃ row, opRow (fieldsOf w) = some row ∧ w &&& row.mask = row.value ∧ row.instr = i ∧ i.wf = true := by
  cases hrow : opRow (fieldsOf w) with
  | none => simp [decode_of_no_row hrow] at h
  | some row =>
    rw [decode_of_row hrow] at h
    split_ifs at h with hmatch hwf
    cases h
    exact ⟨row, rfl, hmatch, rfl, hwf⟩

/-- A word is illegal for its op exactly when it selects no row (R64 step 1). -/
theorem decode_eq_unassignedOp_iff (w : Word) :
    decode w = .illegal .unassignedOp ↔ opRow (fieldsOf w) = none := by
  refine ⟨fun h => ?_, decode_of_no_row⟩
  cases hrow : opRow (fieldsOf w) with
  | none => rfl
  | some row =>
    rw [decode_of_row hrow] at h
    split_ifs at h <;> cases h

/-! Decode after encode -/

/-- The word of any micro-operation decodes to it, or is illegal for an operand range and for nothing else (R64, R66). -/
theorem decode_encode (i : Instr) :
    decode (encode i) = if i.wf then .legal i else .illegal .operandRange := by
  obtain ⟨row, hrow, rfl, hmatch⟩ := EncodedInItsRow.all i
  have hsel : opRow (fieldsOf (encode row.instr)) = some row := by rw [encode, fieldsOf_wordOf, hrow]
  rw [decode_of_row hsel, if_pos hmatch]

/-- Settles O1: the operand ranges hold, so `decode_encode` is in its legal case. -/
theorem encodeThenDecodeGivesInstrBack : Obligations.EncodeThenDecodeGivesInstrBack :=
  fun i hwf => (decode_encode i).trans (if_pos hwf)

/-! Encode after decode -/

/-- A mask with every bit of an `op` or register field set keeps the field. -/
theorem and_fullMask6 (x : BitVec 6) : x &&& 63#6 = x := BitVec.and_allOnes

/-- A mask with every bit of `imm` set keeps the field. -/
theorem and_fullMask8 (x : BitVec 8) : x &&& 255#8 = x := BitVec.and_allOnes

/-- The row reads every field its mask leaves free, and the mask and match fix the others to what the encoder writes
there: the op, and 0 in the fields the format does not use (R61, R63). In a row the mask and match are written out before
`fields_of_masked` takes them, so that the kernel compares literals and unfolds no row. -/
theorem encodeFields_of_opRow {f : Fields} {row : OpRow} (hrow : opRow f = some row)
    (hmatch : wordOf f &&& row.mask = row.value) : encodeFields row.instr = f := by
  obtain ⟨op, ra, rb, rc, imm⟩ := f
  unfold opRow at hrow
  split at hrow
  case h_23 => cases hrow
  all_goals
    cases hrow
    dsimp only at hmatch
    have hfields := fields_of_masked _ _ _ hmatch _ _ rfl rfl
    symm
    simpa [encodeFields, fieldsOf, and_fullMask6, and_fullMask8] using hfields

/-- Settles O2: a legal word matches its row, so the fields of its micro-operation are the word's own. -/
theorem decodedWordIsItsEncoding : Obligations.DecodedWordIsItsEncoding := by
  intro w i h
  obtain ⟨row, hrow, hmatch, rfl, hwf⟩ := row_of_decode_legal h
  have hfields : encodeFields row.instr = fieldsOf w :=
    encodeFields_of_opRow hrow (by rwa [wordOf_fieldsOf])
  exact ⟨hwf, by rw [encode, hfields, wordOf_fieldsOf]⟩

/-! The unassigned op values -/

/-- The five ranges of unassigned op values (R65). -/
def UnassignedOp (op : Nat) : Prop :=
  op = 0x00 ∨ (0x09 ≤ op ∧ op ≤ 0x0F) ∨ (0x13 ≤ op ∧ op ≤ 0x1F) ∨ (0x27 ≤ op ∧ op ≤ 0x2F) ∨ (0x34 ≤ op ∧ op ≤ 0x3F)

/-- The other values stand in the four groups of the opcode map (R63). -/
theorem assignedOp_groups {op : Nat} (hlt : op < 64) (h : ¬ UnassignedOp op) :
    (0x01 ≤ op ∧ op ≤ 0x08) ∨ (0x10 ≤ op ∧ op ≤ 0x12) ∨ (0x20 ≤ op ∧ op ≤ 0x26) ∨ (0x30 ≤ op ∧ op ≤ 0x33) := by
  unfold UnassignedOp at h
  omega

/-- The opcode map has no row exactly for the unassigned values: every value of a group is the op of one of its 22 rows
(R63, R65). -/
theorem opRow_eq_none_iff (f : Fields) : opRow f = none ↔ UnassignedOp f.op.toNat := by
  unfold opRow
  split
  case h_23 =>
    refine iff_of_true rfl (by_contra fun h => ?_)
    have hgroups := assignedOp_groups f.op.isLt h
    simp only [imp_false] at *
    rcases hgroups with hcursor | hbitfield | hack | hcontrol <;> omega
  all_goals exact iff_of_false nofun (by unfold UnassignedOp; omega)

/-- Bits 31:26 of a word as a number (R60). -/
theorem fieldsOf_op_toNat (w : Word) : (fieldsOf w).op.toNat = w.toNat / 2 ^ 26 := by
  have hlt := w.isLt
  simp only [fieldsOf, BitVec.extractLsb'_toNat, Nat.shiftRight_eq_div_pow]
  omega

theorem decode_eq_unassignedOp_iff_op (w : Word) :
    decode w = .illegal .unassignedOp ↔ UnassignedOp (w.toNat / 2 ^ 26) := by
  rw [decode_eq_unassignedOp_iff, opRow_eq_none_iff, fieldsOf_op_toNat]

/-- A word of the micro-ROM is the word of the listing at its address (R120). -/
theorem microRom_get (k : Fin 64) : microRom.get k = romWords.getD k.val 0x00000000 :=
  Vector.getElem_ofFn k.isLt

/-- Settles O3: the words by their op value, the count by listing the 64 values, the ROM by its listing. -/
theorem unassignedOpsAreIllegal : Obligations.UnassignedOpsAreIllegal := by
  refine ⟨decode_eq_unassignedOp_iff_op, by decide, ?_, ?_, fun k hk => ?_⟩
  · exact (decode_eq_unassignedOp_iff_op _).2 (.inl rfl)
  · exact (decode_eq_unassignedOp_iff_op _).2 (.inr (.inr (.inr (.inr (by decide)))))
  · rw [microRom_get]
    revert k
    decide

/-- Settles O4: the three micro-operations encode to the words, so by O1 the words decode to them. -/
theorem workedEncodingsDecode : Obligations.WorkedEncodingsDecode := by
  have hrdu32 : encode (.rdu32 2) = 0x18200000 := by decide
  have hcksum : encode (.cksum 27 4 26) = 0x95B11A00 := by decide
  have hbeqi : encode (.beqi 1 8 5) = 0xC0114008 := by decide
  refine ⟨?_, ?_, ?_, hrdu32, hcksum, hbeqi, microRom_get 2, microRom_get 16, microRom_get 3⟩
  · exact hrdu32 ▸ encodeThenDecodeGivesInstrBack (.rdu32 2) rfl
  · exact hcksum ▸ encodeThenDecodeGivesInstrBack (.cksum 27 4 26) rfl
  · exact hbeqi ▸ encodeThenDecodeGivesInstrBack (.beqi 1 8 5) rfl

/-! The illegal operand -/

/-- A micro-operation with an operand out of range takes `IllegalOp`, whatever the state (R170; log 14). -/
theorem exec_of_not_wf {i : Instr} (h : i.wf = false) (s : State) : exec i s = .next (takeTrap .illegalOp s) := by
  obtain ⟨t, ht, ⟨-, rfl⟩ | ⟨hwf, -⟩ | ⟨hwf, -⟩ | ⟨hwf, -⟩⟩ := exec_cases i s
  · exact ht
  all_goals simp [h] at hwf

/-- Whose turn it is (log 7): with no host turn pending a running unit steps by itself. -/
theorem step_no_turn {s : State} (hrun : s.run = true) (hs : s.script = []) : step s = sequencerStep s := by
  simp [step, turnStep, hs, unitStep_running hrun]

/-- While the host waits for the end of the run the unit steps and the host goes on waiting (log 7). -/
theorem step_awaitDone {s : State} (hrun : s.run = true) {rest : List HostTurn} (hs : s.script = .awaitDone :: rest) :
    step s = sequencerStep s := by
  simp [step, turnStep, hs, hrun]

/-- The host's leave for one step is used up by the step (log 7). -/
theorem step_letStep {s : State} (hrun : s.run = true) {rest : List HostTurn} (hs : s.script = .letStep :: rest) :
    step s = sequencerStep (setScript rest s) := by
  have hrun' : (setScript rest s).run = true := hrun
  simp [step, turnStep, hs, unitStep_running hrun']

/-- A running unit whose word at UPC is illegal takes `IllegalOp`, in each of the sequencer's three turns (R161, R163). -/
theorem stepTakesFault_of_illegal {s : State} {why : IllegalWord} (hrun : s.run = true)
    (h : decode (fetch s) = .illegal why) : StepTakesFault 5 s := by
  refine ⟨fun hs => ?_, fun rest hs => ?_, fun rest hs => ?_⟩
  · exact ⟨_, (step_no_turn hrun hs).trans (sequencerStep_illegal h), takeTrap_faultTaken .illegalOp s⟩
  · exact ⟨_, (step_awaitDone hrun hs).trans (sequencerStep_illegal h), takeTrap_faultTaken .illegalOp s⟩
  · have h' : decode (fetch (setScript rest s)) = .illegal why := h
    exact ⟨_, (step_letStep hrun hs).trans (sequencerStep_illegal h'), takeTrap_faultTaken .illegalOp (setScript rest s)⟩

/-- Settles O30: the term by `exec_of_not_wf`, its word by `decode_encode`, the step at that word by
`stepTakesFault_of_illegal`. -/
theorem illegalOperandTakesIllegalOpFirst : Obligations.IllegalOperandTakesIllegalOpFirst := by
  intro i s hwf
  have hill : decode (encode i) = .illegal .operandRange := by simp [decode_encode, hwf]
  refine ⟨⟨_, exec_of_not_wf hwf s, takeTrap_faultTaken .illegalOp s⟩, hill, fun hrun hword => ?_⟩
  have hfetch : fetch s = encode i := hword
  exact stepTakesFault_of_illegal hrun (hfetch ▸ hill)

end Sys2Proof.Proofs
end

section
/-! PROOFS. The statements of `spec/40_cursor_ops.md` (R80 to R89). The seven reads are one operation with different
byte counts, values and moves of the cursor: `CursorReads` says so of each, and what a read does is proved of
`CursorReads` once. -/

namespace Sys2Proof.Proofs

open Sys2Proof.Machine Sys2Proof.Laws

/-! The words of a micro-operation -/

/-- The legal word of a micro-operation is its encoding, and only when the operands are in their ranges (R64, R66). -/
theorem decode_eq_legal_iff (w : Word) (i : Instr) : decode w = .legal i ↔ i.wf = true ∧ w = encode i := by
  refine ⟨fun h => ?_, fun ⟨hwf, hw⟩ => ?_⟩
  · obtain ⟨hwf, hw⟩ := decodedWordIsItsEncoding w i h
    exact ⟨hwf, hw.symm⟩
  · rw [hw]
    exact encodeThenDecodeGivesInstrBack i hwf

/-- R60's formula of any micro-operation, over the fields the encoder writes. -/
theorem encodedAs_encodeFields (i : Instr) :
    EncodedAs i (encodeFields i).op.toNat (encodeFields i).ra.toNat (encodeFields i).rb.toNat (encodeFields i).rc.toNat
      (encodeFields i).imm.toNat := fun w => by
  rw [decode_eq_legal_iff, ← BitVec.toNat_inj, encode, wordOf_toNat]

/-! A register write and a move of the cursor, as `RestKept` sees them -/

theorem restKept_refl (s : State) : RestKept noField noByte s s := by
  simp [RestKept, FieldsKept, AckKept, FrameKept, SessionKept, StatusKept, OutsideKept]

/-- `RestKept` does not speak of UPC. -/
@[simp] theorem restKept_nextUpc {written : RegNum → Prop} {stored : Nat → Prop} {s t : State} :
    RestKept written stored s (nextUpc t) ↔ RestKept written stored s t := Iff.rfl

/-- `RestKept` does not speak of POS. -/
@[simp] theorem restKept_advancePos {written : RegNum → Prop} {stored : Nat → Prop} {k : Nat} {s t : State} :
    RestKept written stored s (advancePos k t) ↔ RestKept written stored s t := Iff.rfl

/-- A register write reaches the named register alone, and none when that is F0 (R7, R11). -/
theorem restKept_writeField {fd : RegNum} (hfd : fd.toNat ≤ 34) (v : Word) (s : State) :
    RestKept (onlyField fd) noByte s (writeField fd v s) := by
  refine ⟨fun r _ hr => ?_, (restKept_refl s).2⟩
  rw [readField_writeField hfd]
  by_cases h0 : r = 0#6
  · simp [h0]
  · have hne : r ≠ fd := fun h => hr ⟨h, h0⟩
    rw [if_neg h0, if_neg hne]

/-- A register other than F0 holds what was written to it (R7). -/
theorem readField_writeField_same {fd : RegNum} (hfd : fd.toNat ≤ 34) (h0 : fd ≠ 0#6) (v : Word) (s : State) :
    readField fd (writeField fd v s) = some v := by
  rw [readField_writeField hfd, if_neg h0, if_pos rfl]

/-! A legal cursor micro-operation -/

/-- Past the end of the frame it takes `ShortFrame` (R80, R160). -/
theorem exec_cursorOp_short {i : Instr} {k : Nat} {s : State} {effect : State → State}
    (he : exec i s = ifLegal i s (cursorOp k s effect)) (hwf : i.wf = true) (hshort : s.flen.toNat < s.pos.toNat + k) :
    ∃ t, exec i s = .next t ∧ FaultTaken 4 s t := by
  rw [he, ifLegal_of_wf hwf, cursorOp_short hshort]
  exact ⟨_, rfl, takeTrap_faultTaken .shortFrame s⟩

/-- Inside the frame it has its effect and goes on to the next word (R80). -/
theorem exec_cursorOp_fits {i : Instr} {k : Nat} {s : State} {effect : State → State}
    (he : exec i s = ifLegal i s (cursorOp k s effect)) (hwf : i.wf = true) (hfit : s.pos.toNat + k ≤ s.flen.toNat) :
    exec i s = .next (nextUpc (effect s)) := by
  rw [he, ifLegal_of_wf hwf, cursorOp_fits hfit]

/-- Settles O6: the two outcomes of a cursor micro-operation whose effect is to advance. -/
theorem skipAdvancesCursor : Obligations.SkipAdvancesCursor := by
  intro n s
  refine ⟨encodedAs_encodeFields (.skip n), fun _ hshort => ?_, fun hfit => ?_⟩
  · exact exec_cursorOp_short rfl rfl hshort
  · exact ⟨_, exec_cursorOp_fits rfl rfl hfit, advancePos_toNat hfit, rfl, by simpa using restKept_refl s⟩

/-! The reads -/

/-- `i` tests that `k` bytes are left, writes `value` of the `k` bytes at the cursor to `fd` and moves the cursor by
`move` (R80, R82 to R88). -/
structure CursorReads (i : Instr) (fd : RegNum) (k : Nat) (value : Nat → Word) (move : State → State) : Prop where
  wf_eq : i.wf = regOk fd
  exec_eq : ∀ s, exec i s = ifLegal i s (cursorOp k s fun s => move (writeField fd (value (frameRead k s)) s))

namespace CursorReads

theorem rdu8 (fd : RegNum) : CursorReads (.rdu8 fd) fd 1 zextValue (advancePos 1) := ⟨rfl, fun _ => rfl⟩

theorem rdi8 (fd : RegNum) : CursorReads (.rdi8 fd) fd 1 sextByte (advancePos 1) := ⟨rfl, fun _ => rfl⟩

theorem rdu16 (fd : RegNum) : CursorReads (.rdu16 fd) fd 2 zextValue (advancePos 2) := ⟨rfl, fun _ => rfl⟩

theorem rdu24 (fd : RegNum) : CursorReads (.rdu24 fd) fd 3 zextValue (advancePos 3) := ⟨rfl, fun _ => rfl⟩

theorem rdu32 (fd : RegNum) : CursorReads (.rdu32 fd) fd 4 zextValue (advancePos 4) := ⟨rfl, fun _ => rfl⟩

theorem rdi32 (fd : RegNum) : CursorReads (.rdi32 fd) fd 4 zextValue (advancePos 4) := ⟨rfl, fun _ => rfl⟩

theorem pku8 (fd : RegNum) : CursorReads (.pku8 fd) fd 1 zextValue id := ⟨rfl, fun _ => rfl⟩

variable {i : Instr} {fd : RegNum} {k : Nat} {value : Nat → Word} {move : State → State} {s : State}

theorem wf_iff (h : CursorReads i fd k value move) : i.wf = true ↔ fd.toNat ≤ 34 := by
  simp [h.wf_eq, regOk]

/-- The state a read ends in when it takes no fault. -/
theorem exec_fits (h : CursorReads i fd k value move) (hfd : fd.toNat ≤ 34) (hfit : s.pos.toNat + k ≤ s.flen.toNat) :
    exec i s = .next (nextUpc (move (writeField fd (value (frameRead k s)) s))) :=
  exec_cursorOp_fits (h.exec_eq s) (h.wf_iff.2 hfd) hfit

/-- The three outcomes of a read: `IllegalOp` before `ShortFrame`, and else its effect, whatever is said of that state
(R66, R80, R170). -/
theorem outcomes (h : CursorReads i fd k value move) {Post : State → Prop}
    (hpost : fd.toNat ≤ 34 → s.pos.toNat + k ≤ s.flen.toNat →
      Post (nextUpc (move (writeField fd (value (frameRead k s)) s)))) :
    (34 < fd.toNat → ∃ t, exec i s = .next t ∧ FaultTaken 5 s t) ∧
    (fd.toNat ≤ 34 → s.flen.toNat < s.pos.toNat + k → ∃ t, exec i s = .next t ∧ FaultTaken 4 s t) ∧
    (fd.toNat ≤ 34 → s.pos.toNat + k ≤ s.flen.toNat → ∃ t, exec i s = .next t ∧ Post t) := by
  refine ⟨fun hbig => ?_, fun hfd hshort => ?_, fun hfd hfit => ?_⟩
  · have hwf : i.wf = false := by simp [h.wf_eq, regOk, hbig]
    exact ⟨_, exec_of_not_wf hwf s, takeTrap_faultTaken .illegalOp s⟩
  · exact exec_cursorOp_short (h.exec_eq s) (h.wf_iff.2 hfd) hshort
  · exact ⟨_, h.exec_fits hfd hfit, hpost hfd hfit⟩

/-- The three outcomes of an advancing read whose value is `v` (R82 to R87). -/
theorem advancing (h : CursorReads i fd k value (advancePos k)) {v : Word} (hv : value (frameRead k s) = v) :
    (34 < fd.toNat → ∃ t, exec i s = .next t ∧ FaultTaken 5 s t) ∧
    (fd.toNat ≤ 34 → s.flen.toNat < s.pos.toNat + k → ∃ t, exec i s = .next t ∧ FaultTaken 4 s t) ∧
    (fd.toNat ≤ 34 → s.pos.toNat + k ≤ s.flen.toNat →
      ∃ t, exec i s = .next t ∧ (fd ≠ 0#6 → readField fd t = some v) ∧ t.pos.toNat = s.pos.toNat + k ∧
        t.upc = s.upc + 1 ∧ RestKept (onlyField fd) noByte s t) := by
  subst hv
  refine h.outcomes fun hfd hfit => ⟨fun h0 => ?_, ?_, rfl, ?_⟩
  · simpa using readField_writeField_same hfd h0 _ s
  · exact advancePos_toNat (s := writeField fd _ s) hfit
  · simpa using restKept_writeField hfd _ s

end CursorReads

/-- Settles O7: an advancing read of one byte, zero-extended. -/
theorem rdu8ReadsByte : Obligations.Rdu8ReadsByte := fun fd s =>
  ⟨encodedAs_encodeFields (.rdu8 fd), (CursorReads.rdu8 fd).advancing (zextValue_readLE_one s.fb s.pos.toNat)⟩

/-- Settles O8: an advancing read of one byte, sign-extended. -/
theorem rdi8SignExtendsByte : Obligations.Rdi8SignExtendsByte := fun fd s =>
  ⟨encodedAs_encodeFields (.rdi8 fd), (CursorReads.rdi8 fd).advancing (sextByte_readLE_one s.fb s.pos.toNat)⟩

/-- Settles O9: an advancing read of two bytes, zero-extended. -/
theorem rdu16ReadsLittleEndian : Obligations.Rdu16ReadsLittleEndian := fun fd s =>
  ⟨encodedAs_encodeFields (.rdu16 fd), (CursorReads.rdu16 fd).advancing (zextValue_readLE_two s.fb s.pos.toNat)⟩

/-- Settles O10: an advancing read of three bytes, zero-extended. -/
theorem rdu24ReadsLittleEndian : Obligations.Rdu24ReadsLittleEndian := fun fd s =>
  ⟨encodedAs_encodeFields (.rdu24 fd), (CursorReads.rdu24 fd).advancing (zextValue_readLE_three s.fb s.pos.toNat)⟩

/-- Settles O11: an advancing read of four bytes, zero-extended. -/
theorem rdu32ReadsLittleEndian : Obligations.Rdu32ReadsLittleEndian := fun fd s =>
  ⟨encodedAs_encodeFields (.rdu32 fd), (CursorReads.rdu32 fd).advancing (zextValue_readLE_four s.fb s.pos.toNat)⟩

/-- Settles O12: RDI32 has RDU32's value, so its bits are the same. -/
theorem rdi32ReadsSameBitsAsRdu32 : Obligations.Rdi32ReadsSameBitsAsRdu32 := fun fd s =>
  ⟨encodedAs_encodeFields (.rdi32 fd), (CursorReads.rdi32 fd).advancing (zextValue_readLE_four s.fb s.pos.toNat)⟩

/-- Settles O13: a read that does not move the cursor. -/
theorem pku8PeeksWithoutAdvancing : Obligations.Pku8PeeksWithoutAdvancing := by
  intro fd s
  refine ⟨encodedAs_encodeFields (.pku8 fd),
    (CursorReads.pku8 fd).outcomes fun hfd _ => ⟨fun h0 => ?_, rfl, rfl, ?_⟩⟩
  · exact (readField_writeField_same hfd h0 _ s).trans (congrArg some (zextValue_readLE_one s.fb s.pos.toNat))
  · simpa using restKept_writeField hfd _ s

/-! What a read depends on -/

/-- Each of the seven reads is a `CursorReads` of its byte count, and moving the cursor leaves the registers alone. -/
theorem exists_cursorReads {i : Instr} {fd : RegNum} {k : Nat}
    (hi : i ∈ [Instr.rdu8 fd, .rdi8 fd, .rdu16 fd, .rdu24 fd, .rdu32 fd, .rdi32 fd, .pku8 fd])
    (hk : cursorBytes i = some k) :
    ∃ value move, CursorReads i fd k value move ∧ ∀ u : State, (move u).f = u.f := by
  simp only [List.mem_cons, List.not_mem_nil, or_false] at hi
  rcases hi with rfl | rfl | rfl | rfl | rfl | rfl | rfl <;> cases hk
  · exact ⟨_, _, .rdu8 fd, advancePos_f 1⟩
  · exact ⟨_, _, .rdi8 fd, advancePos_f 1⟩
  · exact ⟨_, _, .rdu16 fd, advancePos_f 2⟩
  · exact ⟨_, _, .rdu24 fd, advancePos_f 3⟩
  · exact ⟨_, _, .rdu32 fd, advancePos_f 4⟩
  · exact ⟨_, _, .rdi32 fd, advancePos_f 4⟩
  · exact ⟨_, _, .pku8 fd, fun _ => rfl⟩

/-- The `k` bytes at the cursor are all that `frameRead` sees of a state (R44). -/
theorem frameRead_congr {k : Nat} {s s' : State} (hpos : s'.pos = s.pos)
    (hbytes : ∀ j, j < k → s'.fb.read (s.pos.toNat + j) = s.fb.read (s.pos.toNat + j)) :
    frameRead k s' = frameRead k s := by
  rw [frameRead, frameRead, hpos]
  exact readLE_congr k s.pos.toNat hbytes

/-- Settles O40: the register gets a function of `frameRead`, and both states have the same. -/
theorem readDependsOnlyOnItsBytes : Obligations.ReadDependsOnlyOnItsBytes := by
  intro i fd k s s' hi hk hfd h0 hpos hfit hfit' hbytes
  obtain ⟨value, move, hread, hmove⟩ := exists_cursorReads hi hk
  have hwritten (u : State) :
      readField fd (nextUpc (move (writeField fd (value (frameRead k u)) u))) = some (value (frameRead k u)) := by
    rw [readField_nextUpc, readField_congr (hmove _), readField_writeField_same hfd h0]
  exact ⟨_, _, value (frameRead k s), hread.exec_fits hfd hfit, hread.exec_fits hfd hfit', hwritten s,
    frameRead_congr hpos hbytes ▸ hwritten s'⟩

end Sys2Proof.Proofs
end

section
/-! PROOFS. The statements of `spec/41_bitfield_ops.md` (R90 to R94). EXT, CAT and BATSEL each test their operands, read
their sources, and then have their effect; what each does once its sources hold values is said by `exec_ext`, `exec_cat`
and `exec_batsel`, and the two sequences of R93 and R94 are chains of these. -/

namespace Sys2Proof.Proofs

open Sys2Proof.Machine Sys2Proof.Laws

/-! The outcomes of a micro-operation that reads field registers -/

/-- Operands out of range: `IllegalOp` is taken (R161, R170). -/
theorem takes_illegalOp {i : Instr} (h : ¬ i.wf = true) (s : State) : ∃ t, exec i s = .next t ∧ FaultTaken 5 s t :=
  ⟨_, exec_of_not_wf (Bool.eq_false_iff.2 h) s, takeTrap_faultTaken .illegalOp s⟩

/-- A legal micro-operation has the effect its rule gives it. -/
theorem exec_of_wf {i : Instr} {s effect : State} (he : exec i s = ifLegal i s effect) (hwf : i.wf = true) :
    exec i s = .next effect :=
  he.trans (ifLegal_of_wf hwf s effect)

/-- A source register without a value: `UnwrittenField` is taken (R162). -/
theorem takes_unwrittenField {i : Instr} {fs : RegNum} {s : State} {k : Word → State}
    (he : exec i s = ifLegal i s (withField fs s k)) (hwf : i.wf = true) (hfs : readField fs s = none) :
    ∃ t, exec i s = .next t ∧ FaultTaken 6 s t :=
  ⟨_, withField_none hfs k ▸ exec_of_wf he hwf, takeTrap_faultTaken .unwrittenField s⟩

/-- The next step finds in a register what a step wrote to it (R7). -/
theorem readField_written {fd : RegNum} (hfd : fd.toNat ≤ 34) (h0 : fd ≠ 0#6) (v : Word) (s : State) :
    readField fd (nextUpc (writeField fd v s)) = some v :=
  readField_writeField_same hfd h0 v s

/-- The next step finds every other register as it was (R7). -/
theorem readField_unwritten {fd r : RegNum} (hfd : fd.toNat ≤ 34) (h0 : r ≠ 0#6) (hne : r ≠ fd) (v : Word) (s : State) :
    readField r (nextUpc (writeField fd v s)) = readField r s := by
  rw [readField_nextUpc, readField_writeField hfd, if_neg h0, if_neg hne]

/-- A register write and the next word, as the statements see them: the value, POS, UPC and the frame. -/
theorem register_written {i : Instr} {fd : RegNum} {v : Word} {s : State} (hfd : fd.toNat ≤ 34)
    (he : exec i s = .next (nextUpc (writeField fd v s))) :
    ∃ t, exec i s = .next t ∧ (fd ≠ 0#6 → readField fd t = some v) ∧ t.pos = s.pos ∧ t.upc = s.upc + 1 ∧
      RestKept (onlyField fd) noByte s t :=
  ⟨_, he, fun h0 => readField_written hfd h0 v s, rfl, rfl, restKept_nextUpc.2 (restKept_writeField hfd v s)⟩

/-! EXT -/

/-- EXT's operand ranges (R66). -/
theorem ext_wf_iff {fd fs : RegNum} {lsb : BitVec 6} {w : Byte} :
    (Instr.ext fd fs lsb w).wf = true ↔
      fd.toNat ≤ 34 ∧ fs.toNat ≤ 34 ∧ 1 ≤ w.toNat ∧ w.toNat ≤ 32 ∧ lsb.toNat ≤ 31 ∧ lsb.toNat + w.toNat ≤ 32 := by
  simp [Instr.wf, regOk, bitFieldOk, and_assoc]

/-- A legal EXT whose source holds `v` writes the bit field of `v` (R90). -/
theorem exec_ext {fd fs : RegNum} {lsb : BitVec 6} {w : Byte} {s : State} {v : Word}
    (hwf : (Instr.ext fd fs lsb w).wf = true) (hv : readField fs s = some v) :
    exec (.ext fd fs lsb w) s = .next (nextUpc (writeField fd (bitField v lsb.toNat w.toNat) s)) :=
  (exec_of_wf rfl hwf).trans (congrArg _ (withField_some hv _))

/-- An extracted field as the word of its number (R90). -/
theorem bitField_eq (v : Word) {lsb w : Nat} (h : lsb + w ≤ 32) :
    bitField v lsb w = BitVec.ofNat 32 (v.toNat / 2 ^ lsb % 2 ^ w) := by
  rw [← bitField_toNat h, BitVec.ofNat_toNat, BitVec.setWidth_eq]

/-- Settles O14: the source is read in the state before the write, so fd = fs needs no case of its own. -/
theorem extExtractsBitField : Obligations.ExtExtractsBitField := by
  intro fd fs lsb w s
  refine ⟨encodedAs_encodeFields (.ext fd fs lsb w), fun hbad => ?_, fun hfd hfs hw hlsb hsum hnone => ?_,
    fun hfd hfs hw hlsb hsum v hv => ?_⟩
  · exact takes_illegalOp (mt ext_wf_iff.1 (by omega)) s
  · exact takes_unwrittenField rfl (ext_wf_iff.2 (by omega)) hnone
  · rw [← bitField_eq v hsum]
    exact register_written hfd (exec_ext (ext_wf_iff.2 (by omega)) hv)

/-! CAT -/

/-- CAT's operand ranges (R66). -/
theorem cat_wf_iff {fd fs : RegNum} {n : Byte} :
    (Instr.cat fd fs n).wf = true ↔ fd.toNat ≤ 34 ∧ fs.toNat ≤ 34 ∧ 1 ≤ n.toNat ∧ n.toNat ≤ 31 := by
  simp [Instr.wf, regOk, shiftOk, and_assoc]

/-- A legal CAT whose destination holds `d` goes on to read its source (R91). -/
theorem exec_cat_source {fd fs : RegNum} {n : Byte} {s : State} {d : Word} (hwf : (Instr.cat fd fs n).wf = true)
    (hd : readField fd s = some d) :
    exec (.cat fd fs n) s =
      ifLegal (.cat fd fs n) s (withField fs s fun v => nextUpc (writeField fd (catField d v n.toNat) s)) := by
  rw [ifLegal_of_wf hwf]
  exact (exec_of_wf rfl hwf).trans (congrArg _ (withField_some hd _))

/-- A legal CAT whose registers hold `d` and `v` writes their concatenation (R91). -/
theorem exec_cat {fd fs : RegNum} {n : Byte} {s : State} {d v : Word} (hwf : (Instr.cat fd fs n).wf = true)
    (hd : readField fd s = some d) (hv : readField fs s = some v) :
    exec (.cat fd fs n) s = .next (nextUpc (writeField fd (catField d v n.toNat) s)) :=
  (exec_of_wf (exec_cat_source hwf hd) hwf).trans (congrArg _ (withField_some hv _))

/-- Settles O15: fd is read first, so an invalid fs is reached only when fd holds a value; the fault is the same. -/
theorem catShiftsAndAppends : Obligations.CatShiftsAndAppends := by
  intro fd fs n s
  refine ⟨encodedAs_encodeFields (.cat fd fs n), fun hbad => ?_, fun hfd hfs hlow hhigh hnone => ?_,
    fun hfd hfs hlow hhigh d v hd hv => ?_⟩
  · exact takes_illegalOp (mt cat_wf_iff.1 (by omega)) s
  · have hwf : (Instr.cat fd fs n).wf = true := cat_wf_iff.2 ⟨hfd, hfs, hlow, hhigh⟩
    cases hd : readField fd s with
    | none => exact takes_unwrittenField rfl hwf hd
    | some d => exact takes_unwrittenField (exec_cat_source hwf hd) hwf (by simpa [hd] using hnone)
  · rw [← catField_eq d v hhigh]
    exact register_written hfd (exec_cat (cat_wf_iff.2 ⟨hfd, hfs, hlow, hhigh⟩) hd hv)

/-! BATSEL -/

/-- BATSEL's operand range (R66). -/
theorem batsel_wf_iff {fs : RegNum} : (Instr.batsel fs).wf = true ↔ fs.toNat ≤ 34 := by
  simp [Instr.wf, regOk]

/-- A legal BATSEL whose source holds `v` selects the table of `v` (R92). -/
theorem exec_batsel_written {fs : RegNum} {s : State} {v : Word} (hwf : (Instr.batsel fs).wf = true)
    (hv : readField fs s = some v) : exec (.batsel fs) s = .next (nextUpc (setBatsel (batteryTable v) s)) :=
  (exec_of_wf rfl hwf).trans (congrArg _ (withField_some hv _))

/-- Settles O16: the selector's value is `batteryTable_iff`; `setBatsel` writes nothing but the selector. -/
theorem batselSelectsTable : Obligations.BatselSelectsTable := by
  intro fs s
  refine ⟨encodedAs_encodeFields (.batsel fs), fun hbig => ?_, fun hfs hnone => ?_, fun hfs v hv => ?_⟩
  · exact takes_illegalOp (mt batsel_wf_iff.1 (by omega)) s
  · exact takes_unwrittenField rfl (batsel_wf_iff.2 hfs) hnone
  · obtain ⟨hfields, hack, hframe, -, hstatus, houtside⟩ := restKept_refl s
    exact ⟨_, exec_batsel_written (batsel_wf_iff.2 hfs) hv, batteryTable_iff v, rfl, rfl, rfl, hfields, hack, hframe,
      hstatus, houtside⟩

/-! Operator composition (R93) -/

/-- The high nibble of a byte, at bits 11:8: EXT's field shifted as CAT shifts it is the document's masked byte. -/
theorem highNibble_shifted (hi : Word) : bitField hi 4 4 <<< 8 = (hi &&& 0xF0) <<< 4 := by
  have hmask : bitField hi 4 4 <<< 4 = hi &&& 0xF0 := by
    ext i hlt
    interval_cases i <;> simp [bitField]
  rw [← hmask, ← BitVec.shiftLeft_add]

/-- A value of at most `n` bits is its own low `n` bits. -/
theorem bitField_zero_of_lt {v : Word} {n : Nat} (hn : n ≤ 32) (hv : v.toNat < 2 ^ n) : bitField v 0 n = v := by
  apply BitVec.eq_of_toNat_eq
  rw [bitField_toNat (by omega), pow_zero, Nat.div_one, Nat.mod_eq_of_lt hv]

/-- CAT of a byte below at most 24 bits, as a number: nothing is shifted out (R91). -/
theorem catField_byte_toNat {d v : Word} (hd : d.toNat < 2 ^ 24) (hv : v.toNat < 256) :
    (catField d v 8).toNat = d.toNat * 256 + v.toNat := by
  rw [catField_eq d v (by decide), BitVec.toNat_ofNat]
  omega

/-- The word that R93's EXT and two CATs compute from the three bytes. -/
def operatorWord (hi mid lo : Word) : Word := catField (catField (bitField hi 4 4) mid 8) lo 8

/-- It is the document's expression (R93). -/
theorem operatorWord_eq (hi : Word) {mid lo : Word} (hmid : mid.toNat < 256) (hlo : lo.toNat < 256) :
    operatorWord hi mid lo = ((((hi &&& 0xF0) <<< 4) ||| mid) <<< 8 ||| lo) := by
  rw [operatorWord, catField, catField, highNibble_shifted, bitField_zero_of_lt (by decide) hmid,
    bitField_zero_of_lt (by decide) hlo]

/-- It is `hi[7:4] || mid || lo` as a number (R93). -/
theorem operatorWord_toNat {hi mid lo : Word} (hhi : hi.toNat < 256) (hmid : mid.toNat < 256) (hlo : lo.toNat < 256) :
    (operatorWord hi mid lo).toNat = hi.toNat / 16 * 65536 + mid.toNat * 256 + lo.toNat := by
  have hnibble : (bitField hi 4 4).toNat = hi.toNat / 16 := by
    rw [bitField_toNat (by decide)]
    omega
  have hpair := catField_byte_toNat (d := bitField hi 4 4) (by omega) hmid
  calc (operatorWord hi mid lo).toNat = (catField (bitField hi 4 4) mid 8).toNat * 256 + lo.toNat :=
        catField_byte_toNat (by omega) hlo
    _ = hi.toNat / 16 * 65536 + mid.toNat * 256 + lo.toNat := by omega

/-- R93's three micro-operations leave `operatorWord` in OPER: each finds OPER as the one before left it. -/
theorem exec_operator_composition {s : State} {hi mid lo : Word} (hOPHI : readField 10 s = some hi)
    (hOPMID : readField 11 s = some mid) (hOPLO : readField 15 s = some lo) :
    ∃ t1 t2 t3, exec (.ext 34 10 4 4) s = .next t1 ∧ exec (.cat 34 11 8) t1 = .next t2 ∧
      exec (.cat 34 15 8) t2 = .next t3 ∧ readField 34 t3 = some (operatorWord hi mid lo) := by
  have hOPER (v : Word) (u : State) := readField_written (fd := 34) (by decide) (by decide) v u
  refine ⟨_, _, _, exec_ext rfl hOPHI, exec_cat rfl (hOPER _ _) ?_, exec_cat rfl (hOPER _ _) ?_, hOPER _ _⟩
  · rwa [readField_unwritten (by decide) (by decide) (by decide)]
  · rwa [readField_unwritten (by decide) (by decide) (by decide),
      readField_unwritten (by decide) (by decide) (by decide)]

/-- Settles O49: the three steps leave `operatorWord`, whose two forms are `operatorWord_eq` and `operatorWord_toNat`. -/
theorem operatorIsComposedOfThreeBytes : Obligations.OperatorIsComposedOfThreeBytes := by
  intro s hi mid lo hhi hmid hlo hOPHI hOPMID hOPLO
  obtain ⟨t1, t2, t3, h1, h2, h3, hOPER⟩ := exec_operator_composition hOPHI hOPMID hOPLO
  have hvalue := operatorWord_toNat hhi hmid hlo
  exact ⟨t1, t2, t3, _, h1, h2, h3, hOPER, operatorWord_eq hi hmid hlo, hvalue, by omega⟩

/-! The status nibble (R94) -/

/-- Settles O50: PKU8 and EXT leave the cursor and the frame alone, so RDU8 reads the byte that PKU8 peeked. -/
theorem statusNibbleIsPeekedByte : Obligations.StatusNibbleIsPeekedByte := by
  intro s hfit
  have hbyte : zextValue (frameRead 1 s) = frameU8 s s.pos.toNat := zextValue_readLE_one s.fb s.pos.toNat
  have hnibble : bitField (frameU8 s s.pos.toNat) 0 4 = BitVec.ofNat 32 ((s.fb.read s.pos.toNat).toNat % 16) := by
    simp [bitField_eq, frameU8]
  have hpku8 := (CursorReads.pku8 8).exec_fits (by decide) hfit
  rw [hbyte] at hpku8
  have hPEEK := readField_written (fd := 8) (by decide) (by decide) (frameU8 s s.pos.toNat) s
  refine ⟨_, _, _, hpku8, exec_ext rfl hPEEK, (CursorReads.rdu8 10).exec_fits (by decide) hfit, ?_, ?_, ?_⟩
  · exact (readField_unwritten (by decide) (by decide) (by decide) _ _).trans
      ((readField_written (by decide) (by decide) _ _).trans (congrArg some hnibble))
  · exact (readField_written (by decide) (by decide) _ _).trans (congrArg some hbyte)
  · exact advancePos_toNat hfit

end Sys2Proof.Proofs
end

section
/-! PROOFS. The statements of `spec/42_ack_checksum_ops.md` about single micro-operations (R101 to R107). ABI, ABB, ABW32
and CKSUM each end in one store to AB, and `store_effect` says once what that does; that no other micro-operation depends
on ABCNT's counter is a commutation with a change of it (`CounterBlind`). -/

namespace Sys2Proof.Proofs

open Sys2Proof.Machine Sys2Proof.Laws

/-! Stored bytes -/

/-- Byte `k` of a word, as the number R7 writes to memory. -/
theorem extractByte_eq (v : Word) (k : Nat) : v.extractLsb' (8 * k) 8 = BitVec.ofNat 8 (v.toNat / 256 ^ k) := by
  apply BitVec.eq_of_toNat_eq
  rw [BitVec.extractLsb'_toNat, BitVec.toNat_ofNat, Nat.shiftRight_eq_div_pow, pow_mul]
  rfl

/-- A one-byte store of a zero-extended byte stores that byte (R102, R104, R105). -/
theorem extractByte_setWidth (x : Byte) : (x.setWidth 32).extractLsb' (8 * 0) 8 = x := by
  rw [extractByte_eq, pow_zero, Nat.div_one, BitVec.ofNat_toNat]
  exact BitVec.setWidth_setWidth_of_le x (by decide)

/-- A store reaches its own bytes of AB alone (R7). -/
theorem restKept_storeAck (off : AbOff) (n : Nat) (v : Word) (s : State) :
    RestKept noField (bytesAt off.toNat n) s (storeAck off n v s) := by
  obtain ⟨hfields, -, hrest⟩ := restKept_refl s
  exact ⟨hfields, fun a ha => storeAck_outside off n v s ha, hrest⟩

/-- A store and the next word, as the statements see them: the bytes, POS, UPC and the frame. -/
theorem store_effect {i : Instr} {off : AbOff} {n : Nat} {v : Word} {s : State} (hwf : s.ab.wf = true)
    (he : exec i s = .next (nextUpc (storeAck off n v s))) :
    ∃ t, exec i s = .next t ∧ (∀ k, k < n → t.ab.read (off.toNat + k) = v.extractLsb' (8 * k) 8) ∧ t.pos = s.pos ∧
      t.upc = s.upc + 1 ∧ RestKept noField (bytesAt off.toNat n) s t :=
  ⟨_, he, fun _ hk => storeAck_inside hwf off n v hk, rfl, rfl, restKept_nextUpc.2 (restKept_storeAck off n v s)⟩

/-- The same of a one-byte store of a zero-extended byte. -/
theorem storeByte_effect {i : Instr} {off : AbOff} {x : Byte} {s : State} (hwf : s.ab.wf = true)
    (he : exec i s = .next (nextUpc (storeAck off 1 (x.setWidth 32) s))) :
    ∃ t, exec i s = .next t ∧ t.ab.read off.toNat = x ∧ t.pos = s.pos ∧ t.upc = s.upc + 1 ∧
      RestKept noField (bytesAt off.toNat 1) s t := by
  obtain ⟨t, ht, hbytes, hrest⟩ := store_effect hwf he
  exact ⟨t, ht, (hbytes 0 Nat.one_pos).trans (extractByte_setWidth x), hrest⟩

/-! ABCLR and EMIT -/

/-- ABCLR reaches no byte outside AB's 28 (R101). -/
theorem restKept_clearAck {s : State} (hwf : s.ab.wf = true) : RestKept noField (bytesAt 0 28) s (clearAck s) := by
  refine ⟨fun r _ _ => readField_clearAck s r, fun a ha => ?_, by simp [FrameKept], by simp [SessionKept],
    by simp [StatusKept], by simp [OutsideKept]⟩
  rw [clearAck_read hwf, if_neg]
  exact fun hlt => ha ⟨Nat.zero_le a, by omega⟩

/-- ABCLR has no operand that could be illegal (R101). -/
theorem exec_abclr (s : State) : exec .abclr s = .next (nextUpc (clearAck s)) :=
  ifLegal_of_wf rfl s _

/-- Settles O17: what AB reads is `clearAck_read`. -/
theorem abclrClearsAckBuffer : Obligations.AbclrClearsAckBuffer := by
  refine ⟨encodedAs_encodeFields .abclr, fun s hwf => ?_⟩
  refine ⟨_, exec_abclr s, fun a ha => ?_, by simp, by simp, restKept_nextUpc.2 (restKept_clearAck hwf)⟩
  rw [nextUpc_ab, clearAck_read hwf, if_pos ha]

/-- Settles O23: `setAckv` writes nothing but ACKV, whatever AB holds. -/
theorem emitSetsAckv : Obligations.EmitSetsAckv := by
  refine ⟨encodedAs_encodeFields .emit, fun s => ?_⟩
  obtain ⟨hfields, hack, hframe, hsession, -, houtside⟩ := restKept_refl s
  exact ⟨_, exec_of_wf rfl rfl, rfl, rfl, rfl, rfl, rfl, hfields, hack, hframe, hsession, houtside⟩

/-! The stores of an immediate, of a register and of the checksum -/

/-- ABI's operand range (R66). -/
theorem abi_wf_iff {off : AbOff} {byte : Byte} : (Instr.abi off byte).wf = true ↔ off.toNat ≤ 27 := by
  simp [Instr.wf, abOffOk]

/-- A legal ABI stores its byte (R102). -/
theorem exec_abi {off : AbOff} {byte : Byte} {s : State} (hwf : (Instr.abi off byte).wf = true) :
    exec (.abi off byte) s = .next (nextUpc (storeAck off 1 (byte.setWidth 32) s)) :=
  exec_of_wf rfl hwf

/-- Settles O18: the effect of a one-byte store of the immediate. -/
theorem abiStoresImmediate : Obligations.AbiStoresImmediate := by
  intro off byte s
  refine ⟨encodedAs_encodeFields (.abi off byte), fun hbad => ?_, fun hoff hwf => ?_⟩
  · exact takes_illegalOp (mt abi_wf_iff.1 (by omega)) s
  · exact storeByte_effect hwf (exec_abi (abi_wf_iff.2 hoff))

/-- ABB's operand ranges (R66). -/
theorem abb_wf_iff {off : AbOff} {fs : RegNum} : (Instr.abb off fs).wf = true ↔ off.toNat ≤ 27 ∧ fs.toNat ≤ 34 := by
  simp [Instr.wf, abOffOk, regOk]

/-- A legal ABB whose source holds `v` stores the low byte of `v` (R103). -/
theorem exec_abb {off : AbOff} {fs : RegNum} {s : State} {v : Word} (hwf : (Instr.abb off fs).wf = true)
    (hv : readField fs s = some v) : exec (.abb off fs) s = .next (nextUpc (storeAck off 1 v s)) :=
  (exec_of_wf rfl hwf).trans (congrArg _ (withField_some hv _))

/-- Settles O19: byte 0 of the register is the register modulo 256. -/
theorem abbStoresLowByte : Obligations.AbbStoresLowByte := by
  intro off fs s
  refine ⟨encodedAs_encodeFields (.abb off fs), fun hbad => ?_, fun hoff hfs hnone => ?_, fun hoff hfs hab v hv => ?_⟩
  · exact takes_illegalOp (mt abb_wf_iff.1 (by omega)) s
  · exact takes_unwrittenField rfl (abb_wf_iff.2 ⟨hoff, hfs⟩) hnone
  · obtain ⟨t, ht, hbytes, hrest⟩ := store_effect hab (exec_abb (abb_wf_iff.2 ⟨hoff, hfs⟩) hv)
    have hlow : t.ab.read off.toNat = BitVec.ofNat 8 (v.toNat / 256 ^ 0) :=
      (hbytes 0 Nat.one_pos).trans (extractByte_eq v 0)
    exact ⟨t, ht, by simp [hlow], hrest⟩

/-- ABW32's operand ranges: the last of the four bytes stays inside AB (R66, R106). -/
theorem abw32_wf_iff {off : AbOff} {fs : RegNum} : (Instr.abw32 off fs).wf = true ↔ off.toNat ≤ 24 ∧ fs.toNat ≤ 34 := by
  simp [Instr.wf, abOff32Ok, regOk]

/-- A legal ABW32 whose source holds `v` stores the four bytes of `v` (R106). -/
theorem exec_abw32 {off : AbOff} {fs : RegNum} {s : State} {v : Word} (hwf : (Instr.abw32 off fs).wf = true)
    (hv : readField fs s = some v) : exec (.abw32 off fs) s = .next (nextUpc (storeAck off 4 v s)) :=
  (exec_of_wf rfl hwf).trans (congrArg _ (withField_some hv _))

/-- Settles O20: byte k of the store is `extractByte_eq`. -/
theorem abw32StoresLittleEndian : Obligations.Abw32StoresLittleEndian := by
  intro off fs s
  refine ⟨encodedAs_encodeFields (.abw32 off fs), fun hbad => ?_, fun hoff hfs hnone => ?_,
    fun hoff hfs hab v hv => ?_⟩
  · exact takes_illegalOp (mt abw32_wf_iff.1 (by omega)) s
  · exact takes_unwrittenField rfl (abw32_wf_iff.2 ⟨hoff, hfs⟩) hnone
  · obtain ⟨t, ht, hbytes, hrest⟩ := store_effect hab (exec_abw32 (abw32_wf_iff.2 ⟨hoff, hfs⟩) hv)
    refine ⟨t, ht, fun k hk => ?_, hrest⟩
    rw [hbytes k hk, extractByte_eq, BitVec.toNat_ofNat]

/-- CKSUM's operand ranges: a non-empty range inside AB (R66). -/
theorem cksum_wf_iff {dst lo hi : AbOff} :
    (Instr.cksum dst lo hi).wf = true ↔ dst.toNat ≤ 27 ∧ lo.toNat ≤ hi.toNat ∧ hi.toNat ≤ 27 := by
  simp [Instr.wf, abOffOk, abRangeOk]

/-- The checksum of AB[lo] to AB[hi] as a number (R105). -/
theorem ackSum_toNat {lo hi : AbOff} (hle : lo.toNat ≤ hi.toNat) (s : State) :
    (ackSum lo hi s).toNat = (∑ i ∈ Finset.Icc lo.toNat hi.toNat, (s.ab.read i).toNat) % 256 := by
  rw [ackSum, memory_sum_toNat, Nat.add_sub_of_le (by omega), Finset.Ico_add_one_right_eq_Icc]

/-- Settles O22: the sum is taken in the state before the store, so dst inside the range needs no case of its own. -/
theorem cksumStoresModularSum : Obligations.CksumStoresModularSum := by
  intro dst lo hi s
  refine ⟨encodedAs_encodeFields (.cksum dst lo hi), fun hbad => ?_, fun hdst hhi hle hab => ?_⟩
  · exact takes_illegalOp (mt cksum_wf_iff.1 (by omega)) s
  · obtain ⟨t, ht, hsum, hrest⟩ :=
      storeByte_effect hab (exec_of_wf rfl (cksum_wf_iff.2 ⟨hdst, hle, hhi⟩))
    exact ⟨t, ht, hsum ▸ ackSum_toNat hle s, hrest⟩

/-! The counter -/

/-- The state with another CMDCNT. -/
def withCounter (c : BitVec 8) (s : State) : State := { s with cmdcnt := c }

/-- An effect that neither reads nor writes CMDCNT commutes with a change of it. -/
def CounterBlind (effect : State → State) : Prop := ∀ c s, effect (withCounter c s) = withCounter c (effect s)

theorem counterBlind_withField (r : RegNum) {k : Word → State → State} (hk : ∀ v, CounterBlind (k v)) :
    CounterBlind fun s => withField r s fun v => k v s := by
  intro c s
  have hread : readField r (withCounter c s) = readField r s := rfl
  cases hv : readField r s with
  | none => simp only [withField_none hv, withField_none (hread.trans hv)]; rfl
  | some v => simpa only [withField_some hv, withField_some (hread.trans hv)] using hk v c s

theorem counterBlind_cursorOp (k : Nat) {effect : State → State} (h : CounterBlind effect) :
    CounterBlind fun s => cursorOp k s effect := by
  intro c s
  rcases Nat.lt_or_ge s.flen.toNat (s.pos.toNat + k) with hshort | hfit
  · exact (cursorOp_short (s := withCounter c s) hshort effect).trans
      (congrArg (withCounter c) (cursorOp_short hshort effect).symm)
  · refine (cursorOp_fits (s := withCounter c s) hfit effect).trans ?_
    rw [h c s]
    exact congrArg (withCounter c) (cursorOp_fits hfit effect).symm

theorem counterBlind_branchIf {cond : State → Bool} (h : ∀ c s, cond (withCounter c s) = cond s) (target : RomIndex) :
    CounterBlind fun s => branchIf (cond s) target s := by
  intro c s
  simp only [h]
  cases cond s <;> rfl

theorem clearAck_withCounter (c : BitVec 8) (s : State) : clearAck (withCounter c s) = withCounter c (clearAck s) := by
  simp only [clearAck, withCounter]

theorem counterBlind_clearAck : CounterBlind fun s => nextUpc (clearAck s) := by
  intro c s
  have hnext (u : State) : nextUpc (withCounter c u) = withCounter c (nextUpc u) := rfl
  exact (congrArg nextUpc (clearAck_withCounter c s)).trans (hnext (clearAck s))

/-- Every micro-operation but ABCNT has an effect that neither reads nor writes CMDCNT (R104). -/
theorem exists_counterBlind {i : Instr} (hi : ∀ off, i ≠ .abcnt off) :
    ∃ effect, (∀ s, exec i s = ifLegal i s (effect s)) ∧ CounterBlind effect := by
  cases i with
  | abcnt off => exact absurd rfl (hi off)
  | skip | rdu8 | rdi8 | rdu16 | rdu24 | rdu32 | rdi32 | pku8 =>
    exact ⟨_, fun _ => rfl, counterBlind_cursorOp _ fun _ _ => rfl⟩
  | ext | batsel | abb | abw32 => exact ⟨_, fun _ => rfl, counterBlind_withField _ fun _ _ _ => rfl⟩
  | cat fd fs =>
    exact ⟨_, fun _ => rfl, counterBlind_withField fd fun _ => counterBlind_withField fs fun _ _ _ => rfl⟩
  | abclr => exact ⟨fun s => nextUpc (clearAck s), fun _ => rfl, counterBlind_clearAck⟩
  | abi | cksum | emit | halt => exact ⟨_, fun _ => rfl, fun _ _ => rfl⟩
  | beqi fs _ target | bnsess fs target =>
    exact ⟨_, fun _ => rfl, counterBlind_withField fs fun _ => counterBlind_branchIf (fun _ _ => rfl) target⟩
  | bnchan target => exact ⟨_, fun _ => rfl, counterBlind_branchIf (fun _ _ => rfl) target⟩

/-- From two states that differ in CMDCNT alone, a micro-operation other than ABCNT answers two states that differ in
CMDCNT alone (R104). -/
theorem exec_withCounter {i : Instr} {s t : State} (hi : ∀ off, i ≠ .abcnt off) (h : exec i s = .next t) (c : BitVec 8) :
    exec i (withCounter c s) = .next (withCounter c t) := by
  obtain ⟨effect, hexec, hblind⟩ := exists_counterBlind hi
  rw [hexec, ifLegal_eq] at h
  rw [hexec, ifLegal_eq]
  rcases h with ⟨hwf, rfl⟩ | ⟨hwf, rfl⟩
  · exact .inl ⟨hwf, (hblind c s).symm⟩
  · exact .inr ⟨hwf, rfl⟩

/-- ABCNT's operand range (R66). -/
theorem abcnt_wf_iff {off : AbOff} : (Instr.abcnt off).wf = true ↔ off.toNat ≤ 27 := by
  simp [Instr.wf, abOffOk]

/-- Settles O21: ABCNT stores before it counts; the other micro-operations are `exec_cmdcnt` and `exec_withCounter`. -/
theorem abcntStoresThenIncrements : Obligations.AbcntStoresThenIncrements := by
  refine ⟨fun off s => ⟨encodedAs_encodeFields (.abcnt off), fun hbad => ?_, fun hoff hab => ?_⟩, fun i s t c hi h => ?_⟩
  · exact takes_illegalOp (mt abcnt_wf_iff.1 (by omega)) s
  · have hstored := (storeAck_inside hab off 1 (s.cmdcnt.setWidth 32) Nat.one_pos).trans (extractByte_setWidth s.cmdcnt)
    obtain ⟨hfields, hack, hframe, -, hstatus, houtside⟩ := restKept_storeAck off 1 (s.cmdcnt.setWidth 32) s
    exact ⟨_, exec_of_wf rfl (abcnt_wf_iff.2 hoff), hstored, BitVec.toNat_add _ _, rfl, rfl, rfl, hfields, hack, hframe,
      hstatus, houtside⟩
  · have hkept : t.cmdcnt = s.cmdcnt := by
      by_contra hne
      obtain ⟨off, hoff⟩ := exec_cmdcnt h hne
      exact hi off hoff
    exact ⟨hkept, exec_withCounter hi h c⟩

end Sys2Proof.Proofs
end

section
/-! PROOFS. The acknowledgement routine of `spec/42_ack_checksum_ops.md` (R108): the run over ROM addresses 7 to 17, and then
the bytes it leaves. Along the run the unit differs from its first state in UPC, AB, CMDCNT and ACKV alone (`ackState`). -/

namespace Sys2Proof.Proofs

open Sys2Proof.Machine Sys2Proof.Laws

/-- The unit inside the routine: as it was at `s`, but for UPC, AB, CMDCNT and ACKV. -/
def ackState (s : State) (k : RomIndex) (m : Memory) (c : BitVec 8) (b : Bool) : State :=
  { s with upc := k, ab := m, cmdcnt := c, ackv := b }

/-- AB after the five constant bytes of addresses 8 to 12. -/
def ackConstants (m : Memory) : Memory :=
  ((((m.write 0 0x4D).write 1 0x43).write 2 0x47).write 3 0x50).write 4 0x04

/-- AB after addresses 13 to 15: the unit id, the counter and the packet number are in place. -/
def ackPayload (u p : Word) (c : BitVec 8) (m : Memory) : Memory :=
  (((ackConstants m).writeLE 5 4 u).write 9 c).write 15 (p.extractLsb' 0 8)

/-- AB after the checksum of address 16. -/
def ackSummed (u p : Word) (c : BitVec 8) (m : Memory) : Memory :=
  (ackPayload u p c m).write 27 ((ackPayload u p c m).sum 4 23)

/-! The run -/

/-- A one-byte store of a zero-extended byte writes that byte. -/
theorem writeLE_setWidth (m : Memory) (off : Nat) (x : Byte) : m.writeLE off 1 (x.setWidth 32) = m.write off x :=
  congrArg (m.write off) (extractByte_setWidth x)

section Routine

variable {s : State} (hrun : s.run = true) (hscript : s.script = []) (hrom : s.urom = microRom)
  {k : RomIndex} {m : Memory} {c : BitVec 8} {b : Bool} {i : Instr}
include hrun hscript hrom

/-- One step of the routine, as the first of a run of steps. -/
theorem run_ackState {k' : RomIndex} {m' : Memory} {c' : BitVec 8} {b' : Bool} (hi : romListing[k.toNat]? = some i)
    (he : exec i (ackState s k m c b) = .next (ackState s k' m' c' b')) (j : Nat) :
    Host.Core.run Sys2Proof.core (j + 1) (ackState s k m c b) =
      Host.Core.run Sys2Proof.core j (ackState s k' m' c' b') :=
  run_microRom (s := ackState s k m c b) hrun hscript hrom hi he j

/-- One step of the routine that ends in a store. -/
theorem run_store {off : AbOff} {n : Nat} {v : Word} (hi : romListing[k.toNat]? = some i)
    (he : exec i (ackState s k m c b) = .next (nextUpc (storeAck off n v (ackState s k m c b)))) (j : Nat) :
    Host.Core.run Sys2Proof.core (j + 1) (ackState s k m c b) =
      Host.Core.run Sys2Proof.core j (ackState s (k + 1) (m.writeLE off.toNat n v) c b) :=
  run_ackState hrun hscript hrom hi he j

/-- One step of the routine that ends in a store of one zero-extended byte. -/
theorem run_storeByte {off : AbOff} {x : Byte} (hi : romListing[k.toNat]? = some i)
    (he : exec i (ackState s k m c b) = .next (nextUpc (storeAck off 1 (x.setWidth 32) (ackState s k m c b)))) (j : Nat) :
    Host.Core.run Sys2Proof.core (j + 1) (ackState s k m c b) =
      Host.Core.run Sys2Proof.core j (ackState s (k + 1) (m.write off.toNat x) c b) := by
  rw [run_store hrun hscript hrom hi he, writeLE_setWidth]

/-- Address 7. -/
theorem run_ackClear (j : Nat) :
    Host.Core.run Sys2Proof.core (j + 1) (ackState s 7 m c b) =
      Host.Core.run Sys2Proof.core j (ackState s (7 + 1) (m.clear 0 28) c b) := by
  have hclear : nextUpc (clearAck (ackState s 7 m c b)) = ackState s (7 + 1) (m.clear 0 28) c b := by
    simp only [clearAck, nextUpc, setUpc, ackState]
  exact run_ackState hrun hscript hrom rfl ((exec_abclr _).trans (congrArg _ hclear)) j

/-- Addresses 8 to 12. -/
theorem run_ackConstants (j : Nat) :
    Host.Core.run Sys2Proof.core (j + 5) (ackState s 8 m c b) =
      Host.Core.run Sys2Proof.core j (ackState s 13 (ackConstants m) c b) := by
  rw [run_storeByte hrun hscript hrom (i := .abi 0 0x4D) rfl (exec_abi rfl),
    run_storeByte hrun hscript hrom (i := .abi 1 0x43) rfl (exec_abi rfl),
    run_storeByte hrun hscript hrom (i := .abi 2 0x47) rfl (exec_abi rfl),
    run_storeByte hrun hscript hrom (i := .abi 3 0x50) rfl (exec_abi rfl),
    run_storeByte hrun hscript hrom (i := .abi 4 0x04) rfl (exec_abi rfl)]
  rfl

/-- Addresses 13 to 15, which read UNITID, CMDCNT and PKTNUM. -/
theorem run_ackPayload {u p : Word} (hu : readField 2 s = some u) (hp : readField 3 s = some p) (j : Nat) :
    Host.Core.run Sys2Proof.core (j + 3) (ackState s 13 (ackConstants m) c b) =
      Host.Core.run Sys2Proof.core j (ackState s 16 (ackPayload u p c m) (c + 1) b) := by
  have hcount (k : RomIndex) (m : Memory) :
      exec (.abcnt 9) (ackState s k m c b) = .next (ackState s (k + 1) (m.write 9 c) (c + 1) b) := by
    rw [← writeLE_setWidth]
    exact exec_of_wf rfl rfl
  have hunit (k : RomIndex) (m : Memory) : readField 2 (ackState s k m c b) = some u := hu
  have hpacket (k : RomIndex) (m : Memory) : readField 3 (ackState s k m (c + 1) b) = some p := hp
  rw [run_store hrun hscript hrom (i := .abw32 5 2) rfl (exec_abw32 rfl (hunit _ _)),
    run_ackState hrun hscript hrom rfl (hcount _ _),
    run_store hrun hscript hrom (i := .abb 15 3) rfl (exec_abb rfl (hpacket _ _))]
  rfl

/-- Addresses 16 and 17. -/
theorem run_ackSummed {u p : Word} {c' : BitVec 8} :
    Host.Core.run Sys2Proof.core 2 (ackState s 16 (ackPayload u p c m) c' b) =
      .next (ackState s 18 (ackSummed u p c m) c' true) := by
  have hemit : exec .emit (ackState s 17 (ackSummed u p c m) c' b) = .next (ackState s 18 (ackSummed u p c m) c' true) :=
    exec_of_wf rfl rfl
  exact (run_storeByte hrun hscript hrom (i := .cksum 27 4 26) rfl (exec_of_wf rfl rfl) 1).trans
    (run_ackState hrun hscript hrom rfl hemit 0)

/-- The eleven steps of the routine. -/
theorem run_ackRoutine {u p : Word} (hu : readField 2 s = some u) (hp : readField 3 s = some p) :
    Host.Core.run Sys2Proof.core 11 (ackState s 7 m c b) =
      .next (ackState s 18 (ackSummed u p c (m.clear 0 28)) (c + 1) true) := by
  rw [run_ackClear hrun hscript hrom 10]
  refine (run_ackConstants hrun hscript hrom 5).trans ?_
  rw [run_ackPayload hrun hscript hrom hu hp 2, run_ackSummed hrun hscript hrom]

end Routine

/-! The bytes -/

/-- A canonical memory that reads `f`. -/
structure MemoryReads (m : Memory) (f : Nat → Byte) : Prop where
  wf : m.wf = true
  read_eq : ∀ a, m.read a = f a

namespace MemoryReads

variable {m : Memory} {f : Nat → Byte}

theorem write (h : MemoryReads m f) (off : Nat) (x : Byte) :
    MemoryReads (m.write off x) fun a => if a = off then x else f a :=
  ⟨wf_write h.wf off x, fun a => by rw [read_write h.wf, h.read_eq]⟩

theorem writeLE (h : MemoryReads m f) (off n : Nat) (v : Word) :
    MemoryReads (m.writeLE off n v) fun a =>
      if off ≤ a ∧ a < off + n then BitVec.ofNat 8 (v.toNat / 256 ^ (a - off)) else f a := by
  refine ⟨wf_writeLE n off v h.wf, fun a => ?_⟩
  split_ifs with ha
  · obtain ⟨k, rfl⟩ := Nat.exists_eq_add_of_le ha.1
    rw [read_writeLE_inside n off v k h.wf (by omega), extractByte_eq, Nat.add_sub_cancel_left]
  · rw [read_writeLE_outside n m off v (by omega), h.read_eq]

theorem clear (hwf : m.wf = true) : MemoryReads (m.clear 0 28) fun a => if a < 28 then 0x00 else m.read a :=
  ⟨wf_clear 28 0 hwf, fun a => by simpa using read_clear 28 0 a hwf⟩

end MemoryReads

/-- The checksum's closed form is the sum of the bytes 4 to 26: 16 of them are zero (R108). -/
theorem ackByte_checksum (u : Word) (count packet : Byte) :
    (ackByte u count packet 27).toNat = (∑ i ∈ Finset.Ico 4 27, (ackByte u count packet i).toNat) % 256 := by
  have hsum : ∑ i ∈ Finset.Ico 4 27, (ackByte u count packet i).toNat =
      4 + u.toNat % 256 + u.toNat / 256 % 256 + u.toNat / 65536 % 256 + u.toNat / 16777216 % 256 + count.toNat +
        packet.toNat := by
    simp [Finset.sum_Ico_succ_top, ackByte]
  rw [hsum, ackByte, BitVec.toNat_ofNat]
  omega

section Bytes

variable {m : Memory} (hwf : m.wf = true) (u p : Word) (c : BitVec 8)
include hwf

/-- Before the checksum every byte but the last is the acknowledgement's (R100). -/
theorem ackPayload_reads :
    (ackPayload u p c (m.clear 0 28)).wf = true ∧
      ∀ a, a < 27 → (ackPayload u p c (m.clear 0 28)).read a = ackByte u c (p.setWidth 8) a := by
  have hconstants := (((((MemoryReads.clear hwf).write 0 0x4D).write 1 0x43).write 2 0x47).write 3 0x50).write 4 0x04
  have hpayload := ((hconstants.writeLE 5 4 u).write 9 c).write 15 (p.extractLsb' 0 8)
  refine ⟨hpayload.wf, fun a ha => (hpayload.read_eq a).trans ?_⟩
  have hpacket : p.extractLsb' 0 8 = p.setWidth 8 := by
    simpa using extractByte_eq p 0
  rw [hpacket]
  interval_cases a <;> simp [ackByte]

theorem ackPayload_sum : (ackPayload u p c (m.clear 0 28)).sum 4 23 = ackByte u c (p.setWidth 8) 27 := by
  obtain ⟨-, hreads⟩ := ackPayload_reads hwf u p c
  apply BitVec.eq_of_toNat_eq
  rw [ackByte_checksum, memory_sum_toNat]
  exact congrArg (· % 256) (Finset.sum_congr rfl fun i hi =>
    congrArg BitVec.toNat (hreads i (Finset.mem_Ico.1 hi).2))

/-- After the checksum all 28 bytes are the acknowledgement's (R108). -/
theorem ackSummed_reads {a : Nat} (ha : a < 28) :
    (ackSummed u p c (m.clear 0 28)).read a = ackByte u c (p.setWidth 8) a := by
  obtain ⟨hpayload, hreads⟩ := ackPayload_reads hwf u p c
  rw [ackSummed, read_write hpayload]
  split_ifs with hlast
  · rw [hlast, ackPayload_sum hwf]
  · exact hreads a (by omega)

end Bytes

/-- Settles O51: `run_ackRoutine` from the unit's own AB, CMDCNT and ACKV; the bytes are `ackSummed_reads`. -/
theorem ackRoutineBuildsAcknowledgement : Obligations.AckRoutineBuildsAcknowledgement := by
  intro s u p hrun hscript hrom hwf hupc hu hp
  have hstart : ackState s 7 s.ab s.cmdcnt s.ackv = s := by rw [← hupc]; rfl
  have hroutine := run_ackRoutine hrun hscript hrom (m := s.ab) (c := s.cmdcnt) (b := s.ackv) hu hp
  have hbytes (a : Nat) (ha : a < 28) := ackSummed_reads hwf u p s.cmdcnt ha
  rw [hstart] at hroutine
  generalize ackSummed u p s.cmdcnt (s.ab.clear 0 28) = m at hroutine hbytes
  obtain ⟨hfields, -, hframe, -⟩ := restKept_refl s
  exact ⟨_, hroutine, rfl, hrun, rfl, hbytes, rfl, rfl, rfl, rfl, hfields, hframe⟩

end Sys2Proof.Proofs
end

section
/-! PROOFS. The statements of `spec/43_control_ops.md` (R110 to R114). The three branches are one operation with different
conditions, and `branch_effect` says once what a legal branch does; the micro-ROM's branches are read off its listing. -/

namespace Sys2Proof.Proofs

open Sys2Proof.Machine Sys2Proof.Laws

/-! Branches -/

/-- Taken or not, a branch writes UPC alone, of which `RestKept` does not speak. -/
theorem restKept_branchIf (c : Bool) (target : RomIndex) (s : State) :
    RestKept noField noByte s (branchIf c target s) := by
  cases c with
  | true => exact restKept_refl s
  | false => exact restKept_nextUpc.2 (restKept_refl s)

/-- A legal branch, as the statements see it: UPC by its condition, POS and the frame. -/
theorem branch_effect {i : Instr} {c : Bool} {target : RomIndex} {s : State}
    (he : exec i s = .next (branchIf c target s)) :
    ∃ t, exec i s = .next t ∧ t.upc = (if c then target else s.upc + 1) ∧ t.pos = s.pos ∧ RestKept noField noByte s t :=
  ⟨_, he, branchIf_upc c target s, branchIf_pos c target s, restKept_branchIf c target s⟩

/-- BEQI's operand range (R66). -/
theorem beqi_wf_iff {fs : RegNum} {value : Byte} {target : RomIndex} :
    (Instr.beqi fs value target).wf = true ↔ fs.toNat ≤ 34 := by
  simp [Instr.wf, regOk]

/-- A legal BEQI whose source holds `v` compares `v` (R110). -/
theorem exec_beqi {fs : RegNum} {value : Byte} {target : RomIndex} {s : State} {v : Word}
    (hwf : (Instr.beqi fs value target).wf = true) (hv : readField fs s = some v) :
    exec (.beqi fs value target) s = .next (branchIf (equalsImmediate v value) target s) :=
  (exec_of_wf rfl hwf).trans (congrArg _ (withField_some hv _))

/-- Settles O24: the condition as a comparison of numbers is `equalsImmediate_iff`. -/
theorem beqiComparesAllBits : Obligations.BeqiComparesAllBits := by
  intro fs value target s
  refine ⟨encodedAs_encodeFields (.beqi fs value target), fun hbig => ?_, fun hfs hnone => ?_, fun hfs v hv => ?_⟩
  · exact takes_illegalOp (mt beqi_wf_iff.1 (by omega)) s
  · exact takes_unwrittenField rfl (beqi_wf_iff.2 hfs) hnone
  · simpa only [equalsImmediate_iff] using branch_effect (exec_beqi (beqi_wf_iff.2 hfs) hv)

/-- BNCHAN has no operand that could be illegal (R66, R111). -/
theorem exec_bnchan (target : RomIndex) (s : State) :
    exec (.bnchan target) s = .next (branchIf (!s.chan) target s) :=
  exec_of_wf rfl rfl

/-- Settles O25: the branch whose condition is the complement of CHAN. -/
theorem bnchanBranchesWithoutChannel : Obligations.BnchanBranchesWithoutChannel := by
  intro target s
  refine ⟨encodedAs_encodeFields (.bnchan target), ?_⟩
  simpa only [Bool.not_eq_true'] using branch_effect (exec_bnchan target s)

/-- BNSESS's operand range (R66). -/
theorem bnsess_wf_iff {fs : RegNum} {target : RomIndex} : (Instr.bnsess fs target).wf = true ↔ fs.toNat ≤ 34 := by
  simp [Instr.wf, regOk]

/-- A legal BNSESS whose source holds `u` asks the oracle about `u` (R112). -/
theorem exec_bnsess {fs : RegNum} {target : RomIndex} {s : State} {u : Word}
    (hwf : (Instr.bnsess fs target).wf = true) (hu : readField fs s = some u) :
    exec (.bnsess fs target) s = .next (branchIf (!s.sessionKnown u) target s) :=
  (exec_of_wf rfl hwf).trans (congrArg _ (withField_some hu _))

/-- The oracle's answer is membership in the set of known ids (R25; log 6). -/
theorem sessionKnown_iff (s : State) (u : Word) : s.sessionKnown u = true ↔ u ∈ s.knownDevices := by
  simp [State.sessionKnown]

/-- Settles O26: for either answer of the oracle, UPC by `branch_effect`. -/
theorem bnsessAsksOracle : Obligations.BnsessAsksOracle := by
  intro fs target s
  refine ⟨encodedAs_encodeFields (.bnsess fs target), fun hbig => ?_, fun hfs hnone => ?_, fun hfs u hu => ?_⟩
  · exact takes_illegalOp (mt bnsess_wf_iff.1 (by omega)) s
  · exact takes_unwrittenField rfl (bnsess_wf_iff.2 hfs) hnone
  · obtain ⟨t, ht, hupc, hrest⟩ := branch_effect (exec_bnsess (bnsess_wf_iff.2 hfs) hu)
    simp only [Bool.not_eq_true', ← Bool.not_eq_true, sessionKnown_iff] at hupc
    refine ⟨t, ht, fun hknown => ?_, fun hunknown => ?_, hrest⟩
    · rw [hupc, if_neg (not_not_intro hknown)]
    · rw [hupc, if_pos hunknown]

/-! HALT -/

/-- HALT's operand range (R66). -/
theorem halt_wf_iff {code : Byte} : (Instr.halt code).wf = true ↔ 1 ≤ code.toNat ∧ code.toNat ≤ 3 := by
  simp [Instr.wf, haltCodeOk]

/-- A legal HALT ends the run with its code (R113). -/
theorem exec_halt {code : Byte} (hwf : (Instr.halt code).wf = true) (s : State) :
    exec (.halt code) s = .next (endRun (haltResult code) s) :=
  exec_of_wf rfl hwf

/-- A code in its range fits into RESULT's three bits (R23, R113). -/
theorem haltResult_toNat {code : Byte} (h : code.toNat ≤ 3) : (haltResult code).toNat = code.toNat := by
  rw [haltResult, BitVec.toNat_setWidth, Nat.mod_eq_of_lt (by omega)]

/-- A run that ended with a code other than 0 is DONE (R21, R166). -/
theorem endRun_done {code : BitVec 3} (h : code ≠ 0) (s : State) : (endRun code s).done = true := by
  simpa [State.done] using h

/-- A stopped unit with no host turn pending stays as it is (log 11). -/
theorem step_stopped {s : State} (hrun : s.run = false) (hs : s.script = []) : step s = .next s := by
  simp [step, turnStep, hs, unitStep_stopped hrun]

/-- Settles O27: `endRun` writes RESULT and RUN alone, and the stopped unit steps to itself. -/
theorem haltEndsRun : Obligations.HaltEndsRun := by
  intro code s
  refine ⟨encodedAs_encodeFields (.halt code), fun hbad => ?_, fun hlow hhigh => ?_⟩
  · exact takes_illegalOp (mt halt_wf_iff.1 (by omega)) s
  · have hresult := haltResult_toNat hhigh
    have hused : haltResult code ≠ 0 := fun h0 => by
      have hzero : code.toNat = 0 := hresult.symm.trans (congrArg BitVec.toNat h0)
      omega
    obtain ⟨hfields, hack, hframe, hsession, -, houtside⟩ := restKept_refl s
    exact ⟨_, exec_halt (halt_wf_iff.2 ⟨hlow, hhigh⟩) s, hresult, rfl, endRun_done hused s, rfl, rfl, rfl, hfields, hack,
      hframe, hsession, houtside, fun hs => step_stopped rfl hs⟩

/-! The micro-ROM -/

/-- The four branches of the listing go forward and stay in the listing (R114, R128 (c)). -/
theorem romListing_branches_forward :
    ∀ k : Fin 60, ∀ i ∈ romListing[k.val]?, ∀ target ∈ branchTarget i, k.val < target.toNat ∧ target.toNat < 60 := by
  decide

/-- Settles O5: the word at an address of the listing decodes to the listing's micro-operation. -/
theorem microRomWordsLegalAndBranchesForward : Obligations.MicroRomWordsLegalAndBranchesForward := by
  intro k hk
  have hlisted : romListing[k.val]? = some romListing[k.val] := List.getElem?_eq_getElem hk
  have hlegal := decode_microRom k _ hlisted
  obtain ⟨hwf, -⟩ := (decode_eq_legal_iff _ _).1 hlegal
  exact ⟨_, hlegal, hwf, romListing_branches_forward ⟨k.val, hk⟩ _ hlisted⟩

end Sys2Proof.Proofs
end

section
/-! PROOFS. How a frame run over the ROM of R120 proceeds (`spec/45_frame_program.md` R121 to R131). The state of a run that
stands before address `k` is a function of the frame and of `k`: the cursor is at `cursorAt`, a register is valid exactly
when the address that writes it is below `k`, and then holds its `frameField` (`Progress`). A straight-line address takes
a run from `k` to `k + 1` or to `ShortFrame` (`Passable`). -/

namespace Sys2Proof.Proofs

open Sys2Proof.Machine Sys2Proof.Laws

/-! Runs of steps -/

/-- At most `n` steps bring the unit from `t` to `t'`. -/
def Leads (n : Nat) (t t' : State) : Prop :=
  ∃ m, m ≤ n ∧ ∀ j, Host.Core.run Sys2Proof.core (j + m) t = Host.Core.run Sys2Proof.core j t'

namespace Leads

theorem refl (n : Nat) (t : State) : Leads n t t := ⟨0, Nat.zero_le n, fun _ => rfl⟩

theorem trans {n n' : Nat} {t t' t'' : State} : Leads n t t' → Leads n' t' t'' → Leads (n + n') t t''
  | ⟨m, hm, h⟩, ⟨m', hm', h'⟩ => ⟨m' + m, by omega, fun j => by rw [← Nat.add_assoc, h, h']⟩

theorem mono {n n' : Nat} (hle : n ≤ n') {t t' : State} : Leads n t t' → Leads n' t t'
  | ⟨m, hm, h⟩ => ⟨m, hm.trans hle, h⟩

/-- One step of a running unit over the ROM of R120. -/
theorem step {t t' : State} {i : Instr} (hrun : t.run = true) (hscript : t.script = []) (hrom : t.urom = microRom)
    (hi : romListing[t.upc.toNat]? = some i) (he : exec i t = .next t') : Leads 1 t t' :=
  ⟨1, le_rfl, run_microRom hrun hscript hrom hi he⟩

/-- The steps left over after the end of a run change nothing (log 11). -/
theorem run_eq {n : Nat} {t u : State} (h : Leads n t u) (hrun : u.run = false) (hscript : u.script = []) :
    Host.Core.run Sys2Proof.core n t = .next u := by
  obtain ⟨m, hm, hlead⟩ := h
  rw [← Nat.sub_add_cancel hm, hlead, run_stopped hrun hscript]

end Leads

/-- A run of `m` steps is the beginning of every longer one. -/
theorem run_add {t t' : State} : ∀ {m : Nat} (j : Nat), Host.Core.run Sys2Proof.core m t = .next t' →
    Host.Core.run Sys2Proof.core (j + m) t = Host.Core.run Sys2Proof.core j t'
  | 0, j, h => by
    cases h
    rfl
  | m + 1, j, h => by
    rw [← Nat.add_assoc]
    simp only [Host.Core.run] at h ⊢
    cases hs : Sys2Proof.core.step t with
    | next v =>
      simp only [hs] at h ⊢
      exact run_add j h
    | fault r => simp [hs] at h
    | refused r => simp [hs] at h

/-! What an address of the ROM means for the run -/

/-- The length of the header (R121): a frame of type 8 has no 16-bit field before its packet number. -/
def headerLength (s : State) : Nat := if s.fb.read 4 = 8 then 10 else 12

/-- POS before each address, for a header of `h` bytes (R131); from address 55 on it is 70. -/
def cursorAt (h k : Nat) : Nat :=
  ([0, 4, 5, 9, 9, h - 1] ++ List.replicate 16 h ++
    [13, 13, 14, 15, 16, 16, 16, 17, 18, 19, 20, 21, 25, 26, 27, 30, 33, 39, 41, 42, 43, 44, 45, 49, 53, 57, 61, 63, 64,
      65, 66, 67, 68]).getD k 70

/-- The bytes a frame must have for its run to get to an address: those before the cursor, and the one that PKU8 at
address 26 saw. -/
def bytesToReach (h k : Nat) : Nat := if k = 27 ∨ k = 28 then 17 else cursorAt h k

/-- The address that completes each register (R120); 64, which is none, for F0 and the numbers of no register. -/
def writerOf (r : RegNum) : Nat :=
  [64, 1, 2, 5, 21, 23, 24, 25, 26, 27, 28, 29, 31, 32, 33, 34, 35, 37, 39, 40, 41, 42, 43, 44, 45, 46, 47, 48, 49, 50,
    51, 52, 53, 54, 57].getD r.toNat 64

/-- What a register holds once it is written (R121, R123, R129). -/
def frameField (s : State) (r : RegNum) : Word :=
  match r.toNat with
  | 1 => frameU8 s 4
  | 2 => frameU32 s 5
  | 3 => (s.fb.read (headerLength s - 1)).signExtend 32
  | 4 => frameU8 s 12
  | 5 => frameU8 s 13
  | 6 => frameU8 s 14
  | 7 => frameU8 s 15
  | 8 => frameU8 s 16
  | 9 => frameU8 s 16 &&& 0x0F
  | 10 => frameU8 s 16
  | 11 => frameU8 s 17
  | 12 => frameU8 s 19
  | 13 => frameU8 s 20
  | 14 => frameU32 s 21
  | 15 => frameU8 s 25
  | 16 => frameU8 s 26
  | 17 => frameU24 s 30
  | 18 => frameU16 s 39
  | 19 => frameU8 s 41
  | 20 => frameU8 s 42
  | 21 => frameU8 s 43
  | 22 => frameU8 s 44
  | 23 => frameU32 s 45
  | 24 => frameU32 s 49
  | 25 => frameU32 s 53
  | 26 => frameU32 s 57
  | 27 => frameU16 s 61
  | 28 => frameU8 s 63
  | 29 => frameU8 s 64
  | 30 => frameU8 s 65
  | 31 => frameU8 s 66
  | 32 => frameU8 s 67
  | 33 => frameU16 s 68
  | 34 => ((((frameU8 s 16 &&& 0xF0) <<< 4) ||| frameU8 s 17) <<< 8) ||| frameU8 s 25
  | _ => 0

/-- The battery table selector before an address: address 22 sets it from HWTYPE (R92). -/
def selectorAt (s : State) (k : Nat) : Bool := if 22 < k then batteryTable (frameU8 s 12) else s.batsel

/-- The part of the state the acknowledgement routine writes. -/
def ackPart (t : State) : Memory × BitVec 8 × Bool := (t.ab, t.cmdcnt, t.ackv)

/-- The registers hold what the addresses below `k` write, and only that. -/
def FieldsAt (s : State) (k : Nat) (t : State) : Prop :=
  ∀ r : RegNum, r ≠ 0#6 → readField r t = if writerOf r < k then some (frameField s r) else none

/-- The unit is as a run of the frame in `s` leaves it before address `k`, with the acknowledgement's part of the state
given. -/
structure Progress (s : State) (ack : Memory × BitVec 8 × Bool) (k : Nat) (t : State) : Prop where
  fb : t.fb = s.fb
  flen : t.flen = s.flen
  chan : t.chan = s.chan
  known : t.knownDevices = s.knownDevices
  script : t.script = []
  pos : t.pos.toNat = cursorAt (headerLength s) k
  fields : FieldsAt s k t
  batsel : t.batsel = selectorAt s k
  ack : ackPart t = ack

/-- The run stands before address `k`. -/
structure RunAt (s : State) (ack : Memory × BitVec 8 × Bool) (k : Nat) (t : State) : Prop where
  progress : Progress s ack k t
  run : t.run = true
  rom : t.urom = microRom
  upc : t.upc.toNat = k
  reached : bytesToReach (headerLength s) k ≤ s.flen.toNat

/-- The run has ended at address `upc` with a RESULT code, its progress that before address `k`. -/
structure EndedAt (s : State) (ack : Memory × BitVec 8 × Bool) (k upc : Nat) (code : BitVec 3) (u : State) : Prop where
  progress : Progress s ack k u
  run : u.run = false
  result : u.result = code
  upc : u.upc.toNat = upc

variable {s t t' u : State} {ack : Memory × BitVec 8 × Bool} {k k' : Nat} {i : Instr}

theorem Progress.frameKept (h : Progress s ack k t) : FrameKept s t :=
  ⟨fun a => by rw [h.fb], h.flen, h.chan⟩

/-- The end of a run changes nothing of its progress (R163, R164). -/
theorem Progress.endRun (h : Progress s ack k t) (code : BitVec 3) : Progress s ack k (endRun code t) :=
  ⟨h.fb, h.flen, h.chan, h.known, h.script, h.pos, h.fields, h.batsel, h.ack⟩

theorem RunAt.endRun (h : RunAt s ack k t) (code : BitVec 3) : EndedAt s ack k k code (endRun code t) :=
  ⟨h.progress.endRun code, rfl, rfl, h.upc⟩

/-- The run at an address takes the step of the micro-operation the listing has there. -/
theorem RunAt.leads (h : RunAt s ack k t) (hi : romListing[k]? = some i) (he : exec i t = .next t') : Leads 1 t t' :=
  .step h.run h.progress.script h.rom (by rw [h.upc]; exact hi) he

theorem EndedAt.run_eq {n : Nat} {upc : Nat} {code : BitVec 3} (h : EndedAt s ack k upc code u) (hlead : Leads n t u) :
    Host.Core.run Sys2Proof.core n t = .next u :=
  hlead.run_eq h.run h.progress.script

/-- A step keeps the frame, the registry, the host's turns and the ROM; the rest of the next state is to be shown. -/
theorem RunAt.step (h : RunAt s ack k t) (he : exec i t = .next t') (hrun : t'.run = t.run) (hupc : t'.upc.toNat = k')
    (hreached : bytesToReach (headerLength s) k' ≤ s.flen.toNat) (hpos : t'.pos.toNat = cursorAt (headerLength s) k')
    (hfields : FieldsAt s k' t') (hbatsel : t'.batsel = selectorAt s k') (hack : ackPart t' = ackPart t) :
    RunAt s ack k' t' := by
  obtain ⟨hfb, hflen, hchan, hurom, hknown, hscript, -⟩ := exec_inputs_kept he
  have hp := h.progress
  exact ⟨⟨hfb.trans hp.fb, hflen.trans hp.flen, hchan.trans hp.chan, hknown.trans hp.known, hscript.trans hp.script, hpos,
    hfields, hbatsel, hack.trans hp.ack⟩, hrun.trans h.run, hurom.trans h.rom, hupc, hreached⟩

/-- The address after a straight-line one. -/
theorem RunAt.upc_succ (h : RunAt s ack k t) (hi : romListing[k]? = some i) : (t.upc + 1).toNat = k + 1 := by
  obtain ⟨hlt, -⟩ := List.getElem?_eq_some_iff.1 hi
  have hlen : romListing.length = 60 := rfl
  have hone : (1 : RomIndex).toNat = 1 := rfl
  rw [BitVec.toNat_add, h.upc, hone]
  omega

/-! The registers along a run -/

/-- Only BATSEL's address changes the selector. -/
theorem selectorAt_succ (hk : k ≠ 22) : selectorAt s (k + 1) = selectorAt s k := by
  have : 22 < k + 1 ↔ 22 < k := by omega
  simp only [selectorAt, this]

/-- An address that completes no register leaves the registers' part of the progress alone. -/
theorem FieldsAt.succ (h : FieldsAt s k t) (hw : ∀ r : RegNum, r ≠ 0#6 → writerOf r ≠ k) (hf : t'.f = t.f) :
    FieldsAt s (k + 1) t' := fun r hr => by
  have hne := hw r hr
  have hlt : writerOf r < k + 1 ↔ writerOf r < k := by omega
  rw [readField_congr hf, h r hr]
  simp only [hlt]

/-- An address that writes one register with its field of the frame; F0 as destination writes none (R11). -/
theorem FieldsAt.write (h : FieldsAt s k t) {fd : RegNum} {v : Word} (hfd : fd.toNat ≤ 34)
    (hw : ∀ r : RegNum, r ≠ 0#6 → (writerOf r = k ↔ r = fd)) (hv : fd ≠ 0#6 → v = frameField s fd)
    (hf : t'.f = fieldsAfter fd v t.f) : FieldsAt s (k + 1) t' := fun r hr => by
  rw [readField_fieldsAfter hfd hf, if_neg hr]
  by_cases hrfd : r = fd
  · have hk := (hw r hr).2 hrfd
    subst hrfd
    rw [if_pos rfl, hv hr, if_pos (by omega)]
  · have hk := mt (hw r hr).1 hrfd
    have hlt : writerOf r < k + 1 ↔ writerOf r < k := by omega
    rw [if_neg hrfd, h r hr]
    simp only [hlt]

/-! Straight-line addresses -/

/-- From address `k` the run takes `ShortFrame` there, because the next address needs more bytes than the frame has, or
gets to address `k + 1`. -/
def Passable (s : State) (k : Nat) : Prop :=
  ∀ ack t, RunAt s ack k t →
    (s.flen.toNat < bytesToReach (headerLength s) (k + 1) ∧ Leads 1 t (takeTrap .shortFrame t)) ∨
      ∃ t', Leads 1 t t' ∧ RunAt s ack (k + 1) t'

/-- A cursor micro-operation of `n` bytes that moves on to the next address: `effect` is what it does inside the frame. -/
theorem passable_cursorOp {n : Nat} {effect : State → State} (hi : romListing[k]? = some i) (hk : k ≠ 22)
    (he : ∀ t, exec i t = .next (cursorOp n t effect))
    (hreach : bytesToReach (headerLength s) (k + 1) = cursorAt (headerLength s) k + n)
    (hkeep : ∀ t, (effect t).run = t.run ∧ (effect t).upc = t.upc ∧ (effect t).batsel = t.batsel ∧
      ackPart (effect t) = ackPart t)
    (hpos : ∀ t, t.pos.toNat = cursorAt (headerLength s) k → t.pos.toNat + n ≤ t.flen.toNat →
      (effect t).pos.toNat = cursorAt (headerLength s) (k + 1))
    (hfields : ∀ ack t, RunAt s ack k t → FieldsAt s (k + 1) (effect t)) : Passable s k := by
  intro ack t ht
  have hbytes : bytesToReach (headerLength s) (k + 1) = t.pos.toNat + n := by rw [ht.progress.pos, hreach]
  rw [hbytes, ← ht.progress.flen]
  rcases Nat.lt_or_ge t.flen.toNat (t.pos.toNat + n) with hshort | hfit
  · exact .inl ⟨hshort, ht.leads hi ((he t).trans (congrArg _ (cursorOp_short hshort effect)))⟩
  · have hexec : exec i t = .next (nextUpc (effect t)) := (he t).trans (congrArg _ (cursorOp_fits hfit effect))
    obtain ⟨hrun, hupc, hbatsel, hack⟩ := hkeep t
    have hselector : (effect t).batsel = selectorAt s (k + 1) := by
      rw [hbatsel, ht.progress.batsel, selectorAt_succ hk]
    refine .inr ⟨_, ht.leads hi hexec, ht.step hexec hrun ?_ ?_ (hpos t ht.progress.pos hfit) (hfields ack t ht)
      hselector hack⟩
    · rw [nextUpc_upc, hupc, ht.upc_succ hi]
    · rwa [hbytes, ← ht.progress.flen]

/-- SKIP (R81). -/
theorem passable_skip {n : Byte} (hi : romListing[k]? = some (.skip n)) (hk : k ≠ 22)
    (hreach : bytesToReach (headerLength s) (k + 1) = cursorAt (headerLength s) k + n.toNat)
    (hpos : cursorAt (headerLength s) (k + 1) = cursorAt (headerLength s) k + n.toNat)
    (hw : ∀ r : RegNum, r ≠ 0#6 → writerOf r ≠ k) : Passable s k :=
  passable_cursorOp hi hk (fun _ => rfl) hreach (fun _ => ⟨rfl, rfl, rfl, rfl⟩)
    (fun _ hcursor hfit => by rw [advancePos_toNat hfit, hcursor, hpos])
    fun _ _ ht => ht.progress.fields.succ hw rfl

/-- What a read at address `k` finds at the cursor. -/
def ValueAt (s : State) (k n : Nat) (value : Nat → Word) : Word := value (s.fb.readLE (cursorAt (headerLength s) k) n)

theorem RunAt.value_eq (h : RunAt s ack k t) (n : Nat) (value : Nat → Word) :
    value (frameRead n t) = ValueAt s k n value := by
  rw [frameRead, h.progress.fb, h.progress.pos, ValueAt]

/-- An advancing read (R80, R82 to R87). -/
theorem passable_read {fd : RegNum} {n : Nat} {value : Nat → Word} (hread : CursorReads i fd n value (advancePos n))
    (hi : romListing[k]? = some i) (hk : k ≠ 22) (hfd : fd.toNat ≤ 34)
    (hreach : bytesToReach (headerLength s) (k + 1) = cursorAt (headerLength s) k + n)
    (hpos : cursorAt (headerLength s) (k + 1) = cursorAt (headerLength s) k + n)
    (hw : ∀ r : RegNum, r ≠ 0#6 → (writerOf r = k ↔ r = fd))
    (hv : fd ≠ 0#6 → ValueAt s k n value = frameField s fd) : Passable s k := by
  refine passable_cursorOp hi hk (fun t => exec_of_wf (hread.exec_eq t) (hread.wf_iff.2 hfd)) hreach
    (fun _ => ⟨rfl, rfl, rfl, rfl⟩) (fun t hcursor hfit => ?_)
    fun _ _ ht => ht.progress.fields.write hfd hw (fun h0 => (ht.value_eq n value).trans (hv h0)) rfl
  rw [advancePos_toNat (s := writeField fd _ t) hfit, writeField_pos, hcursor, hpos]

/-- PKU8, at the one address that peeks (R88, R94). -/
theorem passable_peek (hh : headerLength s = 12) : Passable s 26 := by
  have hbyte : ValueAt s 26 1 zextValue = frameField s 8 := by
    rw [ValueAt, hh]
    exact zextValue_readLE_one s.fb 16
  exact passable_cursorOp (i := .pku8 8) (n := 1) rfl (by decide)
    (fun t => exec_of_wf ((CursorReads.pku8 8).exec_eq t) rfl) (by rw [hh]; rfl) (fun _ => ⟨rfl, rfl, rfl, rfl⟩)
    (fun _ hcursor _ => by rw [hh] at hcursor ⊢; exact hcursor)
    fun _ t ht => ht.progress.fields.write (fd := 8) (by decide) (by decide)
      (fun _ => (ht.value_eq 1 zextValue).trans hbyte) rfl

/-- A register that an earlier address wrote is valid. -/
theorem RunAt.field (h : RunAt s ack k t) {r : RegNum} (hr : r ≠ 0#6) (hw : writerOf r < k) :
    readField r t = some (frameField s r) := by
  rw [h.progress.fields r hr, if_pos hw]

/-- A straight-line micro-operation that does not look at the frame. -/
theorem RunAt.computes (h : RunAt s ack k t) (hi : romListing[k]? = some i) (he : exec i t = .next (nextUpc t'))
    (hkeep : t'.run = t.run ∧ t'.upc = t.upc ∧ t'.pos = t.pos ∧ ackPart t' = ackPart t)
    (hreach : bytesToReach (headerLength s) (k + 1) = bytesToReach (headerLength s) k)
    (hcursor : cursorAt (headerLength s) (k + 1) = cursorAt (headerLength s) k) (hfields : FieldsAt s (k + 1) t')
    (hbatsel : t'.batsel = selectorAt s (k + 1)) : ∃ t', Leads 1 t t' ∧ RunAt s ack (k + 1) t' := by
  obtain ⟨hrun, hupc, hpos, hack⟩ := hkeep
  refine ⟨_, h.leads hi he, h.step he hrun ?_ (hreach ▸ h.reached) ?_ hfields hbatsel hack⟩
  · rw [nextUpc_upc, hupc, h.upc_succ hi]
  · rw [nextUpc_pos, hpos, h.progress.pos, hcursor]

/-- BATSEL sets the selector from HWTYPE, the only micro-operation that does (R92, R123). -/
theorem passable_batsel (hh : headerLength s = 12) : Passable s 22 := by
  intro ack t ht
  have hexec := exec_batsel_written (fs := 4) rfl (ht.field (by decide) (by decide))
  exact .inr (ht.computes rfl hexec ⟨rfl, rfl, rfl, rfl⟩ (by rw [hh]; rfl) (by rw [hh]; rfl)
    (ht.progress.fields.succ (by decide) rfl) rfl)

/-- The low nibble of a word, as the document masks it (R94). -/
theorem lowNibble_masked (v : Word) : bitField v 0 4 = v &&& 0x0F := by
  ext i hlt
  interval_cases i <;> simp [bitField]

/-- EXT STATUS takes the low nibble of the byte that PKU8 peeked (R94). -/
theorem passable_status (hh : headerLength s = 12) : Passable s 27 := by
  intro ack t ht
  have hexec := exec_ext (fd := 9) (fs := 8) (lsb := 0) (w := 4) rfl (ht.field (by decide) (by decide))
  exact .inr (ht.computes rfl hexec ⟨rfl, rfl, rfl, rfl⟩ (by rw [hh]; rfl) (by rw [hh]; rfl)
    (ht.progress.fields.write (fd := 9) (by decide) (by decide) (fun _ => lowNibble_masked _) rfl)
    (ht.progress.batsel.trans (selectorAt_succ (by decide)).symm))

/-! Runs of straight-line addresses -/

/-- A run that ends with `ShortFrame` at address `k`: the frame has the bytes to get there and not those to go on. -/
structure ShortAt (s : State) (ack : Memory × BitVec 8 × Bool) (k : Nat) (u : State) : Prop where
  ended : EndedAt s ack k k 4 u
  reached : bytesToReach (headerLength s) k ≤ s.flen.toNat
  short : s.flen.toNat < bytesToReach (headerLength s) (k + 1)

/-- Straight-line addresses `k` to `k + n - 1`: the run gets past them or ends with `ShortFrame` at one of them. -/
theorem RunAt.straight (h : RunAt s ack k t) :
    ∀ n, (∀ j, k ≤ j → j < k + n → Passable s j) →
      (∃ t', Leads n t t' ∧ RunAt s ack (k + n) t') ∨
        ∃ j u, k ≤ j ∧ j < k + n ∧ Leads n t u ∧ ShortAt s ack j u
  | 0, _ => .inl ⟨t, .refl 0 t, h⟩
  | n + 1, hpass => by
    rcases h.straight n fun j hlow hhigh => hpass j hlow (by omega) with ⟨t', hlead, ht'⟩ | ⟨j, u, hlow, hhigh, hlead, hu⟩
    · rcases hpass (k + n) (by omega) (by omega) ack t' ht' with ⟨hshort, hstep⟩ | ⟨t'', hstep, ht''⟩
      · exact .inr ⟨k + n, _, by omega, by omega, hlead.trans hstep, ht'.endRun 4, ht'.reached, hshort⟩
      · exact .inl ⟨t'', hlead.trans hstep, ht''⟩
    · exact .inr ⟨j, u, hlow, by omega, hlead.mono (by omega), hu⟩

end Sys2Proof.Proofs
end

section
/-! PROOFS. The header of a frame run: START, addresses 0 to 5 (R121, R129 cases 1 and 2), and what addresses 6 to 20 make of
a parsed one, the acknowledgement (R124, R125) and the routing by type and device (R122, R129 cases 3 to 5). -/

namespace Sys2Proof.Proofs

open Sys2Proof.Machine Sys2Proof.Laws

variable {s t t' u : State} {ack : Memory × BitVec 8 × Bool} {k k' : Nat} {i : Instr}

/-- The acknowledgement's part of the state when a run starts: ACKV is 0, AB and CMDCNT are left from earlier (R184). -/
def ackAtStart (s : State) : Memory × BitVec 8 × Bool := (s.ab, s.cmdcnt, false)

/-- START of a ready unit brings a run to address 0. -/
theorem runAt_start (hs : ReadyForFrame s) : RunAt s (ackAtStart s) 0 (hostStart s) := by
  obtain ⟨hrun, hscript, hrom, -⟩ := hs
  rw [hostStart_stopped hrun]
  refine ⟨⟨rfl, rfl, rfl, rfl, hscript, rfl, fun r hr => ?_, rfl, rfl⟩, rfl, hrom, rfl, Nat.zero_le _⟩
  exact readField_cleared rfl hr

/-! Branches -/

/-- A branch takes the run to another address that stands for the same progress. -/
theorem RunAt.branch {c : Bool} {target : RomIndex} (h : RunAt s ack k t) (hi : romListing[k]? = some i)
    (he : exec i t = .next (branchIf c target t)) (hk' : (if c then target.toNat else k + 1) = k')
    (hreach : bytesToReach (headerLength s) k' = bytesToReach (headerLength s) k)
    (hcursor : cursorAt (headerLength s) k' = cursorAt (headerLength s) k)
    (hwriters : ∀ r : RegNum, writerOf r < k' ↔ writerOf r < k) (hselector : 22 < k' ↔ 22 < k) :
    ∃ t', Leads 1 t t' ∧ RunAt s ack k' t' := by
  refine ⟨_, h.leads hi he, h.step he (branchIf_run c target t) ?_ (hreach ▸ h.reached) ?_ (fun r hr => ?_) ?_ ?_⟩
  · rw [branchIf_upc, ← hk']
    split
    · rfl
    · exact h.upc_succ hi
  · rw [branchIf_pos, h.progress.pos, hcursor]
  · rw [readField_branchIf, h.progress.fields r hr]
    simp only [hwriters]
  · rw [branchIf_batsel, h.progress.batsel]
    simp only [selectorAt, hselector]
  · simp only [ackPart, branchIf_ab, branchIf_cmdcnt, branchIf_ackv]

/-- TYPE is the frame's type byte, zero-extended, so BEQI compares that byte. -/
theorem typeEquals_iff (s : State) (x : Byte) : equalsImmediate (frameField s 1) x = true ↔ s.fb.read 4 = x := by
  have hlt := (s.fb.read 4).isLt
  have hvalue : (frameField s 1).toNat = (s.fb.read 4).toNat := by
    show ((s.fb.read 4).setWidth 32).toNat = _
    rw [BitVec.toNat_setWidth]
    omega
  rw [equalsImmediate_iff, hvalue, BitVec.toNat_inj]

/-- No register is completed at addresses 3 and 4. -/
theorem writers_before_five (r : RegNum) : (writerOf r < 4 ↔ writerOf r < 3) ∧ (writerOf r < 5 ↔ writerOf r < 3) := by
  revert r
  decide

/-- No register is completed at addresses 6 to 20. -/
theorem writers_before_payload {k k' : Nat} (hk : 6 ≤ k ∧ k ≤ 21) (hk' : 6 ≤ k' ∧ k' ≤ 21) (r : RegNum) :
    writerOf r < k' ↔ writerOf r < k := by
  have hgap : writerOf r < 6 ∨ 21 ≤ writerOf r := by
    revert r
    decide
  omega

/-! The header -/

/-- The two lengths of a header. -/
theorem headerLength_cases (s : State) :
    (s.fb.read 4 = 8 ∧ headerLength s = 10) ∨ (s.fb.read 4 ≠ 8 ∧ headerLength s = 12) := by
  unfold headerLength
  split <;> simp_all

/-- Addresses 0 to 2, the same for every type. -/
theorem passable_header (s : State) : ∀ j, 0 ≤ j → j < 0 + 3 → Passable s j := by
  intro j _ hj
  interval_cases j
  · exact passable_skip (n := 4) rfl (by decide) rfl rfl (by decide)
  · exact passable_read (.rdu8 1) rfl (by decide) (by decide) rfl rfl (by decide) fun _ => zextValue_readLE_one s.fb 4
  · exact passable_read (.rdu32 2) rfl (by decide) (by decide) rfl rfl (by decide) fun _ => zextValue_readLE_four s.fb 5

/-- Address 4, the 16-bit field that goes to F0. -/
theorem passable_wideField (hh : headerLength s = 12) : Passable s 4 :=
  passable_read (.rdu16 0) rfl (by decide) (by decide) (by rw [hh]; rfl) (by rw [hh]; rfl) (by decide)
    fun h0 => absurd rfl h0

/-- Address 5, the packet number at the end of the header. -/
theorem passable_packetNumber (s : State) : Passable s 5 := by
  have hcursor : cursorAt (headerLength s) (5 + 1) = cursorAt (headerLength s) 5 + 1 := by
    rcases headerLength_cases s with ⟨-, hh⟩ | ⟨-, hh⟩ <;> rw [hh] <;> rfl
  exact passable_read (.rdi8 3) rfl (by decide) (by decide) hcursor hcursor (by decide)
    fun _ => sextByte_readLE_one s.fb (headerLength s - 1)

/-- Address 3 skips the 16-bit field of a type 8 frame (R121); the rest of the header is straight-line. -/
theorem RunAt.typeBranch (h : RunAt s ack 3 t) :
    ∃ k' t', 4 ≤ k' ∧ k' ≤ 5 ∧ (∀ j, k' ≤ j → j < 6 → Passable s j) ∧ Leads 1 t t' ∧ RunAt s ack k' t' := by
  have hexec := exec_beqi (fs := 1) (value := 8) (target := 5) rfl (h.field (by decide) (by decide))
  have htaken := typeEquals_iff s 8
  rcases headerLength_cases s with ⟨htype, hh⟩ | ⟨htype, hh⟩
  · obtain ⟨t', hlead, ht'⟩ := h.branch (k' := 5) rfl hexec (by rw [if_pos (htaken.2 htype)]; rfl) (by rw [hh]; rfl)
      (by rw [hh]; rfl) (fun r => (writers_before_five r).2) (by decide)
    refine ⟨5, t', by decide, by decide, fun j hlow hhigh => ?_, hlead, ht'⟩
    obtain rfl : j = 5 := by omega
    exact passable_packetNumber s
  · obtain ⟨t', hlead, ht'⟩ := h.branch (k' := 4) rfl hexec (by rw [if_neg (mt htaken.1 htype)]) (by rw [hh]; rfl)
      (by rw [hh]; rfl) (fun r => (writers_before_five r).1) (by decide)
    refine ⟨4, t', by decide, by decide, fun j hlow hhigh => ?_, hlead, ht'⟩
    interval_cases j
    · exact passable_wideField hh
    · exact passable_packetNumber s

/-- The run gets past the header or ends with `ShortFrame` in it. -/
theorem RunAt.header (h : RunAt s ack 0 t) :
    (∃ t', Leads 6 t t' ∧ RunAt s ack 6 t') ∨ ∃ j u, j < 6 ∧ Leads 6 t u ∧ ShortAt s ack j u := by
  rcases h.straight 3 (passable_header s) with ⟨t3, hlead3, ht3⟩ | ⟨j, u, -, hj, hlead, hu⟩
  · obtain ⟨k', t4, hlow, hhigh, hpass, hlead4, ht4⟩ := ht3.typeBranch
    have hlead := hlead3.trans hlead4
    have hend : k' + (6 - k') = 6 := by omega
    have hrest := ht4.straight (6 - k')
    rw [hend] at hrest
    rcases hrest hpass with ⟨t', hlead', ht'⟩ | ⟨j, u, -, hj, hlead', hu⟩
    · exact .inl ⟨t', (hlead.trans hlead').mono (by omega), ht'⟩
    · exact .inr ⟨j, u, hj, (hlead.trans hlead').mono (by omega), hu⟩
  · exact .inr ⟨j, u, by omega, hlead.mono (by decide), hu⟩

/-! The acknowledgement -/

/-- The low byte of the packet number is the frame's byte, whatever its sign (R103, R108). -/
theorem setWidth_signExtend (x : Byte) : (x.signExtend 32).setWidth 8 = x := by
  ext i hi
  have hword : i < 32 := by omega
  rw [BitVec.getElem_setWidth, BitVec.getLsbD_signExtend]
  simp [hi, hword]

/-- The byte of the packet number is the last of the header. -/
def packetByte (s : State) : Byte := s.fb.read (headerLength s - 1)

/-- The acknowledgement routine writes UPC and the acknowledgement's part of the state alone (R108). -/
theorem RunAt.afterAck (h : RunAt s ack 7 t) (m : Memory) (c : BitVec 8) (b : Bool) :
    RunAt s (m, c, b) 18 (ackState t 18 m c b) := by
  have hp := h.progress
  have hfields : FieldsAt s 18 t := fun r hr => by
    rw [hp.fields r hr]
    simp only [writers_before_payload (k := 7) (k' := 18) (by decide) (by decide)]
  exact ⟨⟨hp.fb, hp.flen, hp.chan, hp.known, hp.script, hp.pos, hfields, hp.batsel, rfl⟩, h.run, h.rom, rfl, h.reached⟩

/-- Until the routine AB, CMDCNT and ACKV are as START left them. -/
theorem Progress.ack_untouched (h : Progress s (ackAtStart s) k t) : t.ab = s.ab ∧ t.cmdcnt = s.cmdcnt ∧ t.ackv = false := by
  simpa [ackPart, ackAtStart] using h.ack

/-- The routine's eleven steps leave the acknowledgement of this frame in AB (R108). -/
theorem RunAt.buildAck (h : RunAt s (ackAtStart s) 7 t) (hwf : s.ab.wf = true) :
    ∃ m : Memory, (∀ a, a < 28 → m.read a = ackByte (frameU32 s 5) s.cmdcnt (packetByte s) a) ∧
      Leads 11 t (ackState t 18 m (s.cmdcnt + 1) true) := by
  have hroutine := run_ackRoutine h.run h.progress.script h.rom (m := s.ab) (c := s.cmdcnt) (b := false)
    (h.field (r := 2) (by decide) (by decide)) (h.field (r := 3) (by decide) (by decide))
  have hpacket : (frameField s 3).setWidth 8 = packetByte s := setWidth_signExtend _
  have hstart : ackState t 7 s.ab s.cmdcnt false = t := by
    have hupc : t.upc = 7 := BitVec.eq_of_toNat_eq h.upc
    obtain ⟨hab, hcount, hackv⟩ := h.progress.ack_untouched
    rw [← hupc, ← hab, ← hcount, ← hackv]
    rfl
  rw [hstart] at hroutine
  refine ⟨_, fun a ha => ?_, 11, le_rfl, fun j => run_add j hroutine⟩
  rw [ackSummed_reads hwf _ _ _ ha, hpacket]
  rfl

/-- From a parsed header the acknowledgement is built, or passed over when there is no channel (R125), and the run comes to
the routing. -/
theorem RunAt.acknowledge (h : RunAt s (ackAtStart s) 6 t) (hwf : s.ab.wf = true) :
    ∃ t', Leads 12 t t' ∧ RunAt s (ackPart t') 18 t' ∧ AckOutcome (frameU32 s 5) (packetByte s) s t' := by
  have hexec := exec_bnchan 18 t
  rcases Bool.eq_false_or_eq_true s.chan with hchan | hchan
  · obtain ⟨t7, hlead, h7⟩ := h.branch (k' := 7) rfl hexec (by rw [h.progress.chan, hchan]; rfl) rfl rfl
      (writers_before_payload (by decide) (by decide)) (by decide)
    obtain ⟨m, hbytes, hroutine⟩ := h7.buildAck hwf
    refine ⟨_, hlead.trans hroutine, h7.afterAck m (s.cmdcnt + 1) true, ?_⟩
    rw [AckOutcome, if_pos hchan]
    exact ⟨hbytes, rfl, rfl⟩
  · obtain ⟨t', hlead, h'⟩ := h.branch (k' := 18) rfl hexec (by rw [h.progress.chan, hchan]; rfl) rfl rfl
      (writers_before_payload (by decide) (by decide)) (by decide)
    have hack := h'.progress.ack
    refine ⟨t', hlead.mono (by decide), by rwa [hack], ?_⟩
    rw [AckOutcome, if_neg (by simp [hchan])]
    obtain ⟨hab, hcount, hackv⟩ := h'.progress.ack_untouched
    exact ⟨hab, hackv, hcount⟩

/-- A run whose frame is at least as long as its header comes to the routing, with the acknowledgement done. -/
theorem parsed_run (hs : ReadyForFrame s) (hlen : headerLength s ≤ s.flen.toNat) :
    ∃ t, Leads 18 (hostStart s) t ∧ RunAt s (ackPart t) 18 t ∧ AckOutcome (frameU32 s 5) (packetByte s) s t := by
  have ⟨_, _, _, hwf⟩ := hs
  rcases (runAt_start hs).header with ⟨t6, hlead, h6⟩ | ⟨j, u, hj, -, hu⟩
  · obtain ⟨t, hlead', ht⟩ := h6.acknowledge hwf
    exact ⟨t, hlead.trans hlead', ht⟩
  · have hbound : bytesToReach (headerLength s) (j + 1) ≤ headerLength s := by
      rcases headerLength_cases s with ⟨-, hh⟩ | ⟨-, hh⟩ <;> rw [hh] <;> interval_cases j <;> decide
    have hshort := hu.short
    omega

/-! Routing -/

/-- Address 18: only type 0 goes on to the session query (R122). -/
theorem RunAt.route (h : RunAt s ack 18 t) (k' : Nat) (hk' : (if s.fb.read 4 = 0 then 20 else 19) = k') :
    ∃ t', Leads 1 t t' ∧ RunAt s ack k' t' := by
  have hexec := exec_beqi (fs := 1) (value := 0) (target := 20) rfl (h.field (by decide) (by decide))
  subst hk'
  by_cases htype : s.fb.read 4 = 0
  · rw [if_pos htype]
    exact h.branch rfl hexec (by rw [if_pos ((typeEquals_iff s 0).2 htype)]; rfl) rfl rfl
      (writers_before_payload (by decide) (by decide)) (by decide)
  · rw [if_neg htype]
    exact h.branch rfl hexec (by rw [if_neg (mt (typeEquals_iff s 0).1 htype)]) rfl rfl
      (writers_before_payload (by decide) (by decide)) (by decide)

/-- HALT at an address of the run ends it with the code (R113). -/
theorem RunAt.halt {code : Byte} (h : RunAt s ack k t) (hi : romListing[k]? = some (.halt code))
    (hwf : (Instr.halt code).wf = true) : ∃ u, Leads 1 t u ∧ EndedAt s ack k k (haltResult code) u :=
  ⟨_, h.leads hi (exec_halt hwf t), h.endRun (haltResult code)⟩

/-- A frame of another type ends the run with RESULT 2 (R129 case 4). -/
theorem RunAt.otherType (h : RunAt s ack 18 t) (htype : s.fb.read 4 ≠ 0) :
    ∃ u, Leads 2 t u ∧ EndedAt s ack 19 19 2 u := by
  obtain ⟨t', hlead, h'⟩ := h.route 19 (if_neg htype)
  obtain ⟨u, hhalt, hu⟩ := h'.halt (code := 2) rfl rfl
  exact ⟨u, hlead.trans hhalt, hu⟩

/-- The oracle knows the unit id that the run asks about when the registry knew it at the start (R25; log 6). -/
theorem RunAt.sessionKnown_iff (h : RunAt s ack k t) :
    t.sessionKnown (frameField s 2) = true ↔ frameU32 s 5 ∈ s.knownDevices := by
  rw [Proofs.sessionKnown_iff, h.progress.known]
  rfl

/-- A type 0 frame of an unknown device ends the run with RESULT 3 (R129 case 5). -/
theorem RunAt.unknownDevice (h : RunAt s ack 18 t) (htype : s.fb.read 4 = 0) (hunknown : frameU32 s 5 ∉ s.knownDevices) :
    ∃ u, Leads 3 t u ∧ EndedAt s ack 20 59 3 u := by
  obtain ⟨t', hlead, h'⟩ := h.route 20 (if_pos htype)
  have hexec := exec_bnsess (fs := 2) (target := 59) rfl (h'.field (by decide) (by decide))
  have htaken : branchIf (!t'.sessionKnown (frameField s 2)) 59 t' = setUpc 59 t' := by
    rw [Bool.eq_false_iff.2 (mt h'.sessionKnown_iff.1 hunknown)]
    rfl
  rw [htaken] at hexec
  have hp := h'.progress
  have hhalt : Leads 1 (setUpc 59 t') (Machine.endRun (haltResult 3) (setUpc 59 t')) :=
    .step h'.run hp.script h'.rom rfl (exec_halt rfl _)
  exact ⟨_, (hlead.trans (h'.leads rfl hexec)).trans hhalt,
    ⟨hp.fb, hp.flen, hp.chan, hp.known, hp.script, hp.pos, hp.fields, hp.batsel, hp.ack⟩, rfl, rfl, rfl⟩

/-- A type 0 frame of a known device comes to its payload. -/
theorem RunAt.knownDevice (h : RunAt s ack 18 t) (htype : s.fb.read 4 = 0) (hknown : frameU32 s 5 ∈ s.knownDevices) :
    ∃ t', Leads 2 t t' ∧ RunAt s ack 21 t' := by
  obtain ⟨t', hlead, h'⟩ := h.route 20 (if_pos htype)
  have hexec := exec_bnsess (fs := 2) (target := 59) rfl (h'.field (by decide) (by decide))
  obtain ⟨t'', hlead', h''⟩ := h'.branch (k' := 21) rfl hexec (by rw [h'.sessionKnown_iff.2 hknown]; rfl) rfl rfl
    (writers_before_payload (by decide) (by decide)) (by decide)
  exact ⟨t'', hlead.trans hlead', h''⟩

end Sys2Proof.Proofs
end

section
/-! PROOFS. The status payload of a frame run, addresses 21 to 58 (R123, R129 cases 6 and 7, R131). -/

namespace Sys2Proof.Proofs

open Sys2Proof.Machine Sys2Proof.Laws

variable {s t t' u : State} {ack : Memory × BitVec 8 × Bool} {k : Nat}

/-- Address `k` of the payload reads `n` bytes into `fd`, and moves the cursor over them. -/
abbrev ReadsAt (k : Nat) (fd : RegNum) (n : Nat) : Prop :=
  k ≠ 22 ∧ fd.toNat ≤ 34 ∧ bytesToReach 12 (k + 1) = cursorAt 12 k + n ∧ cursorAt 12 (k + 1) = cursorAt 12 k + n ∧
    ∀ r : RegNum, r ≠ 0#6 → (writerOf r = k ↔ r = fd)

/-- A read of the payload, where the cursor positions are numbers. -/
theorem passable_payloadRead {i : Instr} {fd : RegNum} {n : Nat} {value : Nat → Word} (hh : headerLength s = 12)
    (hread : CursorReads i fd n value (advancePos n)) (hi : romListing[k]? = some i) (hat : ReadsAt k fd n)
    (hv : fd ≠ 0#6 → value (s.fb.readLE (cursorAt 12 k) n) = frameField s fd) : Passable s k := by
  obtain ⟨hk, hfd, hreach, hpos, hw⟩ := hat
  exact passable_read hread hi hk hfd (hh ▸ hreach) (hh ▸ hpos) hw (by rwa [ValueAt, hh])

/-- Addresses 21 to 54: the payload's layout. -/
theorem passable_payload (hh : headerLength s = 12) : ∀ j, 21 ≤ j → j < 21 + 34 → Passable s j := by
  have hbyte := zextValue_readLE_one s.fb
  have hpair := zextValue_readLE_two s.fb
  have htriple := zextValue_readLE_three s.fb
  have hword := zextValue_readLE_four s.fb
  intro j hlow hhigh
  interval_cases j
  · exact passable_payloadRead hh (.rdu8 4) rfl (by decide) fun _ => hbyte 12
  · exact passable_batsel hh
  · exact passable_payloadRead hh (.rdu8 5) rfl (by decide) fun _ => hbyte 13
  · exact passable_payloadRead hh (.rdu8 6) rfl (by decide) fun _ => hbyte 14
  · exact passable_payloadRead hh (.rdu8 7) rfl (by decide) fun _ => hbyte 15
  · exact passable_peek hh
  · exact passable_status hh
  · exact passable_payloadRead hh (.rdu8 10) rfl (by decide) fun _ => hbyte 16
  · exact passable_payloadRead hh (.rdu8 11) rfl (by decide) fun _ => hbyte 17
  · exact passable_payloadRead hh (.rdu8 0) rfl (by decide) fun h0 => absurd rfl h0
  · exact passable_payloadRead hh (.rdu8 12) rfl (by decide) fun _ => hbyte 19
  · exact passable_payloadRead hh (.rdu8 13) rfl (by decide) fun _ => hbyte 20
  · exact passable_payloadRead hh (.rdu32 14) rfl (by decide) fun _ => hword 21
  · exact passable_payloadRead hh (.rdu8 15) rfl (by decide) fun _ => hbyte 25
  · exact passable_payloadRead hh (.rdu8 16) rfl (by decide) fun _ => hbyte 26
  · exact passable_skip (n := 3) rfl (by decide) (by rw [hh]; rfl) (by rw [hh]; rfl) (by decide)
  · exact passable_payloadRead hh (.rdu24 17) rfl (by decide) fun _ => htriple 30
  · exact passable_skip (n := 6) rfl (by decide) (by rw [hh]; rfl) (by rw [hh]; rfl) (by decide)
  · exact passable_payloadRead hh (.rdu16 18) rfl (by decide) fun _ => hpair 39
  · exact passable_payloadRead hh (.rdu8 19) rfl (by decide) fun _ => hbyte 41
  · exact passable_payloadRead hh (.rdu8 20) rfl (by decide) fun _ => hbyte 42
  · exact passable_payloadRead hh (.rdu8 21) rfl (by decide) fun _ => hbyte 43
  · exact passable_payloadRead hh (.rdu8 22) rfl (by decide) fun _ => hbyte 44
  · exact passable_payloadRead hh (.rdi32 23) rfl (by decide) fun _ => hword 45
  · exact passable_payloadRead hh (.rdi32 24) rfl (by decide) fun _ => hword 49
  · exact passable_payloadRead hh (.rdi32 25) rfl (by decide) fun _ => hword 53
  · exact passable_payloadRead hh (.rdi32 26) rfl (by decide) fun _ => hword 57
  · exact passable_payloadRead hh (.rdu16 27) rfl (by decide) fun _ => hpair 61
  · exact passable_payloadRead hh (.rdu8 28) rfl (by decide) fun _ => hbyte 63
  · exact passable_payloadRead hh (.rdu8 29) rfl (by decide) fun _ => hbyte 64
  · exact passable_payloadRead hh (.rdu8 30) rfl (by decide) fun _ => hbyte 65
  · exact passable_payloadRead hh (.rdu8 31) rfl (by decide) fun _ => hbyte 66
  · exact passable_payloadRead hh (.rdu8 32) rfl (by decide) fun _ => hbyte 67
  · exact passable_payloadRead hh (.rdu16 33) rfl (by decide) fun _ => hpair 68

/-- From the payload's first address the run gets past the payload or ends with `ShortFrame` in it. -/
theorem RunAt.payload (h : RunAt s ack 21 t) (hh : headerLength s = 12) :
    (∃ t', Leads 34 t t' ∧ RunAt s ack 55 t') ∨
      ∃ j u, 21 ≤ j ∧ j < 55 ∧ Leads 34 t u ∧ ShortAt s ack j u :=
  h.straight 34 (passable_payload hh)

/-! The operator (R93, R129 case 7) -/

/-- A word that is a zero-extended byte. -/
theorem frameU8_lt (s : State) (a : Nat) : (frameU8 s a).toNat < 256 := by
  have hlt := (s.fb.read a).isLt
  rw [frameU8, BitVec.toNat_setWidth]
  omega

/-- The unit after a step that writes OPER and nothing else. -/
def withOperator (v : Word) (t : State) : State := nextUpc (writeField 34 v t)

@[simp] theorem readField_withOperator_same (v : Word) (t : State) : readField 34 (withOperator v t) = some v :=
  readField_written (by decide) (by decide) v t

theorem readField_withOperator_other {r : RegNum} (h0 : r ≠ 0#6) (hr : r ≠ 34) (v : Word) (t : State) :
    readField r (withOperator v t) = readField r t :=
  readField_unwritten (by decide) h0 hr v t

/-- Only addresses 55 to 57 work on OPER, and on no other register. -/
theorem writers_before_end (r : RegNum) : r = 34 ∨ (writerOf r < 58 ↔ writerOf r < 55) := by
  revert r
  decide

/-- OPER completes the registers. -/
theorem FieldsAt.complete (h : FieldsAt s 55 t) (hOPER : readField 34 t' = some (frameField s 34))
    (hkept : ∀ r : RegNum, r ≠ 0#6 → r ≠ 34 → readField r t' = readField r t) : FieldsAt s 58 t' := fun r h0 => by
  by_cases hr : r = 34
  · rw [hr, hOPER]
    rfl
  · rw [hkept r h0 hr, h r h0]
    simp only [(writers_before_end r).resolve_left hr]

section Operator

variable (h : RunAt s ack 55 t) {v1 v2 v3 : Word}
include h

/-- The three steps of addresses 55 to 57, whatever they compute. -/
theorem RunAt.leads_operator (h1 : exec (.ext 34 10 4 4) t = .next (withOperator v1 t))
    (h2 : exec (.cat 34 11 8) (withOperator v1 t) = .next (withOperator v2 (withOperator v1 t)))
    (h3 : exec (.cat 34 15 8) (withOperator v2 (withOperator v1 t)) =
      .next (withOperator v3 (withOperator v2 (withOperator v1 t)))) :
    Leads 3 t (withOperator v3 (withOperator v2 (withOperator v1 t))) := by
  have hupc : t.upc = 55 := BitVec.eq_of_toNat_eq h.upc
  have hscript := h.progress.script
  have hi2 : romListing[(t.upc + 1).toNat]? = some (.cat 34 11 8) := by rw [hupc]; rfl
  have hi3 : romListing[(t.upc + 1 + 1).toNat]? = some (.cat 34 15 8) := by rw [hupc]; rfl
  exact ((h.leads rfl h1).trans (.step h.run hscript h.rom hi2 h2)).trans (.step h.run hscript h.rom hi3 h3)

/-- After them the run stands at address 58 when OPER has its field. -/
theorem RunAt.afterOperator (hh : headerLength s = 12) (hv : v3 = frameField s 34) :
    RunAt s ack 58 (withOperator v3 (withOperator v2 (withOperator v1 t))) := by
  have hp := h.progress
  have hupc : (t.upc + 1 + 1 + 1).toNat = 58 := by
    rw [show t.upc = 55 from BitVec.eq_of_toNat_eq h.upc]
    rfl
  have hpos : t.pos.toNat = cursorAt (headerLength s) 58 := by rw [hp.pos, hh]; rfl
  have hreached : bytesToReach (headerLength s) 58 = bytesToReach (headerLength s) 55 := by rw [hh]; rfl
  have hfields := hp.fields.complete (t' := withOperator v3 (withOperator v2 (withOperator v1 t)))
    (by rw [readField_withOperator_same, hv]) fun r h0 hr => by simp only [readField_withOperator_other h0 hr]
  exact ⟨⟨hp.fb, hp.flen, hp.chan, hp.known, hp.script, hpos, hfields, hp.batsel, hp.ack⟩, h.run, h.rom, hupc,
    hreached ▸ h.reached⟩

/-- EXT and the two CATs assemble the operator from OPHI, OPMID and OPLO. -/
theorem RunAt.assembleOperator (hh : headerLength s = 12) : ∃ t', Leads 3 t t' ∧ RunAt s ack 58 t' := by
  have hOPMID (v : Word) : readField 11 (withOperator v t) = some (frameField s 11) :=
    (readField_withOperator_other (by decide) (by decide) v t).trans (h.field (by decide) (by decide))
  have hOPLO (v w : Word) : readField 15 (withOperator w (withOperator v t)) = some (frameField s 15) := by
    rw [readField_withOperator_other (by decide) (by decide), readField_withOperator_other (by decide) (by decide),
      h.field (by decide) (by decide)]
  exact ⟨_, h.leads_operator (exec_ext rfl (h.field (by decide) (by decide)))
    (exec_cat rfl (readField_withOperator_same _ _) (hOPMID _))
    (exec_cat rfl (readField_withOperator_same _ _) (hOPLO _ _)),
    h.afterOperator hh (operatorWord_eq _ (frameU8_lt s 17) (frameU8_lt s 25))⟩

end Operator

/-! The rows of R131 -/

/-- Going on needs no fewer bytes. -/
theorem bytesToReach_mono {j k : Nat} (hjk : j ≤ k) (hk : k ≤ 58) : bytesToReach 12 j ≤ bytesToReach 12 k := by
  have hsucc : ∀ k : Fin 58, bytesToReach 12 k.val ≤ bytesToReach 12 (k.val + 1) := by decide
  induction k, hjk using Nat.le_induction with
  | base => exact le_rfl
  | succ k _ ih => exact (ih (by omega)).trans (hsucc ⟨k, by omega⟩)

/-- A frame that has its whole payload ends the run with RESULT 1 (R129 case 7). -/
theorem RunAt.decoded (h : RunAt s ack 21 t) (hh : headerLength s = 12) (hlen : 70 ≤ s.flen.toNat) :
    ∃ u, Leads 38 t u ∧ EndedAt s ack 58 58 1 u := by
  rcases h.payload hh with ⟨t', hlead, h'⟩ | ⟨j, u, hlow, hhigh, -, hu⟩
  · obtain ⟨t'', hlead', h''⟩ := h'.assembleOperator hh
    obtain ⟨u, hhalt, hu⟩ := h''.halt (code := 1) rfl rfl
    exact ⟨u, (hlead.trans hlead').trans hhalt, hu⟩
  · have hshort := hu.short
    have hall : bytesToReach 12 (j + 1) ≤ 70 := bytesToReach_mono (k := 58) (by omega) le_rfl
    rw [hh] at hshort
    omega

/-- A frame that has not ends the run with `ShortFrame` in the payload (R129 case 6). -/
theorem RunAt.truncated (h : RunAt s ack 21 t) (hh : headerLength s = 12) (hlen : s.flen.toNat < 70) :
    ∃ j u, 21 ≤ j ∧ j < 55 ∧ Leads 34 t u ∧ ShortAt s ack j u := by
  refine (h.payload hh).resolve_left ?_
  rintro ⟨t', -, h'⟩
  have hreached := h'.reached
  rw [hh] at hreached
  exact absurd hreached (Nat.not_le.2 hlen)

end Sys2Proof.Proofs
end

section
/-! PROOFS. The statements of `spec/45_frame_program.md` about whole frame runs (R127 to R131). Each is the run's end, as the
addresses before it left it, read off at the registers and offsets that the statement names. -/

namespace Sys2Proof.Proofs

open Sys2Proof.Machine Sys2Proof.Laws

variable {s t u : State} {ack : Memory × BitVec 8 × Bool} {j k : Nat}

/-! What the end of a run shows -/

/-- The acknowledgement's outcome is a matter of AB, CMDCNT and ACKV. -/
theorem ackOutcome_congr {v : Word} {packet : Byte} (h : ackPart u = ackPart t) (ht : AckOutcome v packet s t) :
    AckOutcome v packet s u := by
  obtain ⟨hab, hcount, hackv⟩ : u.ab = t.ab ∧ u.cmdcnt = t.cmdcnt ∧ u.ackv = t.ackv := by simpa [ackPart] using h
  simpa only [AckOutcome, hab, hcount, hackv] using ht

/-- Once the header is parsed its three registers hold what R121 says. -/
theorem Progress.headerFields (h : Progress s ack k u) (hk : 5 < k) : HeaderFields (headerLength s - 1) s u := by
  have hfield (r : RegNum) (h0 : r ≠ 0#6) (hr : writerOf r ≤ 5) : readField r u = some (frameField s r) := by
    rw [h.fields r h0, if_pos (by omega)]
  exact ⟨hfield 1 (by decide) (by decide), hfield 2 (by decide) (by decide), hfield 3 (by decide) (by decide)⟩

/-- Registers whose addresses the run did not get to are not valid. -/
theorem Progress.unwritten (h : Progress s ack k u) {n bound : Nat} (hk : k ≤ bound)
    (hlate : ∀ r : RegNum, n ≤ r.toNat → r ≠ 0#6 ∧ bound ≤ writerOf r) (r : RegNum) (hr : n ≤ r.toNat) :
    readField r u = none := by
  obtain ⟨h0, hwriter⟩ := hlate r hr
  rw [h.fields r h0, if_neg (by omega)]

/-- Before the payload only the header's registers are valid. -/
theorem Progress.noPayload (h : Progress s ack k u) (hk : k ≤ 21) (r : RegNum) (hr : 4 ≤ r.toNat) :
    readField r u = none :=
  h.unwritten hk (by decide) r hr

/-- The address of the end and the cursor, as words. -/
theorem EndedAt.stops {code : BitVec 3} (h : EndedAt s ack k k code u) {pos : Nat}
    (hpos : cursorAt (headerLength s) k = pos) : u.upc = BitVec.ofNat 6 k ∧ u.pos = BitVec.ofNat 16 pos := by
  rw [← hpos, ← h.progress.pos, BitVec.ofNat_toNat]
  exact ⟨BitVec.eq_of_toNat_eq (by rw [BitVec.toNat_ofNat, ← h.upc, Nat.mod_eq_of_lt u.upc.isLt]), rfl⟩

/-- The packet number's offset, as the statements write it. -/
theorem packetOffset_eq (s : State) : (if s.fb.read 4 = 8 then 9 else 11) = headerLength s - 1 := by
  unfold headerLength
  split <;> rfl

theorem headerLength_of_type_zero (h : s.fb.read 4 = 0) : headerLength s = 12 := by
  simp [headerLength, h]

/-! A frame too short for its header -/

/-- The rows of R131 for the header: the address of the fault, the cursor, and the lengths of frame that end there. -/
theorem header_row (hu : ShortAt s ack j u) (hj : j < 6) :
    (j = 0 ∧ cursorAt (headerLength s) j = 0 ∧ s.flen.toNat ≤ 3) ∨
    (j = 1 ∧ cursorAt (headerLength s) j = 4 ∧ s.flen.toNat = 4) ∨
    (j = 2 ∧ cursorAt (headerLength s) j = 5 ∧ 5 ≤ s.flen.toNat ∧ s.flen.toNat ≤ 8) ∨
    (headerLength s = 10 ∧ j = 5 ∧ cursorAt (headerLength s) j = 9 ∧ s.flen.toNat = 9) ∨
    (headerLength s = 12 ∧ j = 4 ∧ cursorAt (headerLength s) j = 9 ∧ 9 ≤ s.flen.toNat ∧ s.flen.toNat ≤ 10) ∨
    (headerLength s = 12 ∧ j = 5 ∧ cursorAt (headerLength s) j = 11 ∧ s.flen.toNat = 11) := by
  have hreached := hu.reached
  have hshort := hu.short
  rcases headerLength_cases s with ⟨-, hh⟩ | ⟨-, hh⟩
  all_goals
    rw [hh] at hreached hshort ⊢
    interval_cases j <;> simp [bytesToReach, cursorAt] at hreached hshort ⊢ <;> omega

/-- A run whose frame is shorter than its header ends with `ShortFrame` in the header. -/
theorem short_run (hs : ReadyForFrame s) (hlen : s.flen.toNat < headerLength s) :
    ∃ j u, j < 6 ∧ Leads 6 (hostStart s) u ∧ ShortAt s (ackAtStart s) j u := by
  refine (runAt_start hs).header.resolve_left ?_
  rintro ⟨t, -, ht⟩
  exact absurd ht.reached (Nat.not_le.2 hlen)

/-- Settles O53: the run does not get past the header, and `header_row` says where it ends. -/
theorem frameRunShortHeader : Obligations.FrameRunShortHeader := by
  intro s hs hlen
  have hlength := headerLength_cases s
  have hlen : s.flen.toNat < 5 ∨ s.flen.toNat < headerLength s := hlen
  obtain ⟨j, u, hj, hlead, hu⟩ := short_run hs (by omega)
  have hrow := header_row hu hj
  have hp := hu.ended.progress
  obtain ⟨hab, hcount, hackv⟩ := hp.ack_untouched
  have hbatsel : u.batsel = s.batsel := hp.batsel.trans (if_neg (by omega))
  have hTYPE : readField 1 u = if 1 < j then some (frameU8 s 4) else none := hp.fields 1 (by decide)
  have hUNITID : readField 2 u = if 2 < j then some (frameU32 s 5) else none := hp.fields 2 (by decide)
  have hstop (upc pos : Nat) (h : j = upc ∧ cursorAt (headerLength s) j = pos) :
      u.upc = BitVec.ofNat 6 upc ∧ u.pos = BitVec.ofNat 16 pos := h.1 ▸ hu.ended.stops h.2
  have height (htype : s.fb.read 4 = 8) : headerLength s = 10 := if_pos htype
  have hother (htype : s.fb.read 4 ≠ 8) : headerLength s = 12 := if_neg htype
  refine ⟨u, hu.ended.run_eq (hlead.mono (by decide)), hu.ended.run, hu.ended.result, hackv, ⟨hcount, hbatsel⟩, hab,
    hp.frameKept, hTYPE.trans (if_congr (by omega) rfl rfl), hUNITID.trans (if_congr (by omega) rfl rfl),
    hp.unwritten (show j ≤ 5 by omega) (by decide),
    fun _ => hstop 0 0 (by omega), fun _ => hstop 1 4 (by omega), fun _ _ => hstop 2 5 (by omega),
    fun htype _ => hstop 5 9 ?_, fun htype _ _ => hstop 4 9 ?_, fun htype _ => hstop 5 11 ?_⟩
  · have hh := height htype
    omega
  · have hh := hother htype
    omega
  · have hh := hother htype
    omega

/-! A parsed header -/

/-- Settles O54: the run comes to the routing, which sends it to address 19. -/
theorem frameRunOtherTypeIsAcknowledged : Obligations.FrameRunOtherTypeIsAcknowledged := by
  intro s hs htype hlen
  obtain ⟨t, hlead, ht, hack⟩ := parsed_run hs hlen
  obtain ⟨u, hlead', hu⟩ := ht.otherType htype
  have hp := hu.progress
  rw [packetOffset_eq]
  exact ⟨u, hu.run_eq ((hlead.trans hlead').mono (by decide)), hu.run, hu.result, BitVec.eq_of_toNat_eq hu.upc, hp.pos,
    ackOutcome_congr hp.ack hack, hp.headerFields (by decide), hp.noPayload (by decide), hp.batsel, hp.frameKept⟩

/-- Settles O55: the run comes to the session query, which sends it to address 59. -/
theorem frameRunUnknownDeviceIsAcknowledged : Obligations.FrameRunUnknownDeviceIsAcknowledged := by
  intro s hs htype hlen hunknown
  have hh := headerLength_of_type_zero htype
  obtain ⟨t, hlead, ht, hack⟩ := parsed_run hs (hh ▸ hlen)
  obtain ⟨u, hlead', hu⟩ := ht.unknownDevice htype hunknown
  have hp := hu.progress
  have hpos := hp.pos
  have hheader := hp.headerFields (by decide)
  rw [packetByte, hh] at hack
  rw [hh] at hpos hheader
  exact ⟨u, hu.run_eq ((hlead.trans hlead').mono (by decide)), hu.run, hu.result, BitVec.eq_of_toNat_eq hu.upc,
    BitVec.eq_of_toNat_eq hpos, ackOutcome_congr hp.ack hack, hheader, hp.noPayload (by decide), hp.batsel, hp.frameKept⟩

/-! The payload of a known device's status frame -/

/-- The run of a known device's status frame comes to the payload, with the acknowledgement done. -/
theorem payload_run (hs : ReadyForFrame s) (htype : s.fb.read 4 = 0) (hlen : 12 ≤ s.flen.toNat)
    (hknown : frameU32 s 5 ∈ s.knownDevices) :
    ∃ ack t, Leads 20 (hostStart s) t ∧ RunAt s ack 21 t ∧
      ∀ u, ackPart u = ack → AckOutcome (frameU32 s 5) (s.fb.read 11) s u := by
  have hh := headerLength_of_type_zero htype
  obtain ⟨t, hlead, ht, hack⟩ := parsed_run hs (hh ▸ hlen)
  obtain ⟨t', hlead', ht'⟩ := ht.knownDevice htype hknown
  rw [packetByte, hh] at hack
  exact ⟨ackPart t, t', hlead.trans hlead', ht', fun u hu => ackOutcome_congr hu hack⟩

/-- BATSEL's value as a comparison of the frame's byte (R92, R129). -/
theorem batteryTable_frameU8 (s : State) (a : Nat) :
    batteryTable (frameU8 s a) = decide ((s.fb.read a).toNat % 32 = 12) := by
  have hlt := (s.fb.read a).isLt
  rw [Bool.eq_iff_iff, batteryTable_iff, decide_eq_true_iff, frameU8, BitVec.toNat_setWidth]
  omega

/-- Settles O57: the run gets through the payload, so every register holds its `frameField`. -/
theorem frameRunDecodesStatusFrame : Obligations.FrameRunDecodesStatusFrame := by
  intro s hs htype hlen hknown
  have hh := headerLength_of_type_zero htype
  obtain ⟨ack, t, hlead, ht, hack⟩ := payload_run hs htype (by omega) hknown
  obtain ⟨u, hlead', hu⟩ := ht.decoded hh hlen
  have hp := hu.progress
  have hheader := hp.headerFields (by decide)
  rw [hh] at hheader
  obtain ⟨hupc, hpos⟩ := hu.stops (pos := 70) (by rw [hh]; rfl)
  have hfield (r : RegNum) (hr : r ≠ 0#6 ∧ writerOf r < 58) : readField r u = some (frameField s r) := by
    rw [hp.fields r hr.1, if_pos hr.2]
  exact ⟨u, hu.run_eq (hlead.trans hlead'), hu.run, hu.result, hupc, hpos, hack u hp.ack, hheader,
    hfield 4 (by decide), hfield 5 (by decide), hfield 6 (by decide), hfield 7 (by decide), hfield 8 (by decide),
    hfield 9 (by decide), hfield 10 (by decide), hfield 11 (by decide), hfield 12 (by decide), hfield 13 (by decide),
    hfield 14 (by decide), hfield 15 (by decide), hfield 16 (by decide), hfield 17 (by decide), hfield 18 (by decide),
    hfield 19 (by decide), hfield 20 (by decide), hfield 21 (by decide), hfield 22 (by decide), hfield 23 (by decide),
    hfield 24 (by decide), hfield 25 (by decide), hfield 26 (by decide), hfield 27 (by decide), hfield 28 (by decide),
    hfield 29 (by decide), hfield 30 (by decide), hfield 31 (by decide), hfield 32 (by decide), hfield 33 (by decide),
    hfield 34 (by decide), hp.batsel.trans (batteryTable_frameU8 s 12), hp.frameKept⟩

/-- The rows of R131 for the payload: first length, last length, UPC and POS. -/
def payloadRows : List (Nat × Nat × Nat × Nat) :=
  [(12, 12, 21, 12), (13, 13, 23, 13), (14, 14, 24, 14), (15, 15, 25, 15), (16, 16, 26, 16), (17, 17, 29, 17),
    (18, 18, 30, 18), (19, 19, 31, 19), (20, 20, 32, 20), (21, 24, 33, 21), (25, 25, 34, 25), (26, 26, 35, 26),
    (27, 29, 36, 27), (30, 32, 37, 30), (33, 38, 38, 33), (39, 40, 39, 39), (41, 41, 40, 41), (42, 42, 41, 42),
    (43, 43, 42, 43), (44, 44, 43, 44), (45, 48, 44, 45), (49, 52, 45, 49), (53, 56, 46, 53), (57, 60, 47, 57),
    (61, 62, 48, 61), (63, 63, 49, 63), (64, 64, 50, 64), (65, 65, 51, 65), (66, 66, 52, 66), (67, 67, 53, 67),
    (68, 69, 54, 68)]

/-- Each row's lengths are those that get to its address and not past it. -/
theorem payloadRows_reach : ∀ row ∈ payloadRows, row.2.2.1 < 55 ∧ bytesToReach 12 row.2.2.1 = row.1 ∧
    bytesToReach 12 (row.2.2.1 + 1) = row.2.1 + 1 ∧ cursorAt 12 row.2.2.1 = row.2.2.2 := by
  decide

/-- A run that ends short got past exactly the addresses whose next one the frame has the bytes for. -/
theorem ShortAt.past_iff (hu : ShortAt s ack j u) (hh : headerLength s = 12) (hj : j < 55) (hk : k < 55) :
    k < j ↔ bytesToReach 12 (k + 1) ≤ s.flen.toNat := by
  have hreached := hu.reached
  have hshort := hu.short
  rw [hh] at hreached hshort
  constructor
  · intro hkj
    exact (bytesToReach_mono hkj (by omega)).trans hreached
  · intro hbytes
    by_contra hjk
    have hmono := bytesToReach_mono (j := j + 1) (k := k + 1) (by omega) (by omega)
    omega

/-- The lengths of a frame determine the address of the fault. -/
theorem ShortAt.address_unique (hu : ShortAt s ack j u) (hh : headerLength s = 12) (hj : j < 55) (hk : k < 55)
    (hreached : bytesToReach 12 k ≤ s.flen.toNat) (hshort : s.flen.toNat < bytesToReach 12 (k + 1)) : j = k := by
  have hle : ¬ k < j := mt (hu.past_iff hh hj hk).1 (by omega)
  by_contra hne
  have hmono := bytesToReach_mono (j := j + 1) (k := k) (by omega) (by omega)
  have hend := hu.short
  rw [hh] at hend
  omega

/-- Settles O56: the run ends in the payload; `past_iff` turns the address into the length of the frame. -/
theorem frameRunShortPayload : Obligations.FrameRunShortPayload := by
  intro s hs htype hlen hshort hknown
  have hh := headerLength_of_type_zero htype
  obtain ⟨ack, t, hlead, ht, hack⟩ := payload_run hs htype hlen hknown
  obtain ⟨j, u, hlow, hhigh, hlead', hu⟩ := ht.truncated hh hshort
  have hp := hu.ended.progress
  have hheader := hp.headerFields (show 5 < j by omega)
  rw [hh] at hheader
  have hfield (r : RegNum) (hr : r ≠ 0#6 ∧ writerOf r < 55) :
      readField r u = if bytesToReach 12 (writerOf r + 1) ≤ s.flen.toNat then some (frameField s r) else none :=
    (hp.fields r hr.1).trans (if_congr (hu.past_iff hh hhigh hr.2) rfl rfl)
  have hlate := hp.unwritten (n := 33) (show j ≤ 54 by omega) (by decide)
  have hbatsel : u.batsel =
      if 13 ≤ s.flen.toNat then decide ((s.fb.read 12).toNat % 32 = 12) else s.batsel :=
    hp.batsel.trans (if_congr (hu.past_iff hh hhigh (by decide)) (batteryTable_frameU8 s 12) rfl)
  refine ⟨u, hu.ended.run_eq ((hlead.trans hlead').mono (by decide)), hu.ended.run, hu.ended.result, hack u hp.ack,
    hheader, fun first last upc pos hrow hfirst hlast => ?_, hfield 4 (by decide), hfield 5 (by decide),
    hfield 6 (by decide), hfield 7 (by decide), hfield 8 (by decide), hfield 9 (by decide), hfield 10 (by decide),
    hfield 11 (by decide), hfield 12 (by decide), hfield 13 (by decide), hfield 14 (by decide), hfield 15 (by decide),
    hfield 16 (by decide), hfield 17 (by decide), hfield 18 (by decide), hfield 19 (by decide), hfield 20 (by decide),
    hfield 21 (by decide), hfield 22 (by decide), hfield 23 (by decide), hfield 24 (by decide), hfield 25 (by decide),
    hfield 26 (by decide), hfield 27 (by decide), hfield 28 (by decide), hfield 29 (by decide), hfield 30 (by decide),
    hfield 31 (by decide), hfield 32 (by decide), hlate 33 (by decide), hlate 34 (by decide), hbatsel, hp.frameKept⟩
  obtain ⟨hupc, hreach, hnext, hcursor⟩ := payloadRows_reach (first, last, upc, pos) hrow
  obtain rfl : j = upc := hu.address_unique hh hhigh hupc (by simpa only [hreach]) (by simp only [hnext]; omega)
  exact ⟨hu.ended.upc, hp.pos.trans (by rw [hh]; exact hcursor)⟩

/-! Every frame -/

/-- The end of a run within its 58 steps, as far as O52 looks at it. -/
theorem EndedAt.frameRun_ends {n upc : Nat} {code : BitVec 3} (hu : EndedAt s ack k upc code u)
    (hlead : Leads n (hostStart s) u) (hn : n ≤ 58) (hcode : code = 1 ∨ code = 2 ∨ code = 3 ∨ code = 4) :
    ∃ t, Host.Core.run Sys2Proof.core 58 (hostStart s) = .next t ∧ t.run = false ∧
      (t.result = 1 ∨ t.result = 2 ∨ t.result = 3 ∨ t.result = 4) ∧ FrameKept s t :=
  ⟨u, hu.run_eq (hlead.mono hn), hu.run, hu.result ▸ hcode, hu.progress.frameKept⟩

/-- Settles O52, by the kinds of frame of R129: each has the end of its run. -/
theorem frameRunEndsWithin58Steps : Obligations.FrameRunEndsWithin58Steps := by
  intro s hs
  rcases Nat.lt_or_ge s.flen.toNat (headerLength s) with hshort | hlen
  · obtain ⟨j, u, -, hlead, hu⟩ := short_run hs hshort
    exact hu.ended.frameRun_ends hlead (by decide) (by decide)
  obtain ⟨t, hlead, ht, -⟩ := parsed_run hs hlen
  by_cases htype : s.fb.read 4 = 0
  · have hh := headerLength_of_type_zero htype
    by_cases hknown : frameU32 s 5 ∈ s.knownDevices
    · obtain ⟨t', hlead', ht'⟩ := ht.knownDevice htype hknown
      rcases Nat.lt_or_ge s.flen.toNat 70 with htruncated | hwhole
      · obtain ⟨j, u, -, -, hlead'', hu⟩ := ht'.truncated hh htruncated
        exact hu.ended.frameRun_ends ((hlead.trans hlead').trans hlead'') (by decide) (by decide)
      · obtain ⟨u, hlead'', hu⟩ := ht'.decoded hh hwhole
        exact hu.frameRun_ends ((hlead.trans hlead').trans hlead'') (by decide) (by decide)
    · obtain ⟨u, hlead', hu⟩ := ht.unknownDevice htype hknown
      exact hu.frameRun_ends (hlead.trans hlead') (by decide) (by decide)
  · obtain ⟨u, hlead', hu⟩ := ht.otherType htype
    exact hu.frameRun_ends (hlead.trans hlead') (by decide) (by decide)

end Sys2Proof.Proofs
end

section
/-! PROOFS. The statement of `spec/46_host_contract.md` about the reason mapper (R140, R147, R148): one equation per branch of
`reasonString`, and the alarm of a Position as the mapper's answer on the low byte of REASON. -/

namespace Sys2Proof.Proofs

open Sys2Proof.Machine Sys2Proof.Laws

/-! The reason mapper -/

theorem listedReasons_increasing : listedReasons.IsChain (· < ·) := by
  simp [listedReasons]

theorem listedReasons_nodup : listedReasons.Nodup :=
  (List.isChain_iff_pairwise.1 listedReasons_increasing).imp ne_of_lt

/-- An unlisted code (R148). -/
theorem reasonString_of_not_mem {code : Byte} (h : code.toNat ∉ listedReasons) :
    reasonString code = "Unrecognised cause" :=
  if_neg (mt List.contains_iff_mem.1 h)

/-- The one listed code whose string the spec gives (R148). -/
theorem reasonString_of_toNat_eq_33 {code : Byte} (h : code.toNat = 33) :
    reasonString code = "GPS Navigation Start" := by
  obtain rfl : code = 33#8 := BitVec.eq_of_toNat_eq h
  have hlisted : listedReasons.contains 33 = true := by decide
  exact if_pos hlisted

/-- Every other listed code has the host's own string, a first character and a rest (R148, log 16). -/
theorem reasonString_of_mem {code : Byte} (h : code.toNat ∈ listedReasons) (hne : code.toNat ≠ 33) :
    reasonString code = String.singleton (Config.reasonHead code) ++ Config.reasonTail code := by
  have hgps : code ≠ 33#8 := fun heq => hne (congrArg BitVec.toNat heq)
  rw [reasonString, if_pos (List.contains_iff_mem.2 h), if_neg hgps]

theorem reasonString_ne_empty {code : Byte} (h : code.toNat ∈ listedReasons) : reasonString code ≠ "" := by
  by_cases hgps : code.toNat = 33
  · rw [reasonString_of_toNat_eq_33 hgps]
    decide
  · rw [reasonString_of_mem h hgps]
    simp

/-! The alarm of a Position -/

/-- Settles O58: the codes written out are the model's, each branch of the mapper has its equation, and the alarm is the
mapper's answer on REASON's low byte (`hostPosition_alarm`). -/
theorem reasonMapperIsTotal : Obligations.ReasonMapperIsTotal := by
  unfold Obligations.ReasonMapperIsTotal
  intro codes
  have hcodes : codes = listedReasons := rfl
  rw [hcodes]
  refine ⟨rfl, listedReasons_nodup, fun code => ⟨reasonString_ne_empty, reasonString_of_not_mem⟩,
    reasonString_of_toNat_eq_33 rfl, fun s p hp => ?_⟩
  obtain ⟨reason, hreason, halarm⟩ := hostPosition_alarm hp
  have hbyte : (reason.setWidth 8).toNat = reason.toNat % 256 := BitVec.toNat_setWidth 8 reason
  refine ⟨reason, hreason, ?_⟩
  rw [halarm, ← hbyte]
  exact ⟨reasonString_ne_empty, reasonString_of_toNat_eq_33, reasonString_of_not_mem⟩

end Sys2Proof.Proofs
end

section
/-! PROOFS. The statements of `spec/60_exceptions.md` (R160 to R164). `RunEnd` says what a micro-operation does to RUN and
RESULT and why; which fault it takes is read off from the form of its meaning: a bounds check, or the read of a source. -/

namespace Sys2Proof.Proofs

open Sys2Proof.Machine Sys2Proof.Laws

/-! What a micro-operation does to RUN and RESULT -/

/-- The ends of a micro-operation as RUN and RESULT see them: each of the three faults with its cause (R160 to R162), a legal
HALT (R113), or neither written. -/
inductive RunEnd (i : Instr) (s : State) : State → Prop
  | illegalOp (hwf : i.wf = false) : RunEnd i s (takeTrap .illegalOp s)
  | shortFrame (hpast : PastEnd i s) : RunEnd i s (takeTrap .shortFrame s)
  | unwrittenField (hsource : SourceUnwritten i s) : RunEnd i s (takeTrap .unwrittenField s)
  | halt (code : Byte) (hi : i = .halt code) (hwf : i.wf = true) : RunEnd i s (endRun (haltResult code) s)
  | goesOn (t : State) (hrun : t.run = s.run) (hresult : t.result = s.result) : RunEnd i s t

/-- HALT is the only legal micro-operation whose own effect writes RUN or RESULT (R164). -/
theorem runEnd_of_effect {i : Instr} {s t : State} (hwf : i.wf = true) (h : Effect i s t) : RunEnd i s t := by
  rcases h with ⟨n, -, -, rfl⟩ | ⟨k, fd, v, -, -, -, rfl⟩ | ⟨fd, v, -, -, rfl⟩ | ⟨fs, v, -, -, rfl⟩ | ⟨-, rfl⟩ |
    ⟨off, n, v, -, -, rfl⟩ | ⟨off, -, -, rfl⟩ | ⟨-, rfl⟩ | ⟨c, target, -, rfl⟩ | ⟨code, hi, -, rfl⟩
  pick_goal 10
  · exact .halt code hi hwf
  all_goals exact .goesOn _ (by simp) (by simp)

theorem runEnd_of_exec {i : Instr} {s t : State} (h : exec i s = .next t) : RunEnd i s t := by
  obtain ⟨u, hu, hcases⟩ := exec_cases i s
  obtain rfl : u = t := by simpa [hu] using h
  rcases hcases with ⟨hwf, rfl⟩ | ⟨-, hpast, rfl⟩ | ⟨-, hsource, rfl⟩ | ⟨hwf, heff⟩
  · exact .illegalOp hwf
  · exact .shortFrame hpast
  · exact .unwrittenField hsource
  · exact runEnd_of_effect hwf heff

/-- The code of a legal HALT is below the codes of the three faults (R23). -/
theorem haltResult_ne_fault {code : Byte} (hwf : (Instr.halt code).wf = true) {c : BitVec 3} (hc : 3 < c.toNat) :
    haltResult code ≠ c := by
  rintro rfl
  have hhigh := (halt_wf_iff.1 hwf).2
  rw [haltResult_toNat hhigh] at hc
  omega

/-! ShortFrame (R160) -/

/-- Every micro-operation with a byte count is a cursor operation of that count (R80). -/
theorem exists_cursorOp {i : Instr} {k : Nat} (hk : cursorBytes i = some k) (s : State) :
    ∃ effect, exec i s = ifLegal i s (cursorOp k s effect) := by
  cases i with
  | skip | rdu8 | rdi8 | rdu16 | rdu24 | rdu32 | rdi32 | pku8 =>
    cases hk
    exact ⟨_, rfl⟩
  | _ => cases hk

/-- Only a cursor micro-operation writes the code 4 (R23, R160). -/
theorem result_four_of_exec {i : Instr} {s t : State} (hcursor : cursorBytes i = none) (h : exec i s = .next t)
    (hcode : t.result = 4) : s.result = 4 := by
  cases runEnd_of_exec h with
  | shortFrame hpast =>
    obtain ⟨k, hk, -⟩ := hpast
    simp [hcursor] at hk
  | halt code hi hwf => exact absurd hcode (haltResult_ne_fault (hi ▸ hwf) (by decide))
  | goesOn _ _ hresult => exact hresult ▸ hcode
  | illegalOp | unwrittenField => simp [trapCode] at hcode

/-- Settles O28: the bounds check of `exists_cursorOp` fails, SKIP 0 passes it, and `result_four_of_exec`. -/
theorem cursorPastEndTakesShortFrame : Obligations.CursorPastEndTakesShortFrame := by
  refine ⟨fun i k s hwf hk _ hshort => ?_, fun s hfit => ?_, fun i s t => result_four_of_exec⟩
  · obtain ⟨effect, he⟩ := exists_cursorOp hk s
    exact exec_cursorOp_short he hwf hshort
  · exact ⟨_, exec_cursorOp_fits rfl rfl hfit, rfl, rfl⟩

/-! UnwrittenField (R162) -/

/-- A legal micro-operation takes `UnwrittenField` when a source holds no value; CAT reads fd first, so of its two sources fs
decides only when fd holds a value. -/
theorem takes_unwrittenField_of_source {i : Instr} {r : RegNum} {s : State} (hwf : i.wf = true) (hr : r ∈ sourceFields i)
    (hnone : readField r s = none) : ∃ t, exec i s = .next t ∧ FaultTaken 6 s t := by
  cases i with
  | ext _ fs | batsel fs | abb _ fs | abw32 _ fs | beqi fs | bnsess fs =>
    obtain rfl : r = fs := List.mem_singleton.1 hr
    exact takes_unwrittenField rfl hwf hnone
  | cat fd fs n =>
    cases hd : readField fd s with
    | none => exact takes_unwrittenField rfl hwf hd
    | some d =>
      obtain rfl : r = fs := by
        rcases List.mem_pair.1 hr with rfl | hfs
        · simp [hd] at hnone
        · exact hfs
      exact takes_unwrittenField (exec_cat_source hwf hd) hwf hnone
  | _ => cases hr

/-- Only a micro-operation that reads a field register writes the code 6 (R23, R162). -/
theorem result_six_of_exec {i : Instr} {s t : State} (hreads : sourceFields i = []) (h : exec i s = .next t)
    (hcode : t.result = 6) : s.result = 6 := by
  cases runEnd_of_exec h with
  | unwrittenField hsource =>
    obtain ⟨r, hr, -⟩ := hsource
    simp [hreads] at hr
  | halt code hi hwf => exact absurd hcode (haltResult_ne_fault (hi ▸ hwf) (by decide))
  | goesOn _ _ hresult => exact hresult ▸ hcode
  | illegalOp | shortFrame => simp [trapCode] at hcode

/-- Settles O29: the readers one by one, F0 by its read rule, and `result_six_of_exec`. -/
theorem unwrittenSourceTakesUnwrittenField : Obligations.UnwrittenSourceTakesUnwrittenField :=
  ⟨fun _ _ _ => takes_unwrittenField_of_source, readField_zero, fun _ _ _ => result_six_of_exec⟩

/-! IllegalOp (R161) -/

/-- Settles O31: a word that decodes to no micro-operation decodes to a reason, and `stepTakesFault_of_illegal`. -/
theorem illegalWordTakesIllegalOp : Obligations.IllegalWordTakesIllegalOp := by
  intro s hrun hillegal
  cases hword : decode (fetch s) with
  | legal i => exact absurd hword (hillegal i)
  | illegal why => exact stepTakesFault_of_illegal hrun hword

/-! No other fault, and no other end of a run (R163, R164, R169) -/

theorem sequencerStep_answers_next (s : State) : ∃ t, sequencerStep s = .next t := by
  rcases sequencerStep_cases s with ⟨i, -, he⟩ | he
  · obtain ⟨t, ht, -⟩ := exec_cases i s
    exact ⟨t, he.trans ht⟩
  · exact ⟨_, he⟩

/-- Settles O34: the sequencer's step answers a next state, and so does every other turn (`step_cases`). -/
theorem everyStepAnswersNext : Obligations.EveryStepAnswersNext := by
  intro s
  rcases step_cases s with ⟨rest, -, he⟩ | ⟨rest, -, he⟩ | ⟨a, rest, -, he⟩ | ⟨known, rest, -, he⟩
  · exact he ▸ sequencerStep_answers_next (setScript rest s)
  all_goals exact ⟨_, he⟩

/-- Settles O42: the ends of `RunEnd` that clear RUN are HALT and the three faults, and each is an `endRun`. -/
theorem runEndsWithOneOfSixCodes : Obligations.RunEndsWithOneOfSixCodes := by
  intro i s t hrunning h hstopped
  cases runEnd_of_exec h with
  | halt code hi hwf =>
    obtain ⟨hlow, hhigh⟩ := halt_wf_iff.1 (hi ▸ hwf)
    exact ⟨rfl, rfl, .inl ⟨code, hi, hlow, hhigh, haltResult_toNat hhigh⟩⟩
  | shortFrame => exact ⟨rfl, rfl, .inr (.inl rfl)⟩
  | illegalOp => exact ⟨rfl, rfl, .inr (.inr (.inl rfl))⟩
  | unwrittenField => exact ⟨rfl, rfl, .inr (.inr (.inr rfl))⟩
  | goesOn _ hrun => simp [hrun, hrunning] at hstopped

end Sys2Proof.Proofs
end

section
/-! PROOFS. The statements of `spec/70_reset_and_hazards.md`: the host actions RESET, LOAD, START and READ (R182 to R185) and
the sequencer's step (R188). Each host action is one turn of a step (`step_act`); what it does is in `Laws/Host.lean`, and
what it leaves valid or readable is said here. -/

namespace Sys2Proof.Proofs

open Sys2Proof.Machine Sys2Proof.Laws

/-- The host's own turn: its action, on the unit with the turn used up (log 7). -/
theorem step_act {a : HostAction} {s : State} {rest : List HostTurn} (hs : s.script = .act a :: rest) :
    step s = .next (applyHost a (setScript rest s)) := by
  simp [step, turnStep, hs]

/-! The sequencer's step (R188) -/

/-- Settles O32: each of the sequencer's three turns is its step, and none of them changes the word at UPC. -/
theorem stepRunsTheDecodedInstr : Obligations.StepRunsTheDecodedInstr := by
  intro s i hrun hword
  refine ⟨fun hs => ?_, fun rest hs => ?_, fun rest hs => ?_⟩
  · exact (step_no_turn hrun hs).trans (sequencerStep_legal hword)
  · exact (step_awaitDone hrun hs).trans (sequencerStep_legal hword)
  · have hword' : decode (fetch (setScript rest s)) = .legal i := hword
    exact (step_letStep hrun hs).trans (sequencerStep_legal hword')

/-- Settles O33: the model's choice for a step where the unit has none (log 11). -/
theorem stoppedUnitKeepsItsState : Obligations.StoppedUnitKeepsItsState :=
  fun _ hrun hs => step_stopped hrun hs

/-! RESET and START (R182, R184) -/

/-- With a cleared register file the bits of FVALID below any bound are bit 0 alone (R13). -/
theorem fvalidBits_cleared {t : State} (hf : t.f = fieldsCleared) : ∀ n, n < 64 → fvalidBits t (n + 1) = 1
  | 0, _ => rfl
  | n + 1, hn => by
    have hne : BitVec.ofNat 6 (n + 1) ≠ 0#6 := fun h0 => by
      have hzero : (n + 1) % 2 ^ 6 = 0 := congrArg BitVec.toNat h0
      omega
    have hinvalid : fieldValid (BitVec.ofNat 6 (n + 1)) t = false := by
      rw [fieldValid, readField_cleared hf hne, Option.isSome_none]
    rw [fvalidBits, fvalidBits_cleared hf n (by omega), hinvalid]
    rfl

/-- After RESET and START FVALID has only bit 0 set (R27, R184). -/
theorem fvalid_cleared {t : State} (hf : t.f = fieldsCleared) : t.fvalid = 0x000000001#35 := by
  rw [State.fvalid, fvalidBits_cleared hf 34 (by decide)]

/-- With FLEN = 0 no byte of FB has a value the host could read (R27, U2). -/
theorem itemValue_fb_of_empty {t : State} (h : t.flen = 0) (a : Nat) : itemValue (.fb a) t = none := by
  simp [itemValue, h]

/-- Settles O45: RESET and `State.reset` agree in every item of the unit, whatever it was; what no item holds as such is
FVALID, the cleared registers and the bytes of the empty FB. -/
theorem hostResetGivesResetValues : Obligations.HostResetGivesResetValues := by
  refine ⟨fun s rest hs => ⟨_, step_act hs, ?_⟩, ?_⟩
  · exact ⟨rfl, rfl, rfl, rfl, rfl, rfl, rfl, rfl, rfl, fvalid_cleared rfl, fun _ => readField_cleared rfl, fun _ => rfl, rfl,
      itemValue_fb_of_empty rfl, rfl⟩
  · exact ⟨rfl, rfl, rfl, rfl, rfl, rfl, rfl, rfl, rfl, fvalid_cleared rfl, fun _ => readField_cleared rfl, fun _ => rfl, rfl,
      itemValue_fb_of_empty rfl⟩

/-- Settles O47: `hostStart_stopped` and `hostStart_running`, on the unit with the turn used up. -/
theorem hostStartBeginsRun : Obligations.HostStartBeginsRun := by
  intro s rest hs
  refine ⟨fun hrun => ?_, fun hrun => ?_⟩
  · have hstart := hostStart_stopped (s := setScript rest s) hrun
    exact ⟨_, (step_act hs).trans (congrArg _ hstart), fvalid_cleared rfl, fun _ => readField_cleared rfl, rfl, rfl, rfl, rfl,
      rfl, rfl, fun _ _ => rfl, ⟨fun _ => rfl, rfl, rfl⟩, ⟨rfl, rfl⟩, rfl, rfl, rfl, rfl, rfl⟩
  · exact (step_act hs).trans (congrArg _ (hostStart_running (s := setScript rest s) hrun))

/-! LOAD (R183) -/

/-- A frame that fits has a length that FLEN's 16 bits hold (R5, R16). -/
theorem flen_toNat_of_fits {n : Nat} (h : n ≤ Config.frameMax) : (BitVec.ofNat 16 n).toNat = n := by
  have hmax := frameMax_bounds.2
  rw [BitVec.toNat_ofNat, Nat.mod_eq_of_lt (by omega)]

/-- Settles O46: an accepted LOAD by `hostLoad_accepted`, its bytes by what `writeBytes` stores and leaves alone; the two
refusals by `hostLoad_running` and `hostLoad_long`. -/
theorem hostLoadWritesFrame : Obligations.HostLoadWritesFrame := by
  intro s bytes chan rest hs
  refine ⟨fun hrun hfits hwf => ?_, fun hrefused => ?_⟩
  · have hload := hostLoad_accepted (s := setScript rest s) hrun hfits chan
    refine ⟨_, (step_act hs).trans (congrArg _ hload), fun k hk => ?_, fun a ha => ?_, flen_toNat_of_fits hfits, rfl, rfl, rfl,
      fun _ _ _ => rfl, fun _ _ => rfl, ⟨rfl, rfl⟩, ⟨rfl, rfl, rfl⟩, rfl, rfl, rfl, rfl, rfl⟩
    · simpa using read_writeBytes_inside bytes 0 k hk hwf
    · exact read_writeBytes_outside bytes s.fb 0 (.inr (by omega))
  · refine (step_act hs).trans (congrArg _ ?_)
    rcases hrefused with hrun | hlong
    · exact hostLoad_running (s := setScript rest s) hrun bytes chan
    · exact hostLoad_long hlong chan

/-! READ (R185) -/

/-- READ touches neither the unit nor anything outside it but the host's own two fields (R185; log 8). -/
theorem hostRead_keeps_rest (item : ReadItem) (s : State) :
    { hostRead item s with hostData := s.hostData, freeCount := s.freeCount } = s := by
  obtain ⟨d, n, h⟩ := hostRead_writes_hostData item s
  rw [h]

/-- A READ with a defined answer returns the item's value: any item of a stopped unit, RUN and DONE at any time (R26, R185). -/
theorem hostRead_returns {item : ReadItem} {s : State} (h : s.run = false ∨ readableWhileRunning item = true) :
    (hostRead item s).hostData = itemValue item s := by
  rw [hostRead_eq, if_neg]
  rcases h with h | h <;> simp [h]

/-- An item's value does not depend on whose turn it is (log 7). -/
theorem itemValue_setScript (item : ReadItem) (rest : List HostTurn) (s : State) :
    itemValue item (setScript rest s) = itemValue item s := by
  cases item <;> rfl

/-- DONE as the host reads it (R21, R185). -/
theorem itemValue_done (s : State) :
    itemValue .done s = some (if s.run = false ∧ s.result ≠ 0 then 1 else 0) := by
  simp [itemValue, bitValue, State.done]

/-- An item of `w` bits is read zero-extended, as the number it holds (R185). -/
theorem some_setWidth_eq_ofNat_toNat {w : Nat} (x : BitVec w) :
    some (x.setWidth 32) = some (BitVec.ofNat 32 x.toNat) := by
  rw [BitVec.ofNat_toNat]

/-- A byte of the loaded frame as the host reads it (R185). -/
theorem itemValue_fb_below {s : State} {a : Nat} (ha : a < s.flen.toNat) :
    itemValue (.fb a) s = some (BitVec.ofNat 32 (s.fb.read a).toNat) :=
  (if_pos ha).trans (some_setWidth_eq_ofNat_toNat _)

/-- A byte of AB as the host reads it (R185). -/
theorem itemValue_ab_below {s : State} {a : Nat} (ha : a < 28) :
    itemValue (.ab a) s = some (BitVec.ofNat 32 (s.ab.read a).toNat) :=
  (if_pos ha).trans (some_setWidth_eq_ofNat_toNat _)

/-- Settles O48: what READ keeps is `hostRead_keeps_rest`; what it returns is `itemValue` of the item by `hostRead_returns`,
for RUN and DONE always and for the other items of a stopped unit. -/
theorem hostReadReturnsAndChangesNothing : Obligations.HostReadReturnsAndChangesNothing := by
  intro s item rest hs
  have hreturns : s.run = false ∨ readableWhileRunning item = true →
      (applyHost (.read item) (setScript rest s)).hostData = itemValue item s := fun h =>
    (hostRead_returns (s := setScript rest s) h).trans (itemValue_setScript item rest s)
  refine ⟨_, step_act hs, hostRead_keeps_rest item (setScript rest s), fun h => ?_, fun h => ?_, fun hrun => ?_⟩
  · subst h
    exact hreturns (.inr rfl)
  · subst h
    exact (hreturns (.inr rfl)).trans (itemValue_done s)
  · rw [hreturns (.inl hrun)]
    exact ⟨fun _ h => h ▸ rfl,
      fun h => h ▸ some_setWidth_eq_ofNat_toNat s.pos,
      fun h => h ▸ some_setWidth_eq_ofNat_toNat s.upc,
      fun h => h ▸ some_setWidth_eq_ofNat_toNat s.flen,
      fun _ h ha => h ▸ itemValue_fb_below ha,
      fun _ h ha => h ▸ itemValue_ab_below ha,
      fun h => h ▸ some_setWidth_eq_ofNat_toNat s.cmdcnt,
      fun h => h ▸ rfl,
      fun h => h ▸ rfl,
      fun h => h ▸ rfl,
      fun h => h ▸ some_setWidth_eq_ofNat_toNat s.result⟩

end Sys2Proof.Proofs
end
